-- ==== Sys2Proof/Word.lean ====
section
/-! DEFINITION. The word types of the block: bytes, 16-bit samples, FIFO indices. -/

namespace Sys2Proof

/-- A byte: 8 bits, bit 0 least significant (R10). -/
abbrev Byte := BitVec 8

/-- One element of the output frame: 16 bits read as two's complement (R36, R112). -/
abbrev Sample := BitVec 16

/-- A FIFO index or storage address, 0..1023 with wrap-around (R35). -/
abbrev Index := BitVec 10

end Sys2Proof
end

