-- ==== Sys2Proof/Syntax.lean ====
section
/-! DEFINITION. The operations of the block, one constructor of `Instr` per row of the opcode table, and the
inputs by which the agents start them: bus accesses and stimuli. -/

namespace Sys2Proof

/-- The three atomic phases of a protocol step (R171, R83). -/
inductive PstepPhase where
  | p1
  | p2
  | p3
deriving DecidableEq, Repr, Inhabited

/-- The three atomic phases of a frame (R211). `F3` carries what `SecondaryFill` returns (R281): interleaved
left and right samples, read as zeros beyond the end of the list (R120). -/
inductive FramePhase where
  | f1
  | f2
  | f3 (sec : List Sample)
deriving DecidableEq, Repr, Inhabited

/-- The script lines `PSTEP`, `P1`, `P2`, `P3` (R120). -/
inductive PstepPart where
  /-- `P1; P2; P3` with nothing in between. -/
  | whole
  /-- One phase. -/
  | phase (ph : PstepPhase)
deriving DecidableEq, Repr, Inhabited

/-- The script lines `FRAME sec`, `F1`, `F2`, `F3` (R120). -/
inductive FramePart where
  /-- `F1; F2; F3` with nothing in between. -/
  | whole (sec : List Sample)
  /-- One phase. -/
  | phase (ph : FramePhase)
deriving DecidableEq, Repr, Inhabited

/-- Every operation of the block (R122). A command has no operand: its parameter bytes are data that later
steps take from `inbox` (R109). -/
inductive Instr where
  | cmdDmaSingle
  | cmdDmaAuto
  | cmdSetTimeConstant
  | cmdSetBlockSize
  | cmdDmaHsAuto
  | cmdDmaHsSingle
  | cmdDmaPause
  | cmdSpeakerOn
  | cmdSpeakerOff
  | cmdDmaResume
  | cmdIdentify
  | cmdGetVersion
  | cmdWriteTest
  | cmdReadTest
  | cmdTriggerIrq
  | cmdIdleZero
  /-- An opcode byte that is neither 0x00 nor one of the fifteen recognised ones (R106). -/
  | cmdUnknown (opcode : Byte)
  | portResetWr (v : Byte)
  | portReadRd
  | portWriteWr (v : Byte)
  | portWstatusRd
  | portRstatusRd
  | por
  | pstep (part : PstepPart)
  | frame (part : FramePart)
  | paceEvent
  | dmaDone (b : Byte)
  | fifoLevel
  | fifoPush (b : Byte)
  | fifoPopInto (maxLen : Nat)
  | fifoClear
  | fifoHalf
  | paceEnable
  | paceDisable
  | output (v : Byte)
  | consumeParam
deriving DecidableEq, Repr, Inhabited

/-- The seventeen rows of the command space, as `P2` tells them apart (R173). -/
inductive Command where
  | idle
  | dmaPause
  | dmaResume
  | dmaAuto
  | dmaHsAuto
  | dmaHsSingle
  | setTimeConstant
  | setBlockSize
  | dmaSingle
  | identify
  | getVersion
  | writeTest
  | readTest
  | triggerIrq
  | speakerOn
  | speakerOff
  | unknown
deriving DecidableEq, Repr, Inhabited

/-- The parameters `OP_*` (R8, R104). -/
structure OpcodeMap where
  dmaSingle : Byte
  dmaAuto : Byte
  setTimeConstant : Byte
  setBlockSize : Byte
  dmaHsAuto : Byte
  dmaHsSingle : Byte
  dmaPause : Byte
  speakerOn : Byte
  speakerOff : Byte
  dmaResume : Byte
  identify : Byte
  getVersion : Byte
  writeTest : Byte
  readTest : Byte
  triggerIrq : Byte
deriving DecidableEq, Repr

/-- The direction of a bus access. -/
inductive Direction where
  | read
  | write
deriving DecidableEq, Repr, Inhabited

/-- One access the host makes in the card's port window (R71, R101): direction, offset from the card's base,
width in bytes, and the low byte of the data written (not used by a read). The spec bounds neither the offset nor
the width (R78, N2); any natural number stands for either (DESIGN CHOICE, log 27). -/
structure BusAccess where
  dir : Direction
  offset : Nat
  width : Nat
  data : Byte
deriving DecidableEq, Repr, Inhabited

/-- The parameters `PORT_*` (R8, R101): the offset of each port. The spec leaves the offsets to the platform and
gives them no width (R78, N2, U4); an offset is any natural number, so no port map is shut out (DESIGN CHOICE,
log 27). -/
structure PortMap where
  reset : Nat
  read : Nat
  write : Nat
  writeStatus : Nat
  readStatus : Nat
deriving DecidableEq, Repr

/-- What an agent does next: one atomic step of the total order of R85 and R86. -/
inductive Stimulus where
  /-- The power-on signal. -/
  | powerOn
  /-- The Host agent accesses the bus. -/
  | bus (a : BusAccess)
  /-- The Poll agent takes a phase of a protocol step. -/
  | protocol (ph : PstepPhase)
  /-- The Poll agent takes a phase of a frame. -/
  | mixer (ph : FramePhase)
  /-- The Scheduler fires the pacing timer. -/
  | paceFires
  /-- The DMA engine completes a transfer with this byte. -/
  | dmaCompletes (b : Byte)
deriving DecidableEq, Repr, Inhabited

end Sys2Proof
end

