-- ==== Sys2Proof/Config.lean ====
section
/-! DEFINITION. The parameters of R8: the literals the source fixes, the parameters an instance is built with,
and the free values the spec leaves open. -/

namespace Sys2Proof

/-! ### Literals fixed by the source (R8) -/

/-- `FIFO_CAPACITY`, in bytes. -/
abbrev Config.fifoCapacity : Nat := 1024
/-- `FIFO_HALF`. -/
abbrev Config.fifoHalf : Nat := Config.fifoCapacity / 2
/-- `PULL_MAX`, bytes pulled per frame. -/
abbrev Config.pullMax : Nat := 4
/-- `TRIM_STEP`, in microseconds. -/
abbrev Config.trimStep : Int := 5
/-- `US_PER_SECOND`. -/
abbrev Config.usPerSecond : Nat := 1000000
/-- `TC_BASE`. -/
abbrev Config.tcBase : Nat := 256
/-- `FRAC_BITS`, the fractional bits of `sample_step` and `sample_offset`. -/
abbrev Config.fracBits : Nat := 16
/-- `FACTOR_MARGIN`. -/
abbrev Config.factorMargin : Nat := 5
/-- `PCM_BIAS`. -/
abbrev Config.pcmBias : Int := 128
/-- `PCM_SCALE`. -/
abbrev Config.pcmScale : Int := 256
/-- `RESET_READY_BYTE`. -/
abbrev Config.resetReadyByte : Byte := 0xAA
/-- `DEFAULT_BLOCK_SIZE`. -/
abbrev Config.defaultBlockSize : BitVec 16 := 0x7FF

/-! ### Parameters of an instance (R8) -/

/-- The parameters a model takes as arguments. They are held in the state and no operation writes them. -/
structure Params where
  /-- `OUTPUT_RATE` in Hz (D11). -/
  outputRate : Nat
  /-- `DSP_VERSION_MAJOR` (D12). -/
  versionMajor : Byte
  /-- `DSP_VERSION_MINOR` (D12). -/
  versionMinor : Byte
  /-- `OP_*` (D13). -/
  opcodes : OpcodeMap
  /-- `PORT_*` (D14). -/
  ports : PortMap
  /-- `MIX_WAIT_LIMIT`, `none` for `INF` (D27). -/
  mixWaitLimit : Option Nat
deriving DecidableEq, Repr

/-! ### Free values: nothing in Lean can tell what they are -/

/-- Fixes `OUTPUT_RATE` of the instance that powers on: any rate of `1 <= OUTPUT_RATE < 2^20` (U1). -/
opaque Config.outputRateLessOne : Fin 1048575
/-- `DSP_VERSION_MAJOR` of the instance that powers on (U2). -/
opaque Config.dspVersionMajor : Byte
/-- `DSP_VERSION_MINOR` of the instance that powers on (U2). -/
opaque Config.dspVersionMinor : Byte
/-- What a byte of FIFO storage that nothing has written holds, by address (U6). -/
opaque Config.unwrittenFifoByte : Nat → Byte
/-- What a bus read that is no operation of the block returns, by draw (U12). -/
opaque Config.unlistedReadData : Nat → Byte
/-- Which agent acts next when no script is loaded, by draw (U9, U10, U11). -/
opaque Config.schedule : Nat → Stimulus

/-- `OUTPUT_RATE` of the instance that powers on; R9 holds of it. -/
def Config.outputRate : Nat := Config.outputRateLessOne.val + 1

end Sys2Proof
end

