-- ==== Sys2Proof/WellFormed.lean ====
section
/-! DEFINITION. The checks an instruction, an opcode map and the parameters must pass. -/

namespace Sys2Proof

/-- The fifteen recognised opcodes of a map, in the order of R104. -/
def OpcodeMap.values (m : OpcodeMap) : List Byte :=
  [m.dmaSingle, m.dmaAuto, m.setTimeConstant, m.setBlockSize, m.dmaHsAuto, m.dmaHsSingle, m.dmaPause, m.speakerOn,
    m.speakerOff, m.dmaResume, m.identify, m.getVersion, m.writeTest, m.readTest, m.triggerIrq]

/-- The constraint of R104: pairwise distinct, and none is 0x00. -/
abbrev OpcodeMap.WellFormed (m : OpcodeMap) : Prop := (0 :: m.values).Nodup

/-- The read ports have distinct offsets, and so have the write ports (R101: the two directions may share one). -/
abbrev PortMap.WellFormed (m : PortMap) : Prop :=
  [m.read, m.writeStatus, m.readStatus].Nodup ∧ [m.reset, m.write].Nodup

/-- The constraints on the parameters of an instance (R9, R101, R104). -/
abbrev Params.WellFormed (p : Params) : Prop :=
  1 ≤ p.outputRate ∧ p.outputRate < 2 ^ 20 ∧ p.opcodes.WellFormed ∧ p.ports.WellFormed

/-- A secondary frame holds a left and a right value for each sample (R281). -/
abbrev SecondaryFrame.WellFormed (sec : List Sample) : Prop := sec.length % 2 = 0

/-- The operand checks: `CMD_UNKNOWN` carries an unrecognised non-zero byte (R106), a secondary frame holds
pairs (R281), and `FIFO_POP_INTO` asks for no more than its destination holds (R134). -/
def Instr.wellFormed (m : OpcodeMap) (i : Instr) : Bool :=
  match i with
  | .cmdUnknown opcode => decide (opcode ∉ 0 :: m.values)
  | .frame (.whole sec) => decide (SecondaryFrame.WellFormed sec)
  | .frame (.phase (.f3 sec)) => decide (SecondaryFrame.WellFormed sec)
  | .frame (.phase .f1) => true
  | .frame (.phase .f2) => true
  | .fifoPopInto maxLen => decide (maxLen ≤ Config.pullMax)
  | .cmdDmaSingle => true
  | .cmdDmaAuto => true
  | .cmdSetTimeConstant => true
  | .cmdSetBlockSize => true
  | .cmdDmaHsAuto => true
  | .cmdDmaHsSingle => true
  | .cmdDmaPause => true
  | .cmdSpeakerOn => true
  | .cmdSpeakerOff => true
  | .cmdDmaResume => true
  | .cmdIdentify => true
  | .cmdGetVersion => true
  | .cmdWriteTest => true
  | .cmdReadTest => true
  | .cmdTriggerIrq => true
  | .cmdIdleZero => true
  | .portResetWr _ => true
  | .portReadRd => true
  | .portWriteWr _ => true
  | .portWstatusRd => true
  | .portRstatusRd => true
  | .por => true
  | .pstep _ => true
  | .paceEvent => true
  | .dmaDone _ => true
  | .fifoLevel => true
  | .fifoPush _ => true
  | .fifoClear => true
  | .fifoHalf => true
  | .paceEnable => true
  | .paceDisable => true
  | .output _ => true
  | .consumeParam => true

end Sys2Proof
end

