-- ==== Sys2Proof/Decode.lean ====
section
/-! DEFINITION. The encodings of `30_encoding.md`: the opcode byte of a command, the formats of the command
stream, the bus access of a port operation, and the stimulus that starts an operation; and the encoders. -/

namespace Sys2Proof

/-! ### The opcode map (R104) -/

/-- The default opcodes of R104. Identify's is the source's; the others are the spec's defaults (log 3). -/
def defaultOpcodes : OpcodeMap where
  dmaSingle := 0x14
  dmaAuto := 0x1C
  setTimeConstant := 0x40
  setBlockSize := 0x48
  dmaHsAuto := 0x90
  dmaHsSingle := 0x91
  dmaPause := 0xD0
  speakerOn := 0xD1
  speakerOff := 0xD3
  dmaResume := 0xD4
  identify := 0xE0
  getVersion := 0xE1
  writeTest := 0xE4
  readTest := 0xE8
  triggerIrq := 0xF2

/-- The informative port offsets of R101 (log 4). -/
def defaultPorts : PortMap where
  reset := 0x6
  read := 0xA
  write := 0xC
  writeStatus := 0xC
  readStatus := 0xE

/-- The rows of R173: 0 is `Idle`, and each recognised opcode selects its command. -/
def opcodeRows (m : OpcodeMap) : List (Byte × Command) :=
  [(0, .idle), (m.dmaPause, .dmaPause), (m.dmaResume, .dmaResume), (m.dmaAuto, .dmaAuto), (m.dmaHsAuto, .dmaHsAuto),
    (m.dmaHsSingle, .dmaHsSingle), (m.setTimeConstant, .setTimeConstant), (m.setBlockSize, .setBlockSize),
    (m.dmaSingle, .dmaSingle), (m.identify, .identify), (m.getVersion, .getVersion), (m.writeTest, .writeTest),
    (m.readTest, .readTest), (m.triggerIrq, .triggerIrq), (m.speakerOn, .speakerOn), (m.speakerOff, .speakerOff)]

/-- The row that matches the whole opcode byte; a byte that matches none is unknown (R104, R106). -/
def selectRow : List (Byte × Command) → Byte → Command
  | [], _ => .unknown
  | (opcode, c) :: rest, b => if b = opcode then c else selectRow rest b

/-- The selection of R173. -/
def classify (m : OpcodeMap) (b : Byte) : Command := selectRow (opcodeRows m) b

/-- The table row a command belongs to; the unknown row keeps its opcode byte. -/
def Command.toInstr (c : Command) (b : Byte) : Instr :=
  match c with
  | .idle => .cmdIdleZero
  | .dmaPause => .cmdDmaPause
  | .dmaResume => .cmdDmaResume
  | .dmaAuto => .cmdDmaAuto
  | .dmaHsAuto => .cmdDmaHsAuto
  | .dmaHsSingle => .cmdDmaHsSingle
  | .setTimeConstant => .cmdSetTimeConstant
  | .setBlockSize => .cmdSetBlockSize
  | .dmaSingle => .cmdDmaSingle
  | .identify => .cmdIdentify
  | .getVersion => .cmdGetVersion
  | .writeTest => .cmdWriteTest
  | .readTest => .cmdReadTest
  | .triggerIrq => .cmdTriggerIrq
  | .speakerOn => .cmdSpeakerOn
  | .speakerOff => .cmdSpeakerOff
  | .unknown => .cmdUnknown b

/-- The instruction an opcode byte names. Total: no byte is refused (R106, R107). -/
def decodeCommand (m : OpcodeMap) (b : Byte) : Instr :=
  (classify m b).toInstr b

/-! ### The command stream (R102, R109) -/

/-- The formats of R102. -/
inductive CommandFormat where
  | c0
  | c1
  | c2
  | c1r1
  | r1
  | r2
deriving DecidableEq, Repr

/-- The format column of R104. -/
def Command.format : Command → CommandFormat
  | .idle => .c0
  | .dmaPause => .c0
  | .dmaResume => .c0
  | .dmaAuto => .c0
  | .dmaHsAuto => .c0
  | .dmaHsSingle => .c0
  | .setTimeConstant => .c1
  | .setBlockSize => .c2
  | .dmaSingle => .c2
  | .identify => .c1r1
  | .getVersion => .r2
  | .writeTest => .c1
  | .readTest => .r1
  | .triggerIrq => .c0
  | .speakerOn => .c0
  | .speakerOff => .c0
  | .unknown => .c0

/-- How many parameter bytes follow the opcode (R102). -/
def CommandFormat.params : CommandFormat → Nat
  | .c0 => 0
  | .c1 => 1
  | .c2 => 2
  | .c1r1 => 1
  | .r1 => 0
  | .r2 => 0

/-- How many response bytes the block produces (R102). -/
def CommandFormat.responses : CommandFormat → Nat
  | .c0 => 0
  | .c1 => 0
  | .c2 => 0
  | .c1r1 => 1
  | .r1 => 1
  | .r2 => 2

/-- The length of a command in bytes, from the opcode byte alone (R109). -/
def commandLength (m : OpcodeMap) (opcode : Byte) : Nat :=
  1 + (classify m opcode).format.params

/-- Reads the instruction at the head of a byte stream; the bytes after the opcode are left to be consumed as
parameters. Only the empty stream names no instruction. -/
def decodeBytes (m : OpcodeMap) : List Byte → Option (Instr × List Byte)
  | [] => none
  | b :: rest => some (decodeCommand m b, rest)

/-- Cuts one whole command off a byte stream: the instruction, its parameter bytes in the order written, and
the rest. `none` where the stream ends inside the command (R109). -/
def takeCommand (m : OpcodeMap) : List Byte → Option (Instr × List Byte × List Byte)
  | [] => none
  | b :: rest =>
    let k := (classify m b).format.params
    if k ≤ rest.length then some (decodeCommand m b, rest.take k, rest.drop k) else none

/-! ### Bus accesses (R101, R245) -/

/-- Why a bus access is no operation of the block (R245). -/
inductive AccessReject where
  /-- The access is not one byte wide. -/
  | notOneByte
  /-- A read of the write-only Reset port. -/
  | readOfResetPort
  /-- A write to the read-only Read port. -/
  | writeToReadPort
  /-- A write to the read-only Read-status port. -/
  | writeToReadStatusPort
  /-- No port of the block lies at the offset. -/
  | noPortHere
deriving DecidableEq, Repr

/-- The port operation a bus access selects. A read at the Write port's offset is the Write-status port and a
write at the Write-status port's offset is the Write port wherever the map lets them share it (R245). -/
def decodePort (p : PortMap) (a : BusAccess) : Except AccessReject Instr :=
  if a.width ≠ 1 then .error .notOneByte
  else
    match a.dir with
    | .read =>
      if a.offset = p.read then .ok .portReadRd
      else if a.offset = p.writeStatus then .ok .portWstatusRd
      else if a.offset = p.readStatus then .ok .portRstatusRd
      else if a.offset = p.reset then .error .readOfResetPort
      else .error .noPortHere
    | .write =>
      if a.offset = p.reset then .ok (.portResetWr a.data)
      else if a.offset = p.write then .ok (.portWriteWr a.data)
      else if a.offset = p.read then .error .writeToReadPort
      else if a.offset = p.readStatus then .error .writeToReadStatusPort
      else .error .noPortHere

/-- The operation a stimulus starts (R122: the port operations by the bus, the others by signals). -/
def decodeStimulus (p : PortMap) (st : Stimulus) : Except AccessReject Instr :=
  match st with
  | .powerOn => .ok .por
  | .bus a => decodePort p a
  | .protocol ph => .ok (.pstep (.phase ph))
  | .mixer ph => .ok (.frame (.phase ph))
  | .paceFires => .ok .paceEvent
  | .dmaCompletes b => .ok (.dmaDone b)

/-! ### Encoders -/

/-- How an operation is selected from outside (R100, R122). -/
inductive Selector where
  /-- An opcode byte of the command stream. -/
  | opcode (b : Byte)
  /-- A stimulus of an agent. -/
  | stimulus (st : Stimulus)
deriving DecidableEq, Repr

/-- A one-byte bus write. -/
def busWrite (offset : Nat) (v : Byte) : BusAccess :=
  { dir := .write, offset := offset, width := 1, data := v }

/-- A one-byte bus read. -/
def busRead (offset : Nat) : BusAccess :=
  { dir := .read, offset := offset, width := 1, data := 0 }

/-- The selector of an operation. The procedures, and the two whole operations of the Poll agent, which are
three atomic steps each, have none (R122). -/
def encode (m : OpcodeMap) (p : PortMap) (i : Instr) : Option Selector :=
  match i with
  | .cmdDmaSingle => some (.opcode m.dmaSingle)
  | .cmdDmaAuto => some (.opcode m.dmaAuto)
  | .cmdSetTimeConstant => some (.opcode m.setTimeConstant)
  | .cmdSetBlockSize => some (.opcode m.setBlockSize)
  | .cmdDmaHsAuto => some (.opcode m.dmaHsAuto)
  | .cmdDmaHsSingle => some (.opcode m.dmaHsSingle)
  | .cmdDmaPause => some (.opcode m.dmaPause)
  | .cmdSpeakerOn => some (.opcode m.speakerOn)
  | .cmdSpeakerOff => some (.opcode m.speakerOff)
  | .cmdDmaResume => some (.opcode m.dmaResume)
  | .cmdIdentify => some (.opcode m.identify)
  | .cmdGetVersion => some (.opcode m.getVersion)
  | .cmdWriteTest => some (.opcode m.writeTest)
  | .cmdReadTest => some (.opcode m.readTest)
  | .cmdTriggerIrq => some (.opcode m.triggerIrq)
  | .cmdIdleZero => some (.opcode 0)
  | .cmdUnknown opcode => some (.opcode opcode)
  | .portResetWr v => some (.stimulus (.bus (busWrite p.reset v)))
  | .portReadRd => some (.stimulus (.bus (busRead p.read)))
  | .portWriteWr v => some (.stimulus (.bus (busWrite p.write v)))
  | .portWstatusRd => some (.stimulus (.bus (busRead p.writeStatus)))
  | .portRstatusRd => some (.stimulus (.bus (busRead p.readStatus)))
  | .por => some (.stimulus .powerOn)
  | .pstep .whole => none
  | .pstep (.phase ph) => some (.stimulus (.protocol ph))
  | .frame (.whole _) => none
  | .frame (.phase ph) => some (.stimulus (.mixer ph))
  | .paceEvent => some (.stimulus .paceFires)
  | .dmaDone b => some (.stimulus (.dmaCompletes b))
  | .fifoLevel => none
  | .fifoPush _ => none
  | .fifoPopInto _ => none
  | .fifoClear => none
  | .fifoHalf => none
  | .paceEnable => none
  | .paceDisable => none
  | .output _ => none
  | .consumeParam => none

/-- The operation a selector names: an opcode is taken by the command machine, a stimulus by the interface. -/
def decode (m : OpcodeMap) (p : PortMap) (w : Selector) : Except AccessReject Instr :=
  match w with
  | .opcode b => .ok (decodeCommand m b)
  | .stimulus st => decodeStimulus p st

/-- The bytes of a whole command: its opcode and its parameter bytes (R102). -/
def encodeCommand (m : OpcodeMap) (p : PortMap) (i : Instr) (params : List Byte) : Option (List Byte) :=
  match encode m p i with
  | some (.opcode b) => if params.length = (classify m b).format.params then some (b :: params) else none
  | some (.stimulus _) => none
  | none => none

/-! ### Words as the opcode table numbers them -/

/-- The first `k` bytes of a word, the least significant first: the order in which the host writes them. -/
def bytesOfWord : Nat → Nat → List Byte
  | 0, _ => []
  | k + 1, w => BitVec.ofNat 8 w :: bytesOfWord k (w / 256)

/-- The instruction read from a word of `nbits` bits, by the default opcodes. -/
def decodeTableWord (nbits w : Nat) : Option Instr :=
  (decodeBytes defaultOpcodes (bytesOfWord ((nbits + 7) / 8) w)).map Prod.fst

end Sys2Proof
end

