-- ==== Sys2Proof/Machine/State.lean ====
section
/-! DEFINITION. The state of the block (R20 to R41), the reasons a step can stop, and the state after power-on. -/

namespace Sys2Proof.Machine

/-- The reasons a step can fault. There are none: "No condition in this subsystem is fatal to the process"
(R260), and nothing halts (R265). -/
inductive Fault where
deriving DecidableEq, Repr

/-- The reasons a step can be refused. -/
inductive Refusal where
  /-- Raised by an arm of `exec` whose instruction has no meaning yet; no arm raises it. Safe: the model stops
  where the hardware goes on. -/
  | notModelled (mnemonic : String)
deriving DecidableEq, Repr

/-- The codes of the diagnostic channel (R260). -/
inductive Diag where
  /-- `DIAG_OVERRUN`, code 1 (R261). -/
  | overrun
  /-- `DIAG_PROTO_OVERWRITE`, code 2 (R262). -/
  | protoOverwrite
deriving DecidableEq, Repr

/-- The code number of a diagnostic (R261, R262). -/
def Diag.code : Diag → Nat
  | .overrun => 1
  | .protoOverwrite => 2

/-- Where the Poll agent stands (R41). -/
inductive PollOp where
  | idle
  | p2Next
  | p3Next
  | f2Next
  | f3Next
deriving DecidableEq, Repr

/-- What the last operation with an answer returned: the value after `->` in R120. The model's own record; no
rule reads it. -/
inductive Answer where
  /-- Nothing has answered yet. -/
  | none
  /-- A port read or `ConsumeParam` returned this byte. -/
  | byte (v : Byte)
  /-- `FIFO_LEVEL` returned this number. -/
  | number (k : Nat)
  /-- `FIFO_HALF` returned this truth value. -/
  | truth (b : Bool)
  /-- `FIFO_POP_INTO` copied these bytes; their number is the count it returns. -/
  | bytes (bs : List Byte)
  /-- The operation was offered while it was not enabled, so it did not happen (R84, R86). -/
  | notEnabled
deriving DecidableEq, Repr

/-- The state of the block. The docstring of a field gives the spec's name and rule. -/
structure State where
  /-- `inbox` (R22). -/
  inbox : Byte
  /-- `outbox` (R23). -/
  outbox : Byte
  /-- `dav_pc` (R24). -/
  davPc : Bool
  /-- `dav_dsp` (R24). -/
  davDsp : Bool
  /-- `dsp_busy` (R25). -/
  dspBusy : Bool
  /-- `current_command`, 0 in `Idle` (R26). -/
  currentCommand : Byte
  /-- `current_command_index` (R26). -/
  currentCommandIndex : BitVec 8
  /-- `test_register` (R27). -/
  testRegister : Byte
  /-- `dma_interval`, microseconds (R28). -/
  dmaInterval : BitVec 16
  /-- `dma_interval_trim`, two's complement (R28). -/
  dmaIntervalTrim : BitVec 16
  /-- `dma_block_size` (R29). -/
  dmaBlockSize : BitVec 16
  /-- `dma_sample_count` (R30). -/
  dmaSampleCount : BitVec 16
  /-- `dma_sample_count_rx` (R30). -/
  dmaSampleCountRx : BitVec 32
  /-- `time_constant` (R31). -/
  timeConstant : Byte
  /-- `sample_rate` in Hz (R31). -/
  sampleRate : BitVec 20
  /-- `sample_step`, 16 fractional bits (R31). -/
  sampleStep : BitVec 40
  /-- `sample_factor` (R31). -/
  sampleFactor : BitVec 16
  /-- `sample_offset`, 16 fractional bits (R32). -/
  sampleOffset : BitVec 64
  /-- `autoinit` (R33). -/
  autoinit : Bool
  /-- `dma_enabled` (R33). -/
  dmaEnabled : Bool
  /-- `reset_state`: false running, true reset asserted (R34). -/
  resetState : Bool
  /-- `fifo[0..1023]`: the bytes written since power-on, by rising address (R35, R72). -/
  fifo : List Host.Cell
  /-- `head` (R35). -/
  head : Index
  /-- `tail` (R35). -/
  tail : Index
  /-- `count` of the frame last delivered (R36). -/
  frameCount : Nat
  /-- `frame[0 .. 2*count-1]` of the frame last delivered, left then right (R36). -/
  frame : List Sample
  /-- `irq`, the level of the host interrupt line (R37). -/
  irq : Bool
  /-- `pace_pending`: the delay given to `Schedule`, in microseconds (R38). -/
  pacePending : Option Int
  /-- `dma_req` (R39). -/
  dmaReq : Bool
  /-- `diag_log`, oldest first (R40). -/
  diagLog : List Diag
  /-- `irq_assert_count`, the optional counter of `AssertIrq()` calls (R268). -/
  irqAssertCount : Nat
  /-- `poll_op` (R41). -/
  pollOp : PollOp
  /-- `pull_armed` (R41). -/
  pullArmed : Bool
  /-- `n`, the bytes the current frame pulled (R41). -/
  n : Fin 5
  /-- `buf[0..3]` (R41, R73). -/
  buf : Vector Byte 4
  /-- `wait_polls` (R41). -/
  waitPolls : Nat
  /-- The parameters of the instance (R8). No operation writes them. -/
  params : Params
  /-- The model's own: the atomic steps loaded for the agents, next first (log 8). -/
  script : List Stimulus
  /-- The model's own: how many free values have been drawn (log 8). -/
  draws : Nat
  /-- The model's own: what the last operation with an answer returned (log 10). -/
  answer : Answer
deriving DecidableEq, Repr

/-- The instance that powers on: the open parameters free (U1, U2), the others at the spec's defaults. -/
def initialParams : Params where
  outputRate := Config.outputRate
  versionMajor := Config.dspVersionMajor
  versionMinor := Config.dspVersionMinor
  opcodes := defaultOpcodes
  ports := defaultPorts
  mixWaitLimit := none

/-- The POR column of R21 (R290). -/
def State.reset : State where
  inbox := 0
  outbox := 0
  davPc := false
  davDsp := false
  dspBusy := false
  currentCommand := 0
  currentCommandIndex := 0
  testRegister := 0
  dmaInterval := 0
  dmaIntervalTrim := 0
  dmaBlockSize := 0
  dmaSampleCount := 0
  dmaSampleCountRx := 0
  timeConstant := 0
  sampleRate := 0
  sampleStep := 0
  sampleFactor := 0
  sampleOffset := 0
  autoinit := false
  dmaEnabled := false
  resetState := false
  fifo := []
  head := 0
  tail := 0
  frameCount := 0
  frame := []
  irq := false
  pacePending := none
  dmaReq := false
  diagLog := []
  irqAssertCount := 0
  pollOp := .idle
  pullArmed := false
  n := 0
  buf := #v[0, 0, 0, 0]
  waitPolls := 0
  params := initialParams
  script := []
  draws := 0
  answer := .none

end Sys2Proof.Machine
end

