-- ==== Sys2Proof/Machine/Memory.lean ====
section
/-! DEFINITION. Byte storage as a list of written cells in one canonical form: addresses strictly rising, all in
0..1023. An unlisted address holds no known byte (U6). -/

namespace Sys2Proof.Machine

/-- The canonical form: addresses strictly rising and below `FIFO_CAPACITY`. An unlisted address reads as no
value, so no listed cell can equal it. -/
abbrev Memory.wf (m : List Host.Cell) : Prop :=
  m.Pairwise (fun c d => c.1 < d.1) ∧ ∀ c ∈ m, c.1 < Config.fifoCapacity

/-- The byte written last at an address, `none` where nothing has been written since power-on. -/
def Memory.read : List Host.Cell → Nat → Option Byte
  | [], _ => none
  | (a, v) :: rest, x => if x = a then some v else Memory.read rest x

/-- Stores a byte at an address and keeps the addresses rising. -/
def Memory.write : List Host.Cell → Nat → Byte → List Host.Cell
  | [], x, v => [(x, v)]
  | (a, w) :: rest, x, v =>
    if x < a then (x, v) :: (a, w) :: rest
    else if x = a then (x, v) :: rest
    else (a, w) :: Memory.write rest x v

end Sys2Proof.Machine
end

