-- ==== Sys2Proof/Machine/Operands.lean ====
section
/-! DEFINITION. Operand forms and exact arithmetic: 16-bit parameter assembly (R103), the four formulas of Set
Time Constant (R182), PCM conversion (R214), fixed-point position (R32), the resampling loop (R213) and the
additive mix (R216). -/

namespace Sys2Proof.Machine

/-- The first parameter byte of a 16-bit operand: bits 15:8 cleared (R184 line 4, R185 line 4). -/
def lowParam (v : Byte) : BitVec 16 := v.setWidth 16

/-- The second parameter byte: `{v, r[7:0]}` (R184 line 7, R185 line 7). -/
def highParam (v : Byte) (r : BitVec 16) : BitVec 16 := v ++ r.extractLsb' 0 8

/-- `div(1000000, 256 - v)` (R182 line 4). -/
def rateOf (v : Byte) : Nat := Config.usPerSecond / (Config.tcBase - v.toNat)

/-- `div(1000000, sample_rate)` (R182 line 5). -/
def intervalOf (sampleRate : Nat) : Nat := Config.usPerSecond / sampleRate

/-- `div(sample_rate * 65536, OUTPUT_RATE)` (R182 line 6). -/
def stepOf (sampleRate outputRate : Nat) : Nat := sampleRate * 2 ^ Config.fracBits / outputRate

/-- `div(OUTPUT_RATE, sample_rate) + 5` (R182 line 7). -/
def factorOf (sampleRate outputRate : Nat) : Nat := outputRate / sampleRate + Config.factorMargin

/-- The signed delay `dma_interval + dma_interval_trim` (R157). -/
def trimmedDelay (interval trim : BitVec 16) : Int := interval.toNat + trim.toInt

/-- `(b - 128) * 256` as a signed 16-bit sample (R214). -/
def pcm (b : Byte) : Sample := BitVec.ofInt 16 ((b.toNat - Config.pcmBias) * Config.pcmScale)

/-- `sample_offset >> 16`, 48 bits (R32). -/
def wholePart (offset : BitVec 64) : BitVec 48 := offset.extractLsb' Config.fracBits 48

/-- The loop of R213: the primary samples in order, one entry for both channels, and `sample_offset` after the
last one. The first argument is what is left of `limit`. -/
def resample (buf : Vector Byte 4) (n : Fin 5) (start : BitVec 48) (step : BitVec 64) :
    Nat → BitVec 64 → List Sample × BitVec 64
  | 0, offset => ([], offset)
  | left + 1, offset =>
    let idx := (wholePart offset - start).toNat
    if h : idx < n.val then
      let rest := resample buf n start step left (offset + step)
      (pcm (buf[idx]'(by omega)) :: rest.1, rest.2)
    else ([], offset)

/-- One silent sample where the loop produced none (R215). -/
def orSilence : List Sample → List Sample
  | [] => [0]
  | s :: rest => s :: rest

/-- The mono stream on both channels, left then right (R213 lines 9 and 10). -/
def stereo : List Sample → List Sample
  | [] => []
  | s :: rest => s :: s :: stereo rest

/-- The first `k` values of the secondary stream, zeros beyond its end (R120, R281). -/
def secondaryFill : Nat → List Sample → List Sample
  | 0, _ => []
  | k + 1, [] => 0 :: secondaryFill k []
  | k + 1, x :: rest => x :: secondaryFill k rest

/-- `frame[k] <- wrap16(frame[k] + sec[k])` for every `k` (R216): no clamping. -/
def mix (primary sec : List Sample) : List Sample := List.zipWith (· + ·) primary sec

/-- `dst[0..count-1]` overwritten by the bytes copied, the entries after them unchanged (R134). -/
def overlay (dst : Vector Byte 4) (bs : List Byte) : Vector Byte 4 :=
  #v[bs.getD 0 dst[0], bs.getD 1 dst[1], bs.getD 2 dst[2], bs.getD 3 dst[3]]

end Sys2Proof.Machine
end

