-- ==== Sys2Proof/Machine/Flags.lean ====
section
/-! DEFINITION. The host-visible flags and the predicates computed on demand (R43): the two status bytes (R110)
and the FIFO's level, full and half-full. -/

namespace Sys2Proof.Machine

/-- A status byte: the flag in bit 7, bits 6:0 zero (R110). -/
def statusByte (flag : Bool) : Byte := if flag then 0x80 else 0

/-- The Write-status byte: busy or data pending (R110, R243). -/
def writeStatus (s : State) : Byte := statusByte (s.davDsp || s.dspBusy)

/-- The Read-status byte (R110, R244). -/
def readStatus (s : State) : Byte := statusByte s.davPc

/-- `FIFO_LEVEL()`: `(tail - head) mod 1024` (R131). -/
def fifoLevel (s : State) : Nat := (s.tail - s.head).toNat

/-- The FIFO is full: one more push would make `tail = head` (R132). -/
def fifoFull (s : State) : Bool := fifoLevel s == Config.fifoCapacity - 1

/-- `FIFO_HALF()` (R136). -/
def fifoHalf (s : State) : Bool := decide (Config.fifoHalf ≤ fifoLevel s)

end Sys2Proof.Machine
end

