-- ==== Sys2Proof/Machine/Ops.lean ====
section
/-! DEFINITION. The named operations over the state: diagnostics, collaborators, FIFO, pacing, command helpers.
The block has no trap of its own: raising a diagnostic is its one exceptional operation, it saves nothing and
returns to the next line (R260, R271, R272). -/

namespace Sys2Proof.Machine

/-! ### Diagnostics and collaborators (R13) -/

/-- `raise Diag(code)`: appended to `diag_log`, and execution goes on (R260). -/
def raiseDiag (d : Diag) (s : State) : State := { s with diagLog := s.diagLog ++ [d] }

/-- `Schedule(d)`: replaces a pending event (R278). -/
def schedule (d : Int) (s : State) : State := { s with pacePending := some d }

/-- `Cancel()` (R278). -/
def cancel (s : State) : State := { s with pacePending := none }

/-- `AssertIrq()` (R279), with the call counted (R268). -/
def assertIrq (s : State) : State := { s with irq := true, irqAssertCount := s.irqAssertCount + 1 }

/-- `DeassertIrq()` (R279). -/
def deassertIrq (s : State) : State := { s with irq := false }

/-- `BeginTransfer()`: does not queue (R280). -/
def beginTransfer (s : State) : State := { s with dmaReq := true }

/-! ### The model's own record -/

/-- Records the value an operation returns. -/
def answerWith (a : Answer) (s : State) : State := { s with answer := a }

/-- An operation offered while it is not enabled does not happen (R84, R86). -/
def notEnabled (s : State) : State := answerWith .notEnabled s

/-! ### FIFO (R130) -/

/-- `MemRead(a, 1)` (R12, R72). A byte that nothing has written since power-on holds a free value (U6). -/
def fifoRead (s : State) (a : Nat) : Byte := (Memory.read s.fifo a).getD (Config.unwrittenFifoByte a)

/-- `MemWrite(a, 1, v)` (R12, R72). -/
def fifoWrite (a : Index) (v : Byte) (s : State) : State := { s with fifo := Memory.write s.fifo a.toNat v }

/-- `FIFO_PUSH(byte)` (R133). -/
def fifoPush (b : Byte) (s : State) : State :=
  let s1 := if fifoFull s then raiseDiag .overrun s else s
  let s2 := fifoWrite s1.tail b s1
  { s2 with tail := s2.tail + 1 }

/-- The `count` bytes from `head` on, oldest first (R134 line 3). -/
def fifoBytes (s : State) (count : Nat) : List Byte :=
  (List.range count).map (fun k => fifoRead s (s.head + BitVec.ofNat 10 k).toNat)

/-- How many bytes `FIFO_POP_INTO(dst, maxLen)` copies (R134 line 2). -/
def popCount (s : State) (maxLen : Nat) : Nat := min (fifoLevel s) maxLen

/-- `head <- (head + count) mod 1024` (R134 line 4). -/
def advanceHead (count : Nat) (s : State) : State := { s with head := s.head + BitVec.ofNat 10 count }

/-- `FIFO_POP_INTO(buf, maxLen)`: the copy into `buf` and the new `head` (R134). -/
def fifoPopInto (maxLen : Nat) (s : State) : State :=
  let count := popCount s maxLen
  advanceHead count { s with buf := overlay s.buf (fifoBytes s count) }

/-- `FIFO_CLEAR()` (R135). -/
def fifoClear (s : State) : State := { s with head := s.tail }

/-! ### Pacing (R151, R152) -/

/-- `PACE_ENABLE()`: nothing at all when pacing is enabled already (R151). -/
def paceEnable (s : State) : State :=
  if s.dmaEnabled then s
  else
    let s1 := fifoClear s
    let s2 := { s1 with dmaEnabled := true }
    schedule s2.dmaInterval.toNat s2

/-- `PACE_DISABLE()`: cancels first, then disables (R152). -/
def paceDisable (s : State) : State :=
  let s1 := cancel s
  { s1 with dmaEnabled := false }

/-- Arms the next pacing event after a completion (R155 lines 6 and 10). -/
def rearm (s : State) : State := schedule (trimmedDelay s.dmaInterval s.dmaIntervalTrim) s

/-! ### Command helpers -/

/-- `Output(v)`: does not test `dav_pc` (R175). -/
def outputByte (v : Byte) (s : State) : State :=
  let s1 := { s with outbox := v }
  { s1 with davPc := true }

/-- The state after `ConsumeParam()`, which returns `inbox` (R176). -/
def takeParam (s : State) : State :=
  let s1 := { s with davDsp := false }
  { s1 with currentCommandIndex := s1.currentCommandIndex + 1 }

/-- `current_command <- 0`: the command is complete. -/
def finishCommand (s : State) : State := { s with currentCommand := 0 }

/-- The latch of `P1`: `inbox` becomes the command in progress (R172 lines 4 to 6). -/
def latchCommand (s : State) : State :=
  { s with currentCommand := s.inbox, currentCommandIndex := 0, davDsp := false }

end Sys2Proof.Machine
end

