-- ==== Sys2Proof/Machine/Fifo.lean ====
section
/-! DEFINITION. The five FIFO procedures as operations of their own (R130 to R136). -/

namespace Sys2Proof.Machine

/-- `FIFO_LEVEL() -> lvl` (R131). -/
def execFifoLevel (s : State) : Host.Outcome State Fault Refusal := .next (answerWith (.number (fifoLevel s)) s)

/-- `FIFO_PUSH(byte)` (R133). -/
def execFifoPush (b : Byte) (s : State) : Host.Outcome State Fault Refusal := .next (fifoPush b s)

/-- `FIFO_POP_INTO(buf, max_len) -> count` (R134). The answer holds the bytes copied. -/
def execFifoPopInto (maxLen : Nat) (s : State) : Host.Outcome State Fault Refusal :=
  .next (answerWith (.bytes (fifoBytes s (popCount s maxLen))) (fifoPopInto maxLen s))

/-- `FIFO_CLEAR()` (R135). -/
def execFifoClear (s : State) : Host.Outcome State Fault Refusal := .next (fifoClear s)

/-- `FIFO_HALF() -> bool` (R136). -/
def execFifoHalf (s : State) : Host.Outcome State Fault Refusal := .next (answerWith (.truth (fifoHalf s)) s)

end Sys2Proof.Machine
end

