-- ==== Sys2Proof/Machine/Mixer.lean ====
section
/-! DEFINITION. The resampler and mixer: `FRAME` in its three phases (R211 to R219). -/

namespace Sys2Proof.Machine

/-- `F1`: samples the enable (R212). -/
def frameEntry (s : State) : State :=
  { s with pullArmed := s.dmaEnabled, n := 0, waitPolls := 0, pollOp := .f2Next }

/-- The failed polls have reached `MIX_WAIT_LIMIT`; never with the limit `INF` (R219). -/
def waitOver (s : State) : Bool :=
  match s.params.mixWaitLimit with
  | none => false
  | some limit => decide (limit ≤ s.waitPolls)

/-- The hold of `F2` is lifted: nothing to wait for, a byte is there, or the wait is over (R212 lines 5, 6). -/
def pullReady (s : State) : Bool := !s.pullArmed || decide (1 ≤ fifoLevel s) || waitOver s

/-- `n <- FIFO_POP_INTO(buf, 4)` (R212 line 7). -/
def pull (s : State) : State :=
  let s1 := fifoPopInto Config.pullMax s
  { s1 with n := ⟨min (fifoLevel s) 4, by omega⟩ }

/-- `F2` once its hold is lifted (R212 lines 5 to 8). -/
def framePull (s : State) : State :=
  let s1 := if s.pullArmed then pull s else s
  { s1 with pollOp := .f3Next }

/-- `F2` while it is held: one failed poll where the polls are counted, otherwise no step (R84, R219). -/
def failedPoll (s : State) : State :=
  match s.params.mixWaitLimit with
  | none => notEnabled s
  | some _ => { s with waitPolls := s.waitPolls + 1 }

/-- `Deliver(count, frame)` (R217, R282). -/
def deliver (count : Nat) (frame : List Sample) (s : State) : State :=
  { s with frameCount := count, frame := frame }

/-- The primary samples of a frame and `sample_offset` after them (R213). -/
def primarySamples (s : State) : List Sample × BitVec 64 :=
  if 0 < s.n.val then
    resample s.buf s.n (wholePart s.sampleOffset) (s.sampleStep.setWidth 64) (s.n.val * s.sampleFactor.toNat)
      s.sampleOffset
  else ([], s.sampleOffset)

/-- `F3`: resample, fall back to silence, mix, deliver (R213, R215, R216, R217). -/
def frameMix (sec : List Sample) (s : State) : State :=
  let produced := primarySamples s
  let samples := orSilence produced.1
  let s1 := { s with sampleOffset := produced.2 }
  let s2 := deliver samples.length (mix (stereo samples) (secondaryFill (2 * samples.length) sec)) s1
  { s2 with pollOp := .idle }

/-- One phase of a frame, where the Poll agent stands before it (R83, R84, R86). -/
def framePhase (ph : FramePhase) (s : State) : State :=
  match ph with
  | .f1 => if s.pollOp = .idle then frameEntry s else notEnabled s
  | .f2 => if s.pollOp = .f2Next then (if pullReady s then framePull s else failedPoll s) else notEnabled s
  | .f3 sec => if s.pollOp = .f3Next then frameMix sec s else notEnabled s

/-- The wait of an uninterrupted `F2`: every poll fails until the limit, since nobody else acts (R219). -/
def waitAlone (s : State) : State :=
  match s.params.mixWaitLimit with
  | none => s
  | some limit => if pullReady s then s else { s with waitPolls := limit }

/-- `F1; F2; F3` with nothing in between (R120, R211). With an empty FIFO and no wait limit it stays held before
`F2`, and the frame goes on phase by phase. -/
def wholeFrame (sec : List Sample) (s : State) : State :=
  if s.pollOp = .idle then
    let s1 := waitAlone (frameEntry s)
    if pullReady s1 then frameMix sec (framePull s1) else failedPoll s1
  else notEnabled s

/-- `FRAME`, whole or one phase (R120, R211). -/
def execFrame (part : FramePart) (s : State) : Host.Outcome State Fault Refusal :=
  .next (match part with
    | .whole sec => wholeFrame sec s
    | .phase ph => framePhase ph s)

end Sys2Proof.Machine
end

