-- ==== Sys2Proof/Machine/Pacing.lean ====
section
/-! DEFINITION. The DMA pacing loop: its two procedures and its two interrupt-context operations (R150 to R161). -/

namespace Sys2Proof.Machine

/-- `PACE_ENABLE()` (R151). -/
def execPaceEnable (s : State) : Host.Outcome State Fault Refusal := .next (paceEnable s)

/-- `PACE_DISABLE()` (R152). -/
def execPaceDisable (s : State) : Host.Outcome State Fault Refusal := .next (paceDisable s)

/-- The two-state trim: `+5` when the FIFO is at least half full, else `-5` (R153 line 3, R154). -/
def trimOf (half : Bool) : BitVec 16 := BitVec.ofInt 16 (if half then Config.trimStep else -Config.trimStep)

/-- The body of `PACE_EVENT` (R153). -/
def paceEvent (s : State) : State :=
  let s1 := cancel s
  if s1.dmaEnabled then beginTransfer { s1 with dmaIntervalTrim := trimOf (fifoHalf s1) }
  else s1

/-- `PACE_EVENT`, enabled only when an event is pending (R153). -/
def execPaceEvent (s : State) : Host.Outcome State Fault Refusal :=
  .next (if s.pacePending.isSome then paceEvent s else notEnabled s)

/-- The end of a block: loop or stop, and the interrupt in both branches (R155 lines 8 to 13). -/
def endBlock (s : State) : State :=
  assertIrq (if s.autoinit then rearm { s with dmaSampleCountRx := 0 } else paceDisable s)

/-- A completion while pacing is enabled: push, count, re-arm or end the block (R155 lines 3 to 13). -/
def acceptByte (b : Byte) (s : State) : State :=
  let s1 := fifoPush b s
  let s2 := { s1 with dmaSampleCountRx := s1.dmaSampleCountRx + 1 }
  if s2.dmaSampleCountRx.toNat ≤ s2.dmaSampleCount.toNat then rearm s2 else endBlock s2

/-- The body of `DMA_DONE(b)`; a completion while pacing is disabled is discarded (R155, R156). -/
def dmaDone (b : Byte) (s : State) : State :=
  let s1 := { s with dmaReq := false }
  if s1.dmaEnabled then acceptByte b s1 else s1

/-- `DMA_DONE(b)`, enabled only when a transfer is outstanding (R155). -/
def execDmaDone (b : Byte) (s : State) : Host.Outcome State Fault Refusal :=
  .next (if s.dmaReq then dmaDone b s else notEnabled s)

end Sys2Proof.Machine
end

