-- ==== Sys2Proof/Machine/Ports.lean ====
section
/-! DEFINITION. The five port operations of the host (R230 to R247) and the answer of the bus to an access that
is none of them (R245). -/

namespace Sys2Proof.Machine

/-- The Reset port's Assert (R231). -/
def resetAssert (s : State) : State :=
  let s1 := { s with autoinit := false }
  let s2 := paceDisable s1
  { s2 with resetState := true }

/-- The Reset port's Release from reset (R232). -/
def resetRelease (s : State) : State :=
  { s with
    resetState := false
    outbox := Config.resetReadyByte
    davPc := true
    currentCommand := 0
    currentCommandIndex := 0
    dmaBlockSize := Config.defaultBlockSize
    dmaSampleCount := 0
    dmaSampleCountRx := 0 }

/-- `PORT_RESET_WR v`: the whole byte is compared; a release while running and any other value do nothing
(R230 to R234). -/
def execPortResetWr (v : Byte) (s : State) : Host.Outcome State Fault Refusal :=
  .next (if v = 1 then resetAssert s else if v = 0 && s.resetState then resetRelease s else s)

/-- `PORT_READ_RD -> v`: the byte as it is, and `dav_pc` cleared (R241). -/
def execPortReadRd (s : State) : Host.Outcome State Fault Refusal :=
  .next (answerWith (.byte s.outbox) { s with davPc := false })

/-- `PORT_WRITE_WR v`: an overwrite is reported and the new byte wins (R242). -/
def execPortWriteWr (v : Byte) (s : State) : Host.Outcome State Fault Refusal :=
  let s1 := if s.davDsp then raiseDiag .protoOverwrite s else s
  .next { s1 with inbox := v, davDsp := true }

/-- `PORT_WSTATUS_RD -> v`: no side effect (R243). -/
def execPortWstatusRd (s : State) : Host.Outcome State Fault Refusal :=
  .next (answerWith (.byte (writeStatus s)) s)

/-- `PORT_RSTATUS_RD -> v`: the interrupt is acknowledged (R244). -/
def execPortRstatusRd (s : State) : Host.Outcome State Fault Refusal :=
  .next (answerWith (.byte (readStatus s)) (deassertIrq s))

/-- A bus access that is no operation of the block changes no state of it; such a read returns a free value
(R245, U12). -/
def unlistedAccess (dir : Direction) (s : State) : State :=
  match dir with
  | .read => { s with answer := .byte (Config.unlistedReadData s.draws), draws := s.draws + 1 }
  | .write => s

end Sys2Proof.Machine
end

