-- ==== Sys2Proof/Machine/Power.lean ====
section
/-! DEFINITION. Power-on (R290). -/

namespace Sys2Proof.Machine

/-- Every field of the block at its POR value. The instance keeps its parameters, and the inputs still to come
are not the block's. -/
def powerOn (s : State) : State :=
  { State.reset with params := s.params, script := s.script, draws := s.draws }

/-- `POR` (R290). -/
def execPor (s : State) : Host.Outcome State Fault Refusal := .next (powerOn s)

end Sys2Proof.Machine
end

