-- ==== Sys2Proof/Machine/Commands.lean ====
section
/-! DEFINITION. The commands: what phase `P2` does while `current_command` holds each opcode (R177 to R194).
A command with parameters takes at most one byte per protocol step and otherwise waits in its state. -/

namespace Sys2Proof.Machine

/-! ### Shared shapes -/

/-- A step that needs a parameter byte: with none pending the command waits in its state (R182 line 1). -/
def withParam (s : State) (body : Byte → State → State) : State :=
  if s.davDsp then body s.inbox (takeParam s) else s

/-- The start of a transfer of `dma_block_size` in the given mode (R179, R180, R181). -/
def startBlockTransfer (auto : Bool) (s : State) : State :=
  let s1 := { s with autoinit := auto }
  let s2 := { s1 with dmaSampleCount := s1.dmaBlockSize }
  finishCommand (paceEnable s2)

/-- The registers Set Time Constant derives from its byte (R182 lines 3 to 7). -/
def setTimeConstant (v : Byte) (s : State) : State :=
  let rate := rateOf v
  { s with
    timeConstant := v
    sampleRate := BitVec.ofNat 20 rate
    dmaInterval := BitVec.ofNat 16 (intervalOf rate)
    sampleStep := BitVec.ofNat 40 (stepOf rate s.params.outputRate)
    sampleFactor := BitVec.ofNat 16 (factorOf rate s.params.outputRate) }

/-! ### Transfers -/

/-- DMA Single: the target low byte, then the high byte and the start (R185). -/
def cmdDmaSingle (s : State) : State :=
  withParam s fun v t =>
    if s.currentCommandIndex = 0 then { t with dmaSampleCount := lowParam v }
    else
      let t1 := { t with dmaSampleCount := highParam v t.dmaSampleCount }
      let t2 := { t1 with dmaSampleCountRx := 0 }
      let t3 := { t2 with autoinit := false }
      finishCommand (paceEnable t3)

/-- `CMD_DMA_SINGLE` (R185). -/
def execCmdDmaSingle (s : State) : Host.Outcome State Fault Refusal := .next (cmdDmaSingle s)

/-- DMA Auto (R179). -/
def cmdDmaAuto (s : State) : State := startBlockTransfer true s

/-- `CMD_DMA_AUTO` (R179). -/
def execCmdDmaAuto (s : State) : Host.Outcome State Fault Refusal := .next (cmdDmaAuto s)

/-- DMA High-Speed Auto (R180). -/
def cmdDmaHsAuto (s : State) : State := startBlockTransfer true s

/-- `CMD_DMA_HS_AUTO` (R180). -/
def execCmdDmaHsAuto (s : State) : Host.Outcome State Fault Refusal := .next (cmdDmaHsAuto s)

/-- DMA High-Speed Single (R181). -/
def cmdDmaHsSingle (s : State) : State := startBlockTransfer false s

/-- `CMD_DMA_HS_SINGLE` (R181). -/
def execCmdDmaHsSingle (s : State) : Host.Outcome State Fault Refusal := .next (cmdDmaHsSingle s)

/-- DMA Pause (R177). -/
def cmdDmaPause (s : State) : State := finishCommand (paceDisable s)

/-- `CMD_DMA_PAUSE` (R177). -/
def execCmdDmaPause (s : State) : Host.Outcome State Fault Refusal := .next (cmdDmaPause s)

/-- DMA Resume (R178). -/
def cmdDmaResume (s : State) : State := finishCommand (paceEnable s)

/-- `CMD_DMA_RESUME` (R178). -/
def execCmdDmaResume (s : State) : Host.Outcome State Fault Refusal := .next (cmdDmaResume s)

/-! ### Configuration -/

/-- Set Time Constant (R182). -/
def cmdSetTimeConstant (s : State) : State :=
  withParam s fun v t => finishCommand (setTimeConstant v t)

/-- `CMD_SET_TIME_CONSTANT` (R182). -/
def execCmdSetTimeConstant (s : State) : Host.Outcome State Fault Refusal := .next (cmdSetTimeConstant s)

/-- Set Block Size: the low byte, then the high byte (R184). -/
def cmdSetBlockSize (s : State) : State :=
  withParam s fun v t =>
    if s.currentCommandIndex = 0 then { t with dmaBlockSize := lowParam v }
    else finishCommand { t with dmaBlockSize := highParam v t.dmaBlockSize }

/-- `CMD_SET_BLOCK_SIZE` (R184). -/
def execCmdSetBlockSize (s : State) : Host.Outcome State Fault Refusal := .next (cmdSetBlockSize s)

/-! ### Responses and the test register -/

/-- Identify (R186). -/
def cmdIdentify (s : State) : State := withParam s fun v t => finishCommand (outputByte (~~~v) t)

/-- `CMD_IDENTIFY` (R186). -/
def execCmdIdentify (s : State) : Host.Outcome State Fault Refusal := .next (cmdIdentify s)

/-- Get Version: the major byte at once, the minor byte once the host has read (R187). -/
def cmdGetVersion (s : State) : State :=
  if s.currentCommandIndex = 0 then
    let s1 := outputByte s.params.versionMajor s
    { s1 with currentCommandIndex := 1 }
  else if s.davPc then s
  else finishCommand (outputByte s.params.versionMinor s)

/-- `CMD_GET_VERSION` (R187). -/
def execCmdGetVersion (s : State) : Host.Outcome State Fault Refusal := .next (cmdGetVersion s)

/-- Write Test Register (R188). -/
def cmdWriteTest (s : State) : State := withParam s fun v t => finishCommand { t with testRegister := v }

/-- `CMD_WRITE_TEST` (R188). -/
def execCmdWriteTest (s : State) : Host.Outcome State Fault Refusal := .next (cmdWriteTest s)

/-- Read Test Register (R189). -/
def cmdReadTest (s : State) : State := finishCommand (outputByte s.testRegister s)

/-- `CMD_READ_TEST` (R189). -/
def execCmdReadTest (s : State) : Host.Outcome State Fault Refusal := .next (cmdReadTest s)

/-! ### Interrupt, speaker, unknown, idle -/

/-- Trigger IRQ (R190). -/
def cmdTriggerIrq (s : State) : State := finishCommand (assertIrq s)

/-- `CMD_TRIGGER_IRQ` (R190). -/
def execCmdTriggerIrq (s : State) : Host.Outcome State Fault Refusal := .next (cmdTriggerIrq s)

/-- Enable Speaker: accepted, no functional effect (R191). -/
def cmdSpeakerOn (s : State) : State := finishCommand s

/-- `CMD_SPEAKER_ON` (R191). -/
def execCmdSpeakerOn (s : State) : Host.Outcome State Fault Refusal := .next (cmdSpeakerOn s)

/-- Disable Speaker: accepted, no functional effect (R192). -/
def cmdSpeakerOff (s : State) : State := finishCommand s

/-- `CMD_SPEAKER_OFF` (R192). -/
def execCmdSpeakerOff (s : State) : Host.Outcome State Fault Refusal := .next (cmdSpeakerOff s)

/-- An unknown opcode: silently discarded (R193, R263). -/
def cmdUnknown (_opcode : Byte) (s : State) : State := finishCommand s

/-- `CMD_UNKNOWN` (R193). -/
def execCmdUnknown (opcode : Byte) (s : State) : Host.Outcome State Fault Refusal := .next (cmdUnknown opcode s)

/-- `Idle`: nothing (R194). -/
def cmdIdleZero (s : State) : State := s

/-- Opcode byte 0x00 (R107, R194): the latch has taken it, and `P2` does nothing. -/
def execCmdIdleZero (s : State) : Host.Outcome State Fault Refusal := .next (cmdIdleZero s)

/-! ### Dispatch (R173) -/

/-- The rule `P2` runs for a command. -/
def runCommand (c : Command) (opcode : Byte) (s : State) : State :=
  match c with
  | .idle => cmdIdleZero s
  | .dmaPause => cmdDmaPause s
  | .dmaResume => cmdDmaResume s
  | .dmaAuto => cmdDmaAuto s
  | .dmaHsAuto => cmdDmaHsAuto s
  | .dmaHsSingle => cmdDmaHsSingle s
  | .setTimeConstant => cmdSetTimeConstant s
  | .setBlockSize => cmdSetBlockSize s
  | .dmaSingle => cmdDmaSingle s
  | .identify => cmdIdentify s
  | .getVersion => cmdGetVersion s
  | .writeTest => cmdWriteTest s
  | .readTest => cmdReadTest s
  | .triggerIrq => cmdTriggerIrq s
  | .speakerOn => cmdSpeakerOn s
  | .speakerOff => cmdSpeakerOff s
  | .unknown => cmdUnknown opcode s

end Sys2Proof.Machine
end

