-- ==== Sys2Proof/Machine/Protocol.lean ====
section
/-! DEFINITION. The protocol step `PSTEP` in its three phases (R171 to R174), and the two helper procedures of
the commands as operations of their own (R175, R176). -/

namespace Sys2Proof.Machine

/-- `P1`: in reset the step ends; otherwise busy, latch, and on to `P2` (R172). -/
def protocolEntry (s : State) : State :=
  if s.resetState then { s with pollOp := .idle }
  else
    let s1 := { s with dspBusy := true }
    let s2 := if s1.davDsp && s1.currentCommand == 0 then latchCommand s1 else s1
    { s2 with pollOp := .p2Next }

/-- `P2`: the rule selected by `current_command`, then on to `P3` (R173). -/
def protocolDispatch (s : State) : State :=
  let s1 := runCommand (classify s.params.opcodes s.currentCommand) s.currentCommand s
  { s1 with pollOp := .p3Next }

/-- `P3` (R174). -/
def protocolExit (s : State) : State :=
  let s1 := { s with dspBusy := false }
  { s1 with pollOp := .idle }

/-- One phase of a protocol step, where the Poll agent stands before it (R83, R86). -/
def protocolPhase (ph : PstepPhase) (s : State) : State :=
  match ph with
  | .p1 => if s.pollOp = .idle then protocolEntry s else notEnabled s
  | .p2 => if s.pollOp = .p2Next then protocolDispatch s else notEnabled s
  | .p3 => if s.pollOp = .p3Next then protocolExit s else notEnabled s

/-- `P1; P2; P3` with nothing in between; a step that finds reset asserted ends in `P1` (R83, R171). -/
def protocolStep (s : State) : State :=
  if s.pollOp = .idle then
    let s1 := protocolEntry s
    if s1.pollOp = .p2Next then protocolExit (protocolDispatch s1) else s1
  else notEnabled s

/-- `PSTEP`, whole or one phase (R120, R171). -/
def execPstep (part : PstepPart) (s : State) : Host.Outcome State Fault Refusal :=
  .next (match part with
    | .whole => protocolStep s
    | .phase ph => protocolPhase ph s)

/-- `Output(v)` (R175). -/
def execOutput (v : Byte) (s : State) : Host.Outcome State Fault Refusal := .next (outputByte v s)

/-- `ConsumeParam() -> v`, under its precondition `dav_dsp = 1` (R176). -/
def execConsumeParam (s : State) : Host.Outcome State Fault Refusal :=
  .next (if s.davDsp then answerWith (.byte s.inbox) (takeParam s) else notEnabled s)

end Sys2Proof.Machine
end

