-- ==== Sys2Proof/Machine/Dispatch.lean ====
section
/-! DEFINITION. One arm per row of the opcode table. -/

namespace Sys2Proof.Machine

/-- What an operation does to the state. -/
def exec (i : Instr) (s : State) : Host.Outcome State Fault Refusal :=
  match i with
  | .cmdDmaSingle => Sys2Proof.Machine.execCmdDmaSingle s
  | .cmdDmaAuto => Sys2Proof.Machine.execCmdDmaAuto s
  | .cmdSetTimeConstant => Sys2Proof.Machine.execCmdSetTimeConstant s
  | .cmdSetBlockSize => Sys2Proof.Machine.execCmdSetBlockSize s
  | .cmdDmaHsAuto => Sys2Proof.Machine.execCmdDmaHsAuto s
  | .cmdDmaHsSingle => Sys2Proof.Machine.execCmdDmaHsSingle s
  | .cmdDmaPause => Sys2Proof.Machine.execCmdDmaPause s
  | .cmdSpeakerOn => Sys2Proof.Machine.execCmdSpeakerOn s
  | .cmdSpeakerOff => Sys2Proof.Machine.execCmdSpeakerOff s
  | .cmdDmaResume => Sys2Proof.Machine.execCmdDmaResume s
  | .cmdIdentify => Sys2Proof.Machine.execCmdIdentify s
  | .cmdGetVersion => Sys2Proof.Machine.execCmdGetVersion s
  | .cmdWriteTest => Sys2Proof.Machine.execCmdWriteTest s
  | .cmdReadTest => Sys2Proof.Machine.execCmdReadTest s
  | .cmdTriggerIrq => Sys2Proof.Machine.execCmdTriggerIrq s
  | .cmdIdleZero => Sys2Proof.Machine.execCmdIdleZero s
  | .cmdUnknown opcode => Sys2Proof.Machine.execCmdUnknown opcode s
  | .portResetWr v => Sys2Proof.Machine.execPortResetWr v s
  | .portReadRd => Sys2Proof.Machine.execPortReadRd s
  | .portWriteWr v => Sys2Proof.Machine.execPortWriteWr v s
  | .portWstatusRd => Sys2Proof.Machine.execPortWstatusRd s
  | .portRstatusRd => Sys2Proof.Machine.execPortRstatusRd s
  | .por => Sys2Proof.Machine.execPor s
  | .pstep part => Sys2Proof.Machine.execPstep part s
  | .frame part => Sys2Proof.Machine.execFrame part s
  | .paceEvent => Sys2Proof.Machine.execPaceEvent s
  | .dmaDone b => Sys2Proof.Machine.execDmaDone b s
  | .fifoLevel => Sys2Proof.Machine.execFifoLevel s
  | .fifoPush b => Sys2Proof.Machine.execFifoPush b s
  | .fifoPopInto maxLen => Sys2Proof.Machine.execFifoPopInto maxLen s
  | .fifoClear => Sys2Proof.Machine.execFifoClear s
  | .fifoHalf => Sys2Proof.Machine.execFifoHalf s
  | .paceEnable => Sys2Proof.Machine.execPaceEnable s
  | .paceDisable => Sys2Proof.Machine.execPaceDisable s
  | .output v => Sys2Proof.Machine.execOutput v s
  | .consumeParam => Sys2Proof.Machine.execConsumeParam s

end Sys2Proof.Machine
end

