-- ==== Sys2Proof/Machine/Schedule.lean ====
section
/-! DEFINITION. Which atomic step comes next, and how a stimulus becomes an operation (R85, R86). The script is
what has been loaded for the agents; where it is empty the choice is free. -/

namespace Sys2Proof.Machine

/-- The next stimulus, and the state with it taken. -/
def takeStimulus (s : State) : Stimulus × State :=
  match s.script with
  | [] => (Config.schedule s.draws, { s with draws := s.draws + 1 })
  | st :: rest => (st, { s with script := rest })

/-- Runs the operation a stimulus starts; an access that is no operation leaves the block as it is (R245). -/
def runStimulus (st : Stimulus) (s : State) : Host.Outcome State Fault Refusal :=
  match decodeStimulus s.params.ports st, st with
  | .ok i, _ => exec i s
  | .error _, .bus a => .next (unlistedAccess a.dir s)
  | .error _, .powerOn => .next s
  | .error _, .protocol _ => .next s
  | .error _, .mixer _ => .next s
  | .error _, .paceFires => .next s
  | .error _, .dmaCompletes _ => .next s

/-- One atomic step of the total order. -/
def atomicStep (s : State) : Host.Outcome State Fault Refusal :=
  let next := takeStimulus s
  runStimulus next.1 next.2

/-- The state right after `P1` has latched an opcode byte, with `P2` as the next atomic step: the analogue of an
instruction fetched (R92, R172). -/
def latched (opcode : Byte) (s : State) : State :=
  { s with
    dspBusy := true
    currentCommand := opcode
    currentCommandIndex := 0
    pollOp := .p2Next
    script := .protocol .p2 :: s.script }

/-- The opcode byte of a table word: bits 7:0. -/
def opcodeOfWord (nbits w : Nat) : Byte := (bytesOfWord ((nbits + 7) / 8) w).headD 0

end Sys2Proof.Machine
end

