-- ==== Sys2Proof/Machine/Step.lean ====
section
/-! DEFINITION. The step of the machine, and where a table word is placed so that the next step runs it. -/

namespace Sys2Proof.Machine

/-- One atomic step of one agent (R85). -/
def step (s : State) : Host.Outcome State Fault Refusal := atomicStep s

/-- The word's opcode latched as the command in progress, and `P2` next (log 12). -/
def State.withFetchWord (s : State) (nbits w : Nat) : State := latched (opcodeOfWord nbits w) s

end Sys2Proof.Machine
end

