-- ==== Sys2Proof/Safety.lean ====
section
/-! DEFINITION. The terms the statements use: the invariant of R45, the queue the FIFO stands for, the permanent
stall, and the operations run one after another. -/

namespace Sys2Proof.Machine

/-- No Set Time Constant has run since power-on (R309): the registers it derives are 0. -/
def RatesUnset (s : State) : Prop :=
  s.sampleRate = 0 ∧ s.dmaInterval = 0 ∧ s.sampleStep = 0 ∧ s.sampleFactor = 0

/-- The derived registers hold what the formulas of R182 give for `time_constant`. -/
def RatesSet (s : State) : Prop :=
  s.sampleRate.toNat = 1000000 / (256 - s.timeConstant.toNat) ∧
  s.dmaInterval.toNat = 256 - s.timeConstant.toNat ∧
  s.sampleStep.toNat = s.sampleRate.toNat * 65536 / s.params.outputRate ∧
  s.sampleFactor.toNat = s.params.outputRate / s.sampleRate.toNat + 5

/-- A command that stays in progress across protocol steps (R45 item e). -/
def MultiStep (c : Command) : Prop :=
  c = .setTimeConstant ∨ c = .setBlockSize ∨ c = .dmaSingle ∨ c = .identify ∨ c = .getVersion ∨ c = .writeTest

/-- What R21, R35, R36 and R45 say of every state of the block after an atomic step. -/
structure Inv (s : State) : Prop where
  /-- The parameters meet their constraints (R9, R104). -/
  parameters : s.params.WellFormed
  /-- FIFO storage is in canonical form, inside 0..1023 (R72). -/
  storage : Memory.wf s.fifo
  /-- Every byte a pop can read has been written since power-on (R35). -/
  window : ∀ k, k < fifoLevel s → ∃ v, Memory.read s.fifo (s.head + BitVec.ofNat 10 k).toNat = some v
  /-- The trim is -5, 0 or +5 (R45 item b). -/
  trim : s.dmaIntervalTrim.toInt = -5 ∨ s.dmaIntervalTrim.toInt = 0 ∨ s.dmaIntervalTrim.toInt = 5
  /-- The derived registers are all 0 or belong to `time_constant` (R31, R182). -/
  rates : RatesUnset s ∨ RatesSet s
  /-- A pending pacing event means that pacing is enabled (R45 item c). -/
  pendingEnabled : s.pacePending ≠ none → s.dmaEnabled = true
  /-- A pending delay is in -5..261 (R21). -/
  pendingRange : ∀ d, s.pacePending = some d → -5 ≤ d ∧ d ≤ 261
  /-- `dsp_busy` is set exactly inside a protocol step (R45 item f). -/
  busy : s.dspBusy = true ↔ s.pollOp = .p2Next ∨ s.pollOp = .p3Next
  /-- Outside `P2` the machine is `Idle` or in a command that needs several steps (R45 item e). -/
  command : s.pollOp = .p2Next ∨ s.currentCommand = 0 ∨ MultiStep (classify s.params.opcodes s.currentCommand)
  /-- `current_command_index` is 0, 1 or 2, and 2 only when the command is complete (R21, R26). -/
  index : s.currentCommandIndex.toNat ≤ 2 ∧ (s.currentCommand ≠ 0 → s.currentCommandIndex.toNat ≤ 1)
  /-- The delivered frame has two values for each of its at most 1075 samples (R36, R218). -/
  frameSize : s.frame.length = 2 * s.frameCount ∧ s.frameCount ≤ 1075
  /-- The failed polls counted never exceed a finite limit (R219). -/
  polls : ∀ limit, s.params.mixWaitLimit = some limit → s.waitPolls ≤ limit

/-- The bytes waiting in the FIFO, oldest first: the queue the ring stands for (R134, R137). -/
def fifoContents (s : State) : List Byte := fifoBytes s (fifoLevel s)

/-- The Poll agent is held in `F2` with nothing that could release it (R264, R308). -/
structure Stalled (s : State) : Prop where
  held : s.pollOp = .f2Next
  armed : s.pullArmed = true
  empty : s.head = s.tail
  unbounded : s.params.mixWaitLimit = none
  disabled : s.dmaEnabled = false

/-- The state without the fields that no rule of the block reads: the diagnostic record (R40), `sample_rate` and
`time_constant` (R31), the frame handed over (R36), the counter of `AssertIrq()` calls (R268) and the model's
record of the last answer. -/
def withoutUnread (s : State) : State :=
  { s with
    diagLog := []
    sampleRate := 0
    timeConstant := 0
    frame := []
    frameCount := 0
    irqAssertCount := 0
    answer := .none }

/-- Operations run one after another, stopping at the first that gives no next state. -/
def runOps : List Instr → State → Host.Outcome State Fault Refusal
  | [], s => .next s
  | i :: rest, s =>
    match exec i s with
    | .next t => runOps rest t
    | .fault r => .fault r
    | .refused r => .refused r

/-- A host that writes each byte of a command and lets one protocol step run after it (`CMD` in R121). -/
def commandOps : List Byte → List Instr
  | [] => []
  | b :: rest => .portWriteWr b :: .pstep .whole :: commandOps rest

/-- The laps of the pacing loop that bring these bytes (`XFER` in R121). -/
def lapOps : List Byte → List Instr
  | [] => []
  | b :: rest => .paceEvent :: .dmaDone b :: lapOps rest

/-- The position of output sample `j` of a frame, relative to the frame's start (R213 line 6). -/
def sourceIndex (s : State) (j : Nat) : Nat :=
  ((s.sampleOffset.toNat + j * s.sampleStep.toNat) % 2 ^ 64 / 65536 + 2 ^ 48 - s.sampleOffset.toNat / 65536) % 2 ^ 48

end Sys2Proof.Machine
end

