-- ==== Sys2Proof/Certificates/Slice0/Obligations.lean ====
section
/-! DEFINITION. The statements for the provers. -/

open Sys2Proof Sys2Proof.Machine

/-! ### Encodings -/

/-- The opcode bytes of the default map, written out, name their commands. (Identify's number is the source's; the
others are the spec's defaults from general knowledge, log 3.) -/
def Obligations.DefaultOpcodeBytesNameTheirCommands : Prop :=
  ([0x14, 0x1C, 0x40, 0x48, 0x90, 0x91, 0xD0, 0xD1, 0xD3, 0xD4, 0xE0, 0xE1, 0xE4, 0xE8, 0xF2, 0x00] : List Nat).map
      (decodeTableWord 8) =
    [some .cmdDmaSingle, some .cmdDmaAuto, some .cmdSetTimeConstant, some .cmdSetBlockSize, some .cmdDmaHsAuto,
      some .cmdDmaHsSingle, some .cmdDmaPause, some .cmdSpeakerOn, some .cmdSpeakerOff, some .cmdDmaResume,
      some .cmdIdentify, some .cmdGetVersion, some .cmdWriteTest, some .cmdReadTest, some .cmdTriggerIrq,
      some .cmdIdleZero]

/-- Decode and encode agree on every well-formed operation that has a selector, whatever the opcode map and the
port offsets. -/
def Obligations.DecodeOfEncodeIsTheOperation : Prop :=
  ∀ (m : OpcodeMap) (p : PortMap) (i : Instr) (w : Selector), m.WellFormed → p.WellFormed →
    i.wellFormed m = true → encode m p i = some w → decode m p w = .ok i

/-- R104, R106: every opcode byte names exactly one well-formed command, whose encoding is that byte; a byte that
is neither 0x00 nor recognised names the unknown command. -/
def Obligations.EveryOpcodeByteNamesOneCommand : Prop :=
  ∀ (m : OpcodeMap) (p : PortMap) (b : Byte), m.WellFormed →
    (decodeCommand m b).wellFormed m = true ∧ encode m p (decodeCommand m b) = some (.opcode b) ∧
    (b ≠ 0 → b ∉ m.values → decodeCommand m b = .cmdUnknown b)

/-- R102, R104, R109: Set Block Size and DMA Single have two parameter bytes, Set Time Constant, Write Test Register
and Identify one, every other command none. An opcode with that many parameter bytes is a whole command, and no other
number makes one; a whole command is cut off a byte stream by its opcode alone, with exactly its parameter bytes. -/
def Obligations.CommandStreamSplitsByOpcodeAlone : Prop :=
  ∀ (m : OpcodeMap) (p : PortMap) (i : Instr) (opcode : Byte) (params rest : List Byte) (count : Nat), m.WellFormed →
    i.wellFormed m = true → encode m p i = some (.opcode opcode) →
    count = (if i ∈ [.cmdSetBlockSize, .cmdDmaSingle] then 2
      else if i ∈ [.cmdSetTimeConstant, .cmdWriteTest, .cmdIdentify] then 1 else 0) →
    commandLength m opcode = 1 + count ∧
    (params.length = count → encodeCommand m p i params = some (opcode :: params) ∧
      takeCommand m (opcode :: params ++ rest) = some (i, params, rest)) ∧
    (params.length ≠ count → encodeCommand m p i params = none) ∧
    (params.length < count → takeCommand m (opcode :: params) = none)

/-- R245: an access the port table does not list changes no state of the block. (That a read of one returns a free
value and records it in `answer` is the model's, log 15.) (The spec marks R245 as its decision D16.) -/
def Obligations.UnlistedAccessChangesNoState : Prop :=
  ∀ (s : State) (a : BusAccess) (rest : List Stimulus), s.script = .bus a :: rest →
    (a.width ≠ 1 ∨ (a.dir = .read ∧ a.offset ∉ [s.params.ports.read, s.params.ports.writeStatus, s.params.ports.readStatus]) ∨
      (a.dir = .write ∧ a.offset ∉ [s.params.ports.reset, s.params.ports.write])) →
    ∃ t, step s = .next t ∧ { t with script := s.script, draws := s.draws, answer := s.answer } = s

/-! ### The FIFO -/

/-- R131 and R136: the level is `(tail - head) mod 1024`, and half-full means at least 512. (That the returned value
stands in `answer` is the model's choice, log 10.) -/
def Obligations.FifoLevelAndHalfFromTheIndices : Prop :=
  ∀ s : State,
    exec .fifoLevel s = .next { s with answer := .number ((s.tail.toNat + 1024 - s.head.toNat) % 1024) } ∧
    exec .fifoHalf s =
      .next { s with answer := .truth (decide (512 ≤ (s.tail.toNat + 1024 - s.head.toNat) % 1024)) }

/-- R133: the byte is stored at `tail`, `tail` moves on, a full FIFO is reported, and nothing else changes. -/
def Obligations.FifoPushStoresAtTheTail : Prop :=
  ∀ (s : State) (b : Byte), Memory.wf s.fifo → ∃ t, exec (.fifoPush b) s = .next t ∧
    t = { s with
      fifo := t.fifo
      tail := s.tail + 1
      diagLog := if (s.tail.toNat + 1024 - s.head.toNat) % 1024 = 1023 then s.diagLog ++ [.overrun] else s.diagLog } ∧
    fifoRead t s.tail.toNat = b ∧ (∀ a, a ≠ s.tail.toNat → fifoRead t a = fifoRead s a) ∧ Memory.wf t.fifo

/-- R134: the oldest bytes go to the destination in order, `head` moves on by their number, the entries after them are
unchanged, and nothing else changes but the model's record of the answer. (The spec derives line 4, the new `head`;
the answer is the model's record, log 10.) -/
def Obligations.FifoPopCopiesTheOldestBytes : Prop :=
  ∀ (s : State) (maxLen count : Nat), maxLen ≤ 4 → count = min ((s.tail.toNat + 1024 - s.head.toNat) % 1024) maxLen →
    ∃ (t : State) (bs : List Byte), exec (.fifoPopInto maxLen) s = .next t ∧
      t = { s with head := BitVec.ofNat 10 (s.head.toNat + count), buf := t.buf, answer := .bytes bs } ∧
      bs.length = count ∧
      (∀ k : Fin 4, k.val < count → t.buf[k] = fifoRead s ((s.head.toNat + k.val) % 1024) ∧ bs[k.val]? = some t.buf[k]) ∧
      (∀ k : Fin 4, count ≤ k.val → t.buf[k] = s.buf[k])

/-- R135: `head` becomes `tail`, the storage is not erased, and the level is 0 afterwards. (That the level returned
stands in `answer` is the model's choice, log 10.) -/
def Obligations.FifoClearDropsAllBufferedBytes : Prop :=
  ∀ s : State, ∃ t, exec .fifoClear s = .next t ∧ t = { s with head := s.tail } ∧
    exec .fifoLevel t = .next { t with answer := .number 0 }

/-- R137, R138: the ring stands for a queue. A push appends unless the FIFO is full, when it empties the queue; a pop
takes from the front; a clear empties. (The spec derives both rules; the answer is the model's record, log 10.) -/
def Obligations.FifoRefinesAQueue : Prop :=
  ∀ s : State,
    (∀ b : Byte, ∃ t, exec (.fifoPush b) s = .next t ∧
      fifoContents t = if (fifoContents s).length = 1023 then [] else fifoContents s ++ [b]) ∧
    (∀ maxLen : Nat, ∃ t, exec (.fifoPopInto maxLen) s = .next t ∧
      t.answer = .bytes ((fifoContents s).take maxLen) ∧ fifoContents t = (fifoContents s).drop maxLen) ∧
    (∃ t, exec .fifoClear s = .next t ∧ fifoContents t = [])

/-- R132: from an empty FIFO 1023 pushes fill it without a report, and the 1024th reports the one overrun and leaves
the level 0. (The spec marks its definition of full as its decision D5.) -/
def Obligations.TheThousandTwentyFourthPushOverruns : Prop :=
  ∀ (s : State) (bs : List Byte), s.head = s.tail → bs.length ≤ 1024 →
    ∃ t, runOps (bs.map .fifoPush) s = .next t ∧ fifoLevel t = bs.length % 1024 ∧
      t.diagLog = if bs.length = 1024 then s.diagLog ++ [.overrun] else s.diagLog

/-! ### The pacing loop -/

/-- R151, both cases. -/
def Obligations.PaceEnableStartsOnlyADisabledLoop : Prop :=
  ∀ s : State,
    (s.dmaEnabled = false → exec .paceEnable s =
      .next { s with head := s.tail, dmaEnabled := true, pacePending := some (s.dmaInterval.toNat : Int) }) ∧
    (s.dmaEnabled = true → exec .paceEnable s = .next s)

/-- R152. -/
def Obligations.PaceDisableCancelsAndDisables : Prop :=
  ∀ s : State, exec .paceDisable s = .next { s with pacePending := none, dmaEnabled := false }

/-- R153: the trim is set from the occupancy and one transfer is asked for; a stale firing only clears the timer.
(The spec marks the guard for a stale firing as its decision D18.) -/
def Obligations.PaceEventSetsTheTrimAndRequestsAByte : Prop :=
  ∀ s : State, s.pacePending ≠ none →
    (s.dmaEnabled = true → ∃ t, exec .paceEvent s = .next t ∧
      t = { s with pacePending := none, dmaIntervalTrim := t.dmaIntervalTrim, dmaReq := true } ∧
      t.dmaIntervalTrim.toInt = if 512 ≤ (s.tail.toNat + 1024 - s.head.toNat) % 1024 then 5 else -5) ∧
    (s.dmaEnabled = false → exec .paceEvent s = .next { s with pacePending := none })

/-- R155: push and count; below or at the target re-arm with the signed sum; above it loop or stop, and assert
the interrupt in both. `u` is the state the push leaves. (What the optional counter of the calls becomes is left
out, log 16.) -/
def Obligations.DmaDonePushesCountsAndEndsBlocks : Prop :=
  ∀ (s : State) (b : Byte), s.dmaReq = true → s.dmaEnabled = true →
    ∃ u t, exec (.fifoPush b) { s with dmaReq := false } = .next u ∧ exec (.dmaDone b) s = .next t ∧
      t = if (s.dmaSampleCountRx.toNat + 1) % 2 ^ 32 ≤ s.dmaSampleCount.toNat then
          { u with
            dmaSampleCountRx := s.dmaSampleCountRx + 1
            pacePending := some (s.dmaInterval.toNat + s.dmaIntervalTrim.toInt) }
        else if s.autoinit then
          { u with
            dmaSampleCountRx := 0
            pacePending := some (s.dmaInterval.toNat + s.dmaIntervalTrim.toInt)
            irq := true
            irqAssertCount := t.irqAssertCount }
        else
          { u with
            dmaSampleCountRx := s.dmaSampleCountRx + 1
            pacePending := none
            dmaEnabled := false
            irq := true
            irqAssertCount := t.irqAssertCount }

/-- R156: a completion after a disable is accepted and thrown away. (The spec marks this as its decision D17.) -/
def Obligations.DmaDoneAfterDisableIsDiscarded : Prop :=
  ∀ (s : State) (b : Byte), s.dmaReq = true → s.dmaEnabled = false →
    exec (.dmaDone b) s = .next { s with dmaReq := false }

/-- R158 to R161: a block that starts with the counter at 0 is `dma_sample_count + 1` completions long. No interrupt
is asserted before its last byte and exactly one at it; then the loop goes on from 0 or stops. (The spec derives these
rules; `irqAssertCount` is its optional counter of the calls, log 16.) -/
def Obligations.ABlockIsOneByteLongerThanItsTarget : Prop :=
  ∀ (s : State) (bs : List Byte), s.dmaEnabled = true → s.pacePending ≠ none → s.dmaSampleCountRx = 0 →
    (bs.length ≤ s.dmaSampleCount.toNat → ∃ t, runOps (lapOps bs) s = .next t ∧ t.irq = s.irq ∧
      t.irqAssertCount = s.irqAssertCount ∧ t.dmaSampleCountRx.toNat = bs.length ∧ t.dmaEnabled = true ∧
      t.pacePending ≠ none) ∧
    (bs.length = s.dmaSampleCount.toNat + 1 → ∃ t, runOps (lapOps bs) s = .next t ∧ t.irq = true ∧
      t.irqAssertCount = s.irqAssertCount + 1 ∧
      (s.autoinit = true → t.dmaSampleCountRx = 0 ∧ t.dmaEnabled = true ∧ t.pacePending ≠ none) ∧
      (s.autoinit = false → t.dmaSampleCountRx.toNat = s.dmaSampleCount.toNat + 1 ∧ t.dmaEnabled = false ∧
        t.pacePending = none))

/-- The bound of R45 item (d) does not survive DMA Resume, although Resume does not write `dma_sample_count`
(log 21): after a stopped block the first byte of the resumed loop leaves the counter two above the target. -/
def Obligations.ResumeAfterAStoppedBlockBreaksTheCounterBound : Prop :=
  ∀ (s : State) (b : Byte), s.dmaEnabled = false → s.dmaReq = false → s.autoinit = false →
    s.dmaSampleCountRx.toNat = s.dmaSampleCount.toNat + 1 →
    ∃ t, runOps [.cmdDmaResume, .paceEvent, .dmaDone b] s = .next t ∧ t.dmaSampleCount = s.dmaSampleCount ∧
      t.dmaSampleCountRx.toNat = t.dmaSampleCount.toNat + 2

/-! ### The commands: what `P2` does -/

/-- R177. -/
def Obligations.PauseDisablesPacing : Prop :=
  ∀ s : State, exec .cmdDmaPause s = .next { s with pacePending := none, dmaEnabled := false, currentCommand := 0 }

/-- R178. -/
def Obligations.ResumeEnablesPacing : Prop :=
  ∀ s : State,
    (s.dmaEnabled = false → exec .cmdDmaResume s =
      .next { s with
        head := s.tail, dmaEnabled := true, pacePending := some (s.dmaInterval.toNat : Int), currentCommand := 0 }) ∧
    (s.dmaEnabled = true → exec .cmdDmaResume s = .next { s with currentCommand := 0 })

/-- R179, R180, R181: mode and target, then pacing as `PACE_ENABLE`; the receive counter is kept. -/
def Obligations.BlockTransfersTakeTheBlockSizeAsTarget : Prop :=
  ∀ (s : State) (i : Instr) (auto : Bool),
    (i = .cmdDmaAuto ∧ auto = true) ∨ (i = .cmdDmaHsAuto ∧ auto = true) ∨ (i = .cmdDmaHsSingle ∧ auto = false) →
    exec i s = .next
      { s with
        autoinit := auto
        dmaSampleCount := s.dmaBlockSize
        head := if s.dmaEnabled then s.head else s.tail
        dmaEnabled := true
        pacePending := if s.dmaEnabled then s.pacePending else some (s.dmaInterval.toNat : Int)
        currentCommand := 0 }

/-- R182: Set Time Constant waits for its parameter byte; with the byte pending it writes the five registers by the
four truncating divisions, and nothing else but the handshake and the end of the command changes. -/
def Obligations.SetTimeConstantDerivesTheRates : Prop :=
  ∀ s : State,
    (s.davDsp = false → exec .cmdSetTimeConstant s = .next s) ∧
    (s.davDsp = true → 1 ≤ s.params.outputRate → s.params.outputRate < 2 ^ 20 →
      ∃ t, exec .cmdSetTimeConstant s = .next t ∧
        t = { s with
          davDsp := false
          currentCommandIndex := s.currentCommandIndex + 1
          timeConstant := s.inbox
          sampleRate := t.sampleRate
          dmaInterval := t.dmaInterval
          sampleStep := t.sampleStep
          sampleFactor := t.sampleFactor
          currentCommand := 0 } ∧
        t.sampleRate.toNat = 1000000 / (256 - s.inbox.toNat) ∧
        t.dmaInterval.toNat = 1000000 / t.sampleRate.toNat ∧
        t.sampleStep.toNat = t.sampleRate.toNat * 65536 / s.params.outputRate ∧
        t.sampleFactor.toNat = s.params.outputRate / t.sampleRate.toNat + 5)

/-- The ranges of R9 and R183 that a Set Time Constant reaches: the interval is `256 - v` for every byte `v`, and the
resampler skips input samples exactly when the input rate is at least the output rate. (The spec derives this from the
formulas; the bound on the output rate is its decision D11.) -/
def Obligations.RatesStayInTheirRanges : Prop :=
  ∀ s : State, s.davDsp = true → 1 ≤ s.params.outputRate → s.params.outputRate < 2 ^ 20 →
    ∃ t, exec .cmdSetTimeConstant s = .next t ∧
      3906 ≤ t.sampleRate.toNat ∧ t.sampleRate.toNat ≤ 1000000 ∧
      t.dmaInterval.toNat = 256 - s.inbox.toNat ∧
      244 ≤ t.sampleStep.toNat ∧ t.sampleStep.toNat ≤ 65536000000 ∧ 5 ≤ t.sampleFactor.toNat ∧ t.sampleFactor.toNat ≤ 273 ∧
      (65536 ≤ t.sampleStep.toNat ↔ s.params.outputRate ≤ t.sampleRate.toNat)

/-- R184: with no byte pending it waits; the low byte clears bits 15:8, the high byte fills them and completes the
command. (The spec marks writing the register at the low byte as its decision D21.) -/
def Obligations.SetBlockSizeAssemblesLowThenHigh : Prop :=
  ∀ s : State,
    (s.davDsp = false → exec .cmdSetBlockSize s = .next s) ∧
    (s.davDsp = true → ∃ t, exec .cmdSetBlockSize s = .next t ∧
      t = { s with
        davDsp := false
        currentCommandIndex := s.currentCommandIndex + 1
        dmaBlockSize := t.dmaBlockSize
        currentCommand := if s.currentCommandIndex = 0 then s.currentCommand else 0 } ∧
      t.dmaBlockSize.toNat =
        if s.currentCommandIndex = 0 then s.inbox.toNat else s.dmaBlockSize.toNat % 256 + 256 * s.inbox.toNat)

/-- R185: with no byte pending it waits; the low byte writes the target at once; the high byte completes it, clears
the counter and `autoinit` and enables pacing. (The spec marks writing the target at the low byte as its decision
D21.) -/
def Obligations.DmaSingleAssemblesTheTargetAndStarts : Prop :=
  ∀ s : State,
    (s.davDsp = false → exec .cmdDmaSingle s = .next s) ∧
    (s.davDsp = true → s.currentCommandIndex = 0 → ∃ t, exec .cmdDmaSingle s = .next t ∧
      t = { s with davDsp := false, currentCommandIndex := 1, dmaSampleCount := t.dmaSampleCount } ∧
      t.dmaSampleCount.toNat = s.inbox.toNat) ∧
    (s.davDsp = true → s.currentCommandIndex ≠ 0 → ∃ t, exec .cmdDmaSingle s = .next t ∧
      t = { s with
        davDsp := false
        currentCommandIndex := s.currentCommandIndex + 1
        dmaSampleCount := t.dmaSampleCount
        dmaSampleCountRx := 0
        autoinit := false
        head := if s.dmaEnabled then s.head else s.tail
        dmaEnabled := true
        pacePending := if s.dmaEnabled then s.pacePending else some (s.dmaInterval.toNat : Int)
        currentCommand := 0 } ∧
      t.dmaSampleCount.toNat = s.dmaSampleCount.toNat % 256 + 256 * s.inbox.toNat)

/-- R186: with no byte pending it waits, else it answers the complement of its byte. -/
def Obligations.IdentifyAnswersTheComplement : Prop :=
  ∀ s : State,
    (s.davDsp = false → exec .cmdIdentify s = .next s) ∧
    (s.davDsp = true → ∃ t, exec .cmdIdentify s = .next t ∧
      t = { s with
        davDsp := false
        currentCommandIndex := s.currentCommandIndex + 1
        outbox := t.outbox
        davPc := true
        currentCommand := 0 } ∧
      t.outbox.toNat = 255 - s.inbox.toNat)

/-- R187, its three cases. -/
def Obligations.GetVersionWaitsForTheHostBetweenItsBytes : Prop :=
  ∀ s : State,
    (s.currentCommandIndex = 0 → exec .cmdGetVersion s =
      .next { s with outbox := s.params.versionMajor, davPc := true, currentCommandIndex := 1 }) ∧
    (s.currentCommandIndex ≠ 0 → s.davPc = false → exec .cmdGetVersion s =
      .next { s with outbox := s.params.versionMinor, davPc := true, currentCommand := 0 }) ∧
    (s.currentCommandIndex ≠ 0 → s.davPc = true → exec .cmdGetVersion s = .next s)

/-- R188 and R189: the write waits for its byte and stores it, the read answers what is stored. -/
def Obligations.TheTestRegisterIsWrittenAndRead : Prop :=
  ∀ s : State,
    (s.davDsp = false → exec .cmdWriteTest s = .next s) ∧
    (s.davDsp = true → exec .cmdWriteTest s = .next
      { s with
        davDsp := false
        currentCommandIndex := s.currentCommandIndex + 1
        testRegister := s.inbox
        currentCommand := 0 }) ∧
    exec .cmdReadTest s = .next { s with outbox := s.testRegister, davPc := true, currentCommand := 0 }

/-- R190. (What the optional counter of the calls becomes is left out, log 16.) -/
def Obligations.TriggerIrqRaisesTheLine : Prop :=
  ∀ s : State, ∃ t, exec .cmdTriggerIrq s = .next t ∧
    t = { s with irq := true, irqAssertCount := t.irqAssertCount, currentCommand := 0 }

/-- R191, R192, R193: the speaker commands and an unknown opcode only return to `Idle`. -/
def Obligations.SpeakerAndUnknownOnlyReturnToIdle : Prop :=
  ∀ (s : State) (opcode : Byte),
    exec .cmdSpeakerOn s = .next { s with currentCommand := 0 } ∧
    exec .cmdSpeakerOff s = .next { s with currentCommand := 0 } ∧
    exec (.cmdUnknown opcode) s = .next { s with currentCommand := 0 }

/-- Opcode byte 0x00 and `Idle`: in `P2` nothing happens, and a whole protocol step that latches 0x00 only consumes
the byte. (The spec marks this as derived from the latch and the dispatch.) -/
def Obligations.OpcodeZeroIsConsumedWithoutEffect : Prop :=
  ∀ s : State,
    exec .cmdIdleZero s = .next s ∧
    (s.pollOp = .idle → s.dspBusy = false → s.resetState = false → s.currentCommand = 0 → s.davDsp = true →
      s.inbox = 0 → exec (.pstep .whole) s = .next { s with davDsp := false, currentCommandIndex := 0 })

/-! ### The protocol step -/

/-- R172 and R174: entry and exit of a protocol step. -/
def Obligations.ProtocolStepEntryAndExit : Prop :=
  ∀ s : State,
    (s.pollOp = .idle → s.resetState = true → exec (.pstep (.phase .p1)) s = .next s) ∧
    (s.pollOp = .idle → s.resetState = false → s.davDsp = true → s.currentCommand = 0 →
      exec (.pstep (.phase .p1)) s = .next
        { s with
          dspBusy := true
          currentCommand := s.inbox
          currentCommandIndex := 0
          davDsp := false
          pollOp := .p2Next }) ∧
    (s.pollOp = .idle → s.resetState = false → (s.davDsp = false ∨ s.currentCommand ≠ 0) →
      exec (.pstep (.phase .p1)) s = .next { s with dspBusy := true, pollOp := .p2Next }) ∧
    (s.pollOp = .p3Next → exec (.pstep (.phase .p3)) s = .next { s with dspBusy := false, pollOp := .idle })

/-- R173: `P2` runs the rule of the command whose opcode `current_command` holds, once, and goes on to `P3`. -/
def Obligations.DispatchSelectsByTheOpcode : Prop :=
  ∀ (s : State) (i : Instr), s.pollOp = .p2Next → s.params.opcodes.WellFormed →
    ((s.currentCommand, i) ∈
        [((0 : Byte), Instr.cmdIdleZero), (s.params.opcodes.dmaPause, .cmdDmaPause),
          (s.params.opcodes.dmaResume, .cmdDmaResume), (s.params.opcodes.dmaAuto, .cmdDmaAuto),
          (s.params.opcodes.dmaHsAuto, .cmdDmaHsAuto), (s.params.opcodes.dmaHsSingle, .cmdDmaHsSingle),
          (s.params.opcodes.setTimeConstant, .cmdSetTimeConstant), (s.params.opcodes.setBlockSize, .cmdSetBlockSize),
          (s.params.opcodes.dmaSingle, .cmdDmaSingle), (s.params.opcodes.identify, .cmdIdentify),
          (s.params.opcodes.getVersion, .cmdGetVersion), (s.params.opcodes.writeTest, .cmdWriteTest),
          (s.params.opcodes.readTest, .cmdReadTest), (s.params.opcodes.triggerIrq, .cmdTriggerIrq),
          (s.params.opcodes.speakerOn, .cmdSpeakerOn), (s.params.opcodes.speakerOff, .cmdSpeakerOff)] ∨
      (s.currentCommand ∉ 0 :: s.params.opcodes.values ∧ i = .cmdUnknown s.currentCommand)) →
    ∃ t, exec i s = .next t ∧ exec (.pstep (.phase .p2)) s = .next { t with pollOp := .p3Next }

/-- R171, R83: `PSTEP` is `P1; P2; P3` with nothing in between, and ends in `P1` while reset is asserted. (The spec
marks the three phases as its decision D2.) -/
def Obligations.ProtocolStepIsItsThreePhases : Prop :=
  ∀ s : State, s.pollOp = .idle →
    (s.resetState = true → exec (.pstep .whole) s = .next s) ∧
    (s.resetState = false → ∃ t, exec (.pstep .whole) s = .next t ∧
      runOps [.pstep (.phase .p1), .pstep (.phase .p2), .pstep (.phase .p3)] s = .next t ∧
      t.pollOp = .idle ∧ t.dspBusy = false)

/-- R175 and R176: the two helper procedures of the commands. (That the returned byte stands in `answer` is the
model's choice, log 10.) -/
def Obligations.OutputAndConsumeParam : Prop :=
  ∀ (s : State) (v : Byte),
    exec (.output v) s = .next { s with outbox := v, davPc := true } ∧
    (s.davDsp = true → exec .consumeParam s = .next
      { s with
        davDsp := false
        currentCommandIndex := s.currentCommandIndex + 1
        answer := .byte s.inbox })

/-- R102, R103, R184, R196: from `Idle`, the host's three bytes and three protocol steps program the block size `lo +
256 * hi` under any opcode map, and leave the machine `Idle`. (The step count is derived by the spec, and the register
is written as its decision D21 says.) -/
def Obligations.ThreeBytesProgramTheBlockSize : Prop :=
  ∀ (s : State) (lo hi : Byte), s.params.opcodes.WellFormed → s.pollOp = .idle → s.resetState = false →
    s.currentCommand = 0 → s.davDsp = false →
    ∃ t, runOps (commandOps [s.params.opcodes.setBlockSize, lo, hi]) s = .next t ∧
      t = { s with inbox := hi, currentCommandIndex := 2, dspBusy := false, dmaBlockSize := t.dmaBlockSize } ∧
      t.dmaBlockSize.toNat = lo.toNat + 256 * hi.toNat

/-- R186, R196, R241, R244: opcode and byte in, complement out through the status and the Read port. (The step count
is derived by the spec; the answers are the model's record, log 10.) -/
def Obligations.IdentifyEndToEnd : Prop :=
  ∀ (s : State) (v : Byte), s.params.opcodes.WellFormed → s.pollOp = .idle → s.resetState = false →
    s.currentCommand = 0 → s.davDsp = false →
    ∃ t u, runOps (commandOps [s.params.opcodes.identify, v] ++ [.portRstatusRd]) s = .next t ∧
      t.answer = .byte 0x80 ∧ exec .portReadRd t = .next u ∧ u.answer = .byte (~~~v) ∧ u.davPc = false ∧
      u.currentCommand = 0

/-- R302: between its two bytes Get Version latches and consumes nothing: a protocol step leaves the whole block as it
was. (A hazard that the spec derives.) -/
def Obligations.GetVersionHoldsTheMachine : Prop :=
  ∀ s : State, s.params.opcodes.WellFormed → s.pollOp = .idle → s.dspBusy = false →
    s.currentCommand = s.params.opcodes.getVersion → s.currentCommandIndex = 1 → s.davPc = true →
    exec (.pstep .whole) s = .next s

/-- R315: an Assert between `P1` and `P2` does not stop the step's command, so pacing runs during reset. (A hazard
that the spec derives.) -/
def Obligations.AssertInsideAStepDoesNotStopItsCommand : Prop :=
  ∀ s : State, s.params.opcodes.WellFormed → s.pollOp = .idle → s.resetState = false → s.currentCommand = 0 →
    s.davDsp = true → s.inbox = s.params.opcodes.dmaAuto →
    ∃ t, runOps [.pstep (.phase .p1), .portResetWr 1, .pstep (.phase .p2), .pstep (.phase .p3)] s = .next t ∧
      t.resetState = true ∧ t.dmaEnabled = true ∧ t.autoinit = true ∧
      t.pacePending = some (s.dmaInterval.toNat : Int) ∧ t.dspBusy = false

/-! ### The resampler and mixer -/

/-- R212: `F1` samples the enable; `F2` goes on without touching the FIFO when pacing was off, and pulls up to four
bytes when it was on and one is there. (The spec marks the phases and the wait as its decisions D2 and D27.) -/
def Obligations.FrameSamplesTheEnableAndPulls : Prop :=
  ∀ s : State,
    (s.pollOp = .idle → exec (.frame (.phase .f1)) s =
      .next { s with pullArmed := s.dmaEnabled, n := 0, waitPolls := 0, pollOp := .f2Next }) ∧
    (s.pollOp = .f2Next → s.pullArmed = false → exec (.frame (.phase .f2)) s = .next { s with pollOp := .f3Next }) ∧
    (s.pollOp = .f2Next → s.pullArmed = true → s.head ≠ s.tail →
      ∃ t u, exec (.fifoPopInto 4) s = .next u ∧ exec (.frame (.phase .f2)) s = .next t ∧
        t = { u with answer := s.answer, n := t.n, pollOp := .f3Next } ∧
        t.n.val = min ((s.tail.toNat + 1024 - s.head.toNat) % 1024) 4 ∧ 1 ≤ t.n.val)

/-- R84, R219: with an empty FIFO an armed `F2` is held. A finite limit counts the failed poll and lifts the hold when
it is reached, with nothing pulled; without a limit nothing of the block changes. (The spec marks the wait limit as
its decision D27; the recorded answer is the model's, log 9.) -/
def Obligations.AnEmptyFifoHoldsTheFrame : Prop :=
  ∀ s : State, s.pollOp = .f2Next → s.pullArmed = true → s.head = s.tail →
    (s.params.mixWaitLimit = none → exec (.frame (.phase .f2)) s = .next { s with answer := .notEnabled }) ∧
    (∀ limit, s.params.mixWaitLimit = some limit →
      (s.waitPolls < limit → exec (.frame (.phase .f2)) s = .next { s with waitPolls := s.waitPolls + 1 }) ∧
      (limit ≤ s.waitPolls → exec (.frame (.phase .f2)) s = .next { s with n := 0, pollOp := .f3Next }))

/-- R213 to R217: `F3` with bytes to play. Sample `j` is the byte at the integer part of the position, relative to the
frame's start, biased and scaled; it stands on both channels, the secondary source is added modulo 2^16, and the loop
stops at the first position past the pulled bytes or at the limit. Nothing else changes. (The spec marks where the
position starts, where the loop stops and that the position is kept as its decisions D22 to D24; that a secondary list
read beyond its end gives zeros, and that the delivered frame is recorded in the state, are the model's choices, log 14
and log 20.) -/
def Obligations.FrameResamplesAndMixes : Prop :=
  ∀ (s : State) (sec : List Sample), s.pollOp = .f3Next → 0 < s.n.val → 0 < s.sampleFactor.toNat →
    ∃ t, exec (.frame (.phase (.f3 sec))) s = .next t ∧
      t = { s with
        sampleOffset := BitVec.ofNat 64 (s.sampleOffset.toNat + t.frameCount * s.sampleStep.toNat)
        frameCount := t.frameCount
        frame := t.frame
        pollOp := .idle } ∧
      1 ≤ t.frameCount ∧ t.frameCount ≤ s.n.val * s.sampleFactor.toNat ∧ t.frame.length = 2 * t.frameCount ∧
      (∀ j, j < t.frameCount → ∃ idx : Fin 4, idx.val = sourceIndex s j ∧ idx.val < s.n.val ∧
        t.frame[2 * j]? = some (BitVec.ofInt 16 (((s.buf[idx].toNat : Int) - 128) * 256 + (sec.getD (2 * j) 0).toInt)) ∧
        t.frame[2 * j + 1]? =
          some (BitVec.ofInt 16 (((s.buf[idx].toNat : Int) - 128) * 256 + (sec.getD (2 * j + 1) 0).toInt))) ∧
      (t.frameCount = s.n.val * s.sampleFactor.toNat ∨ s.n.val ≤ sourceIndex s t.frameCount)

/-- R215, R216: with nothing pulled, or before any Set Time Constant, the frame is one silent sample plus the
secondary source, and `sample_offset` stays. (That a secondary list read beyond its end gives zeros, and that the
delivered frame is recorded in the state, are the model's choices, log 14 and log 20.) -/
def Obligations.NothingToPlayGivesOneSilentSample : Prop :=
  ∀ (s : State) (sec : List Sample), s.pollOp = .f3Next → (s.n.val = 0 ∨ s.sampleFactor.toNat = 0) →
    exec (.frame (.phase (.f3 sec))) s =
      .next { s with frameCount := 1, frame := [sec.getD 0 0, sec.getD 1 0], pollOp := .idle }

/-- R218: after a Set Time Constant the limit is never what ends the loop, and a frame has at most 1075 samples. (The
spec derives this and says it checked it numerically; that the delivered count is recorded in the state is the model's
choice, log 20.) -/
def Obligations.TheLoopLimitNeverTruncatesAFrame : Prop :=
  ∀ (s t : State) (sec : List Sample), 1 ≤ s.params.outputRate → s.params.outputRate < 2 ^ 20 → RatesSet s →
    s.pollOp = .f3Next → 0 < s.n.val → exec (.frame (.phase (.f3 sec))) s = .next t →
    t.frameCount < s.n.val * s.sampleFactor.toNat ∧ s.n.val ≤ sourceIndex s t.frameCount ∧ t.frameCount ≤ 1075

/-- R211, R219: `FRAME` is `F1; F2; F3` with nothing in between whenever `F2` is not held. Held by an empty FIFO under a
finite wait limit, with nothing in between it takes that many failed polls, pulls nothing and gives the one silent
sample. Without a limit it stays before `F2`. (The spec marks the three phases and the wait limit as its decisions D2
and D27. That `exec` runs the whole form through its failed polls, or leaves it before `F2` with that answer, is the
model's choice, log 24 and log 9; so are the recorded frame and the zeros beyond the secondary list, log 20 and
log 14.) -/
def Obligations.FrameIsItsThreePhases : Prop :=
  ∀ (s : State) (sec : List Sample), s.pollOp = .idle →
    (s.dmaEnabled = false ∨ s.head ≠ s.tail →
      ∃ t, exec (.frame (.whole sec)) s = .next t ∧
        runOps [.frame (.phase .f1), .frame (.phase .f2), .frame (.phase (.f3 sec))] s = .next t ∧ t.pollOp = .idle) ∧
    (s.dmaEnabled = true → s.head = s.tail → ∀ limit, s.params.mixWaitLimit = some limit →
      ∃ t, exec (.frame (.whole sec)) s = .next t ∧
        runOps (.frame (.phase .f1) :: List.replicate (limit + 1) (.frame (.phase .f2)) ++ [.frame (.phase (.f3 sec))]) s =
          .next t ∧
        t = { s with
          pullArmed := true
          n := 0
          waitPolls := limit
          frameCount := 1
          frame := [sec.getD 0 0, sec.getD 1 0] }) ∧
    (s.dmaEnabled = true → s.head = s.tail → s.params.mixWaitLimit = none →
      exec (.frame (.whole sec)) s =
        .next { s with pullArmed := true, n := 0, waitPolls := 0, pollOp := .f2Next, answer := .notEnabled })

/-! ### The ports -/

/-- R231, R232, R233: the Assert, the Release from reset, and the release while running, which does nothing. -/
def Obligations.ResetPortAssertsAndReleases : Prop :=
  ∀ s : State,
    exec (.portResetWr 1) s =
      .next { s with autoinit := false, pacePending := none, dmaEnabled := false, resetState := true } ∧
    (s.resetState = true → exec (.portResetWr 0) s = .next
      { s with
        resetState := false
        outbox := 0xAA
        davPc := true
        currentCommand := 0
        currentCommandIndex := 0
        dmaBlockSize := 0x7FF
        dmaSampleCount := 0
        dmaSampleCountRx := 0 }) ∧
    (s.resetState = false → exec (.portResetWr 0) s = .next s)

/-- The Reset port compares the whole byte: a value that is neither 0 nor 1 is ignored in either mode. (The spec
marks this reading of "Any other value: ignored" as its decision D31.) -/
def Obligations.ResetPortIgnoresOtherValues : Prop :=
  ∀ (s : State) (v : Byte), v ≠ 0 → v ≠ 1 → exec (.portResetWr v) s = .next s

/-- R241, R243, R244: the three port reads return their byte and have their side effect. (The spec marks the stale read
as its decision D40, and bits 6:0 and the OR as D15; that the byte stands in `answer` is the model's, log 10.) -/
def Obligations.PortReadsReturnTheirByte : Prop :=
  ∀ s : State,
    exec .portReadRd s = .next { s with davPc := false, answer := .byte s.outbox } ∧
    exec .portWstatusRd s = .next { s with answer := .byte (if s.davDsp = true ∨ s.dspBusy = true then 0x80 else 0) } ∧
    exec .portRstatusRd s = .next { s with irq := false, answer := .byte (if s.davPc = true then 0x80 else 0) }

/-- R242: the new byte wins, and an overwrite is reported. -/
def Obligations.WritePortTakesTheByte : Prop :=
  ∀ (s : State) (v : Byte), exec (.portWriteWr v) s = .next
    { s with inbox := v, davDsp := true, diagLog := if s.davDsp then s.diagLog ++ [.protoOverwrite] else s.diagLog }

/-! ### Power-on and the whole machine -/

/-- R290: `POR` gives every field of R21's table its POR value: the numbers 0, the flags clear, nothing pending, the
Poll agent idle. FIFO storage and `buf` are unspecified. (The spec marks the power-on values as its decision D8.
That the parameters, the loaded script and the count of draws are fields of the state, and that power-on keeps them, is
the model's choice: log 22, with log 5 for the parameters and log 8 for the other two.) -/
def Obligations.PowerOnZeroesEveryField : Prop :=
  ∀ s : State, ∃ t, exec .por s = .next t ∧
    (t.inbox = 0 ∧ t.outbox = 0 ∧ t.davPc = false ∧ t.davDsp = false ∧ t.dspBusy = false ∧ t.currentCommand = 0 ∧
      t.currentCommandIndex = 0 ∧ t.testRegister = 0) ∧
    (t.dmaInterval = 0 ∧ t.dmaIntervalTrim = 0 ∧ t.dmaBlockSize = 0 ∧ t.dmaSampleCount = 0 ∧ t.dmaSampleCountRx = 0) ∧
    (t.timeConstant = 0 ∧ t.sampleRate = 0 ∧ t.sampleStep = 0 ∧ t.sampleFactor = 0 ∧ t.sampleOffset = 0) ∧
    (t.autoinit = false ∧ t.dmaEnabled = false ∧ t.resetState = false ∧ t.head = 0 ∧ t.tail = 0) ∧
    (t.irq = false ∧ t.pacePending = none ∧ t.dmaReq = false ∧ t.diagLog = []) ∧
    (t.pollOp = .idle ∧ t.pullArmed = false ∧ t.n = 0 ∧ t.waitPolls = 0) ∧
    t.params = s.params ∧ t.script = s.script ∧ t.draws = s.draws

/-- The state after reset meets the invariant, whatever the free parameters are. (The values are the spec's decision
D8 and the model's, logs 1 to 6, 17 and 20.) -/
def Obligations.ResetMeetsTheInvariant : Prop := Inv State.reset

/-- R35, R36, R45: every atomic step, of any agent and under any schedule, keeps the invariant. (The spec derives
these properties; the schedule is the model's, log 8.) -/
def Obligations.EveryStepKeepsTheInvariant : Prop :=
  ∀ s t : State, Inv s → step s = .next t → Inv t

/-- R85, R92: the step takes the next stimulus loaded and runs the operation it decodes to, and nothing else; with
nothing loaded it does what it would with the free schedule's draw loaded; and where the operation is `P2` it runs
the command decoded from the opcode byte latched, and goes on to `P3`. (The script, the free schedule and the
placing of a table word are the model's, log 8 and log 12.) -/
def Obligations.StepRunsTheDecodedOperation : Prop :=
  (∀ (s : State) (st : Stimulus) (rest : List Stimulus) (i : Instr), s.script = st :: rest →
    decodeStimulus s.params.ports st = .ok i → step s = exec i { s with script := rest }) ∧
  (∀ s : State, s.script = [] →
    step s = step { s with script := [Config.schedule s.draws], draws := s.draws + 1 }) ∧
  (∀ (s : State) (w : Nat), s.params.opcodes = defaultOpcodes →
    ∃ i t u, decodeTableWord 8 w = some i ∧ takeStimulus (s.withFetchWord 8 w) = (.protocol .p2, t) ∧
      exec i t = .next u ∧ step (s.withFetchWord 8 w) = .next { u with pollOp := .p3Next })

/-- An operation offered while it is not enabled does not happen: nothing but the model's record of the answer
changes. (That the model answers so is its choice, log 9; the conditions are the spec's.) -/
def Obligations.OperationsNotEnabledDoNotHappen : Prop :=
  ∀ (s : State) (i : Instr) (b : Byte) (sec : List Sample),
    (i = .paceEvent ∧ s.pacePending = none) ∨ (i = .dmaDone b ∧ s.dmaReq = false) ∨
      (i = .consumeParam ∧ s.davDsp = false) ∨
      (i ∈ [Instr.pstep .whole, .pstep (.phase .p1), .frame (.whole sec), .frame (.phase .f1)] ∧ s.pollOp ≠ .idle) ∨
      (i = .pstep (.phase .p2) ∧ s.pollOp ≠ .p2Next) ∨ (i = .pstep (.phase .p3) ∧ s.pollOp ≠ .p3Next) ∨
      (i = .frame (.phase .f2) ∧ s.pollOp ≠ .f2Next) ∨ (i = .frame (.phase (.f3 sec)) ∧ s.pollOp ≠ .f3Next) →
    exec i s = .next { s with answer := .notEnabled }

/-- Every operation and every step answers a next state, in every state. (R265 says it of the port operations, and of
the others under their normal rule. That an operation offered while it is not enabled answers a next state too is the
model's choice, log 9; that no step ends in a fault or a refusal is deduced from the spec, log 25.) -/
def Obligations.NothingHalts : Prop :=
  (∀ (i : Instr) (s : State), ∃ t, exec i s = .next t) ∧ (∀ s : State, ∃ t, step s = .next t)

/-- R87: the single-writer discipline of the FIFO. Except at power-on, `tail` and the storage change only when a
transfer completes, `head` only in `F2` and in `P2`. -/
def Obligations.FifoIndicesHaveOneWriterEach : Prop :=
  ∀ (s t : State) (st : Stimulus) (rest : List Stimulus), s.script = st :: rest → st ≠ .powerOn → step s = .next t →
    ((∀ b, st ≠ .dmaCompletes b) → t.tail = s.tail ∧ t.fifo = s.fifo) ∧
    (st ≠ .mixer .f2 → st ≠ .protocol .p2 → t.head = s.head)

/-- R266, R267: the interrupt line is raised at the end of a block and by Trigger IRQ, with no enable or mask, and
by nothing else; it is lowered by a Read-status read and, except at power-on, by nothing else. -/
def Obligations.InterruptLineSources : Prop :=
  ∀ (s t : State) (st : Stimulus) (rest : List Stimulus) (acknowledge raise : Prop), s.script = st :: rest →
    st ≠ .powerOn →
    (acknowledge ↔ ∃ a, st = .bus a ∧ decodePort s.params.ports a = .ok .portRstatusRd) →
    (raise ↔ (∃ b, st = .dmaCompletes b ∧ s.dmaReq = true ∧ s.dmaEnabled = true ∧
        s.dmaSampleCount.toNat < (s.dmaSampleCountRx.toNat + 1) % 2 ^ 32) ∨
      (st = .protocol .p2 ∧ s.pollOp = .p2Next ∧
        decodeCommand s.params.opcodes s.currentCommand = .cmdTriggerIrq)) →
    step s = .next t →
    (acknowledge → t.irq = false) ∧ (raise → t.irq = true) ∧ (¬acknowledge → ¬raise → t.irq = s.irq)

/-- R31, R40: the diagnostic record, `sample_rate`, `time_constant`, the frame handed over and the model's records
influence nothing else: two states that agree on the rest agree on the rest after any operation. (That the frame and
the answer are kept in the state at all is the model's, log 10 and log 20.) -/
def Obligations.UnreadFieldsInfluenceNothing : Prop :=
  ∀ (i : Instr) (s s' t t' : State), withoutUnread s = withoutUnread s' → exec i s = .next t → exec i s' = .next t' →
    withoutUnread t = withoutUnread t'

/-- R308: the permanent stall. Once the Poll agent waits in `F2` without a limit, with an empty FIFO and pacing
disabled, every atomic step but power-on leaves it so. (A hazard that the spec derives.) -/
def Obligations.OnlyPowerOnEndsThePermanentStall : Prop :=
  ∀ (s t : State) (st : Stimulus) (rest : List Stimulus), s.script = st :: rest → st ≠ .powerOn → Stalled s →
    step s = .next t → Stalled t

/-- R236: while reset is asserted no byte is latched or consumed, no command advances, no response appears and
`dsp_busy` stays, and pacing that is off stays off, under every atomic step from between two protocol steps until the
Release. (The spec derives this.) -/
def Obligations.ResetKeepsTheProtocolAndPacingOff : Prop :=
  ∀ (s t : State) (st : Stimulus) (rest : List Stimulus), s.script = st :: rest → st ≠ .powerOn →
    (∀ a, st = .bus a → decodePort s.params.ports a ≠ .ok (.portResetWr 0)) →
    s.resetState = true → s.dmaEnabled = false → s.pollOp ≠ .p2Next → s.pollOp ≠ .p3Next → step s = .next t →
    t.resetState = true ∧ t.dmaEnabled = false ∧ t.pollOp ≠ .p2Next ∧ t.pollOp ≠ .p3Next ∧
    t.currentCommand = s.currentCommand ∧ t.currentCommandIndex = s.currentCommandIndex ∧
    (s.davDsp = true → t.davDsp = true) ∧ t.dspBusy = s.dspBusy ∧ t.outbox = s.outbox ∧
    (s.davPc = false → t.davPc = false)
end

