-- ==== Sys2Proof/Laws/Decode.lean ====
section
/-! SUPPORT. The opcode map: the selection of P2 on each opcode of a well-formed map, and what a selection says of
the byte. -/

namespace Sys2Proof

/-- The default map meets the constraint of R104. -/
theorem defaultOpcodes_wellFormed : defaultOpcodes.WellFormed := by decide

/-- The default offsets tell the ports of each direction apart. -/
theorem defaultPorts_wellFormed : defaultPorts.WellFormed := by decide

/-- The opcodes of the rows are 0 and the fifteen of the map, in another order. -/
theorem opcodeRows_perm (m : OpcodeMap) : ((opcodeRows m).map Prod.fst).Perm (0 :: m.values) := by
  refine (List.perm_iff_count).2 fun b => ?_
  simp only [opcodeRows, OpcodeMap.values, List.map_cons, List.map_nil, List.count_cons, List.count_nil]
  omega

/-- A row of a list with distinct opcodes is the one its opcode selects. -/
theorem selectRow_of_mem (rows : List (Byte × Command)) (h : (rows.map Prod.fst).Nodup) (b : Byte) (c : Command)
    (hc : (b, c) ∈ rows) : selectRow rows b = c := by
  induction rows with
  | nil => simp at hc
  | cons row rest ih =>
    obtain ⟨o, d⟩ := row
    rw [List.map_cons, List.nodup_cons] at h
    rcases List.mem_cons.1 hc with heq | hrest
    · cases heq
      simp [selectRow]
    · have hne : b ≠ o := by
        rintro rfl
        exact h.1 (List.mem_map.2 ⟨(b, c), hrest, rfl⟩)
      rw [selectRow, if_neg hne, ih h.2 hrest]

/-- A selection is a row of the list, or the byte is no opcode of it. -/
theorem selectRow_cases (rows : List (Byte × Command)) (b : Byte) :
    (b, selectRow rows b) ∈ rows ∨ (selectRow rows b = .unknown ∧ b ∉ rows.map Prod.fst) := by
  induction rows with
  | nil => simp [selectRow]
  | cons row rest ih =>
    obtain ⟨o, d⟩ := row
    by_cases h : b = o
    · subst h
      simp [selectRow]
    · rw [selectRow, if_neg h]
      rcases ih with ih | ih
      · exact .inl (List.mem_cons_of_mem _ ih)
      · exact .inr ⟨ih.1, by simp [h, ih.2]⟩

/-- Under a well-formed map each row is selected by its opcode (R104, R173). -/
theorem classify_of_mem (m : OpcodeMap) (hm : m.WellFormed) (b : Byte) (c : Command) (h : (b, c) ∈ opcodeRows m) :
    classify m b = c :=
  selectRow_of_mem _ ((opcodeRows_perm m).nodup_iff.2 hm) _ _ h

/-- A selection is a row of the map, or the byte is neither 0x00 nor recognised and the command is unknown. -/
theorem classify_cases (m : OpcodeMap) (b : Byte) :
    (b, classify m b) ∈ opcodeRows m ∨ (classify m b = .unknown ∧ b ∉ 0 :: m.values) := by
  rcases selectRow_cases (opcodeRows m) b with h | h
  · exact .inl h
  · exact .inr ⟨h.1, fun hb => h.2 ((opcodeRows_perm m).mem_iff.2 hb)⟩

/-- A byte that is neither 0x00 nor recognised selects the unknown command (R106). -/
theorem classify_of_not_mem (m : OpcodeMap) (b : Byte) (h : b ∉ 0 :: m.values) : classify m b = .unknown := by
  rcases classify_cases m b with hb | hb
  · exact absurd ((opcodeRows_perm m).mem_iff.1 (List.mem_map.2 ⟨_, hb, rfl⟩)) h
  · exact hb.1

@[simp] theorem classify_zero (m : OpcodeMap) : classify m 0#8 = .idle := by simp [classify, opcodeRows, selectRow]

@[simp] theorem bytesOfWord_length (k w : Nat) : (bytesOfWord k w).length = k := by
  induction k generalizing w with
  | zero => rfl
  | succ k ih => simp [bytesOfWord, ih]

end Sys2Proof
end

