-- ==== Sys2Proof/Laws/State.lean ====
section
/-! SUPPORT. For each shared operation, what each field of the state is after it. -/

namespace Sys2Proof.Machine

/-! ### `raiseDiag` -/

@[simp] theorem raiseDiag_inbox (d : Diag) (s : State) : (raiseDiag d s).inbox = s.inbox := rfl
@[simp] theorem raiseDiag_outbox (d : Diag) (s : State) : (raiseDiag d s).outbox = s.outbox := rfl
@[simp] theorem raiseDiag_davPc (d : Diag) (s : State) : (raiseDiag d s).davPc = s.davPc := rfl
@[simp] theorem raiseDiag_davDsp (d : Diag) (s : State) : (raiseDiag d s).davDsp = s.davDsp := rfl
@[simp] theorem raiseDiag_dspBusy (d : Diag) (s : State) : (raiseDiag d s).dspBusy = s.dspBusy := rfl
@[simp] theorem raiseDiag_currentCommand (d : Diag) (s : State) : (raiseDiag d s).currentCommand = s.currentCommand := rfl
@[simp] theorem raiseDiag_currentCommandIndex (d : Diag) (s : State) : (raiseDiag d s).currentCommandIndex = s.currentCommandIndex := rfl
@[simp] theorem raiseDiag_testRegister (d : Diag) (s : State) : (raiseDiag d s).testRegister = s.testRegister := rfl
@[simp] theorem raiseDiag_dmaInterval (d : Diag) (s : State) : (raiseDiag d s).dmaInterval = s.dmaInterval := rfl
@[simp] theorem raiseDiag_dmaIntervalTrim (d : Diag) (s : State) : (raiseDiag d s).dmaIntervalTrim = s.dmaIntervalTrim := rfl
@[simp] theorem raiseDiag_dmaBlockSize (d : Diag) (s : State) : (raiseDiag d s).dmaBlockSize = s.dmaBlockSize := rfl
@[simp] theorem raiseDiag_dmaSampleCount (d : Diag) (s : State) : (raiseDiag d s).dmaSampleCount = s.dmaSampleCount := rfl
@[simp] theorem raiseDiag_dmaSampleCountRx (d : Diag) (s : State) : (raiseDiag d s).dmaSampleCountRx = s.dmaSampleCountRx := rfl
@[simp] theorem raiseDiag_timeConstant (d : Diag) (s : State) : (raiseDiag d s).timeConstant = s.timeConstant := rfl
@[simp] theorem raiseDiag_sampleRate (d : Diag) (s : State) : (raiseDiag d s).sampleRate = s.sampleRate := rfl
@[simp] theorem raiseDiag_sampleStep (d : Diag) (s : State) : (raiseDiag d s).sampleStep = s.sampleStep := rfl
@[simp] theorem raiseDiag_sampleFactor (d : Diag) (s : State) : (raiseDiag d s).sampleFactor = s.sampleFactor := rfl
@[simp] theorem raiseDiag_sampleOffset (d : Diag) (s : State) : (raiseDiag d s).sampleOffset = s.sampleOffset := rfl
@[simp] theorem raiseDiag_autoinit (d : Diag) (s : State) : (raiseDiag d s).autoinit = s.autoinit := rfl
@[simp] theorem raiseDiag_dmaEnabled (d : Diag) (s : State) : (raiseDiag d s).dmaEnabled = s.dmaEnabled := rfl
@[simp] theorem raiseDiag_resetState (d : Diag) (s : State) : (raiseDiag d s).resetState = s.resetState := rfl
@[simp] theorem raiseDiag_fifo (d : Diag) (s : State) : (raiseDiag d s).fifo = s.fifo := rfl
@[simp] theorem raiseDiag_head (d : Diag) (s : State) : (raiseDiag d s).head = s.head := rfl
@[simp] theorem raiseDiag_tail (d : Diag) (s : State) : (raiseDiag d s).tail = s.tail := rfl
@[simp] theorem raiseDiag_frameCount (d : Diag) (s : State) : (raiseDiag d s).frameCount = s.frameCount := rfl
@[simp] theorem raiseDiag_frame (d : Diag) (s : State) : (raiseDiag d s).frame = s.frame := rfl
@[simp] theorem raiseDiag_irq (d : Diag) (s : State) : (raiseDiag d s).irq = s.irq := rfl
@[simp] theorem raiseDiag_pacePending (d : Diag) (s : State) : (raiseDiag d s).pacePending = s.pacePending := rfl
@[simp] theorem raiseDiag_dmaReq (d : Diag) (s : State) : (raiseDiag d s).dmaReq = s.dmaReq := rfl
@[simp] theorem raiseDiag_diagLog (d : Diag) (s : State) : (raiseDiag d s).diagLog = s.diagLog ++ [d] := rfl
@[simp] theorem raiseDiag_irqAssertCount (d : Diag) (s : State) : (raiseDiag d s).irqAssertCount = s.irqAssertCount := rfl
@[simp] theorem raiseDiag_pollOp (d : Diag) (s : State) : (raiseDiag d s).pollOp = s.pollOp := rfl
@[simp] theorem raiseDiag_pullArmed (d : Diag) (s : State) : (raiseDiag d s).pullArmed = s.pullArmed := rfl
@[simp] theorem raiseDiag_n (d : Diag) (s : State) : (raiseDiag d s).n = s.n := rfl
@[simp] theorem raiseDiag_buf (d : Diag) (s : State) : (raiseDiag d s).buf = s.buf := rfl
@[simp] theorem raiseDiag_waitPolls (d : Diag) (s : State) : (raiseDiag d s).waitPolls = s.waitPolls := rfl
@[simp] theorem raiseDiag_params (d : Diag) (s : State) : (raiseDiag d s).params = s.params := rfl
@[simp] theorem raiseDiag_script (d : Diag) (s : State) : (raiseDiag d s).script = s.script := rfl
@[simp] theorem raiseDiag_draws (d : Diag) (s : State) : (raiseDiag d s).draws = s.draws := rfl
@[simp] theorem raiseDiag_answer (d : Diag) (s : State) : (raiseDiag d s).answer = s.answer := rfl

/-! ### `schedule` -/

@[simp] theorem schedule_inbox (d : Int) (s : State) : (schedule d s).inbox = s.inbox := rfl
@[simp] theorem schedule_outbox (d : Int) (s : State) : (schedule d s).outbox = s.outbox := rfl
@[simp] theorem schedule_davPc (d : Int) (s : State) : (schedule d s).davPc = s.davPc := rfl
@[simp] theorem schedule_davDsp (d : Int) (s : State) : (schedule d s).davDsp = s.davDsp := rfl
@[simp] theorem schedule_dspBusy (d : Int) (s : State) : (schedule d s).dspBusy = s.dspBusy := rfl
@[simp] theorem schedule_currentCommand (d : Int) (s : State) : (schedule d s).currentCommand = s.currentCommand := rfl
@[simp] theorem schedule_currentCommandIndex (d : Int) (s : State) : (schedule d s).currentCommandIndex = s.currentCommandIndex := rfl
@[simp] theorem schedule_testRegister (d : Int) (s : State) : (schedule d s).testRegister = s.testRegister := rfl
@[simp] theorem schedule_dmaInterval (d : Int) (s : State) : (schedule d s).dmaInterval = s.dmaInterval := rfl
@[simp] theorem schedule_dmaIntervalTrim (d : Int) (s : State) : (schedule d s).dmaIntervalTrim = s.dmaIntervalTrim := rfl
@[simp] theorem schedule_dmaBlockSize (d : Int) (s : State) : (schedule d s).dmaBlockSize = s.dmaBlockSize := rfl
@[simp] theorem schedule_dmaSampleCount (d : Int) (s : State) : (schedule d s).dmaSampleCount = s.dmaSampleCount := rfl
@[simp] theorem schedule_dmaSampleCountRx (d : Int) (s : State) : (schedule d s).dmaSampleCountRx = s.dmaSampleCountRx := rfl
@[simp] theorem schedule_timeConstant (d : Int) (s : State) : (schedule d s).timeConstant = s.timeConstant := rfl
@[simp] theorem schedule_sampleRate (d : Int) (s : State) : (schedule d s).sampleRate = s.sampleRate := rfl
@[simp] theorem schedule_sampleStep (d : Int) (s : State) : (schedule d s).sampleStep = s.sampleStep := rfl
@[simp] theorem schedule_sampleFactor (d : Int) (s : State) : (schedule d s).sampleFactor = s.sampleFactor := rfl
@[simp] theorem schedule_sampleOffset (d : Int) (s : State) : (schedule d s).sampleOffset = s.sampleOffset := rfl
@[simp] theorem schedule_autoinit (d : Int) (s : State) : (schedule d s).autoinit = s.autoinit := rfl
@[simp] theorem schedule_dmaEnabled (d : Int) (s : State) : (schedule d s).dmaEnabled = s.dmaEnabled := rfl
@[simp] theorem schedule_resetState (d : Int) (s : State) : (schedule d s).resetState = s.resetState := rfl
@[simp] theorem schedule_fifo (d : Int) (s : State) : (schedule d s).fifo = s.fifo := rfl
@[simp] theorem schedule_head (d : Int) (s : State) : (schedule d s).head = s.head := rfl
@[simp] theorem schedule_tail (d : Int) (s : State) : (schedule d s).tail = s.tail := rfl
@[simp] theorem schedule_frameCount (d : Int) (s : State) : (schedule d s).frameCount = s.frameCount := rfl
@[simp] theorem schedule_frame (d : Int) (s : State) : (schedule d s).frame = s.frame := rfl
@[simp] theorem schedule_irq (d : Int) (s : State) : (schedule d s).irq = s.irq := rfl
@[simp] theorem schedule_pacePending (d : Int) (s : State) : (schedule d s).pacePending = some d := rfl
@[simp] theorem schedule_dmaReq (d : Int) (s : State) : (schedule d s).dmaReq = s.dmaReq := rfl
@[simp] theorem schedule_diagLog (d : Int) (s : State) : (schedule d s).diagLog = s.diagLog := rfl
@[simp] theorem schedule_irqAssertCount (d : Int) (s : State) : (schedule d s).irqAssertCount = s.irqAssertCount := rfl
@[simp] theorem schedule_pollOp (d : Int) (s : State) : (schedule d s).pollOp = s.pollOp := rfl
@[simp] theorem schedule_pullArmed (d : Int) (s : State) : (schedule d s).pullArmed = s.pullArmed := rfl
@[simp] theorem schedule_n (d : Int) (s : State) : (schedule d s).n = s.n := rfl
@[simp] theorem schedule_buf (d : Int) (s : State) : (schedule d s).buf = s.buf := rfl
@[simp] theorem schedule_waitPolls (d : Int) (s : State) : (schedule d s).waitPolls = s.waitPolls := rfl
@[simp] theorem schedule_params (d : Int) (s : State) : (schedule d s).params = s.params := rfl
@[simp] theorem schedule_script (d : Int) (s : State) : (schedule d s).script = s.script := rfl
@[simp] theorem schedule_draws (d : Int) (s : State) : (schedule d s).draws = s.draws := rfl
@[simp] theorem schedule_answer (d : Int) (s : State) : (schedule d s).answer = s.answer := rfl

/-! ### `cancel` -/

@[simp] theorem cancel_inbox (s : State) : (cancel s).inbox = s.inbox := rfl
@[simp] theorem cancel_outbox (s : State) : (cancel s).outbox = s.outbox := rfl
@[simp] theorem cancel_davPc (s : State) : (cancel s).davPc = s.davPc := rfl
@[simp] theorem cancel_davDsp (s : State) : (cancel s).davDsp = s.davDsp := rfl
@[simp] theorem cancel_dspBusy (s : State) : (cancel s).dspBusy = s.dspBusy := rfl
@[simp] theorem cancel_currentCommand (s : State) : (cancel s).currentCommand = s.currentCommand := rfl
@[simp] theorem cancel_currentCommandIndex (s : State) : (cancel s).currentCommandIndex = s.currentCommandIndex := rfl
@[simp] theorem cancel_testRegister (s : State) : (cancel s).testRegister = s.testRegister := rfl
@[simp] theorem cancel_dmaInterval (s : State) : (cancel s).dmaInterval = s.dmaInterval := rfl
@[simp] theorem cancel_dmaIntervalTrim (s : State) : (cancel s).dmaIntervalTrim = s.dmaIntervalTrim := rfl
@[simp] theorem cancel_dmaBlockSize (s : State) : (cancel s).dmaBlockSize = s.dmaBlockSize := rfl
@[simp] theorem cancel_dmaSampleCount (s : State) : (cancel s).dmaSampleCount = s.dmaSampleCount := rfl
@[simp] theorem cancel_dmaSampleCountRx (s : State) : (cancel s).dmaSampleCountRx = s.dmaSampleCountRx := rfl
@[simp] theorem cancel_timeConstant (s : State) : (cancel s).timeConstant = s.timeConstant := rfl
@[simp] theorem cancel_sampleRate (s : State) : (cancel s).sampleRate = s.sampleRate := rfl
@[simp] theorem cancel_sampleStep (s : State) : (cancel s).sampleStep = s.sampleStep := rfl
@[simp] theorem cancel_sampleFactor (s : State) : (cancel s).sampleFactor = s.sampleFactor := rfl
@[simp] theorem cancel_sampleOffset (s : State) : (cancel s).sampleOffset = s.sampleOffset := rfl
@[simp] theorem cancel_autoinit (s : State) : (cancel s).autoinit = s.autoinit := rfl
@[simp] theorem cancel_dmaEnabled (s : State) : (cancel s).dmaEnabled = s.dmaEnabled := rfl
@[simp] theorem cancel_resetState (s : State) : (cancel s).resetState = s.resetState := rfl
@[simp] theorem cancel_fifo (s : State) : (cancel s).fifo = s.fifo := rfl
@[simp] theorem cancel_head (s : State) : (cancel s).head = s.head := rfl
@[simp] theorem cancel_tail (s : State) : (cancel s).tail = s.tail := rfl
@[simp] theorem cancel_frameCount (s : State) : (cancel s).frameCount = s.frameCount := rfl
@[simp] theorem cancel_frame (s : State) : (cancel s).frame = s.frame := rfl
@[simp] theorem cancel_irq (s : State) : (cancel s).irq = s.irq := rfl
@[simp] theorem cancel_pacePending (s : State) : (cancel s).pacePending = none := rfl
@[simp] theorem cancel_dmaReq (s : State) : (cancel s).dmaReq = s.dmaReq := rfl
@[simp] theorem cancel_diagLog (s : State) : (cancel s).diagLog = s.diagLog := rfl
@[simp] theorem cancel_irqAssertCount (s : State) : (cancel s).irqAssertCount = s.irqAssertCount := rfl
@[simp] theorem cancel_pollOp (s : State) : (cancel s).pollOp = s.pollOp := rfl
@[simp] theorem cancel_pullArmed (s : State) : (cancel s).pullArmed = s.pullArmed := rfl
@[simp] theorem cancel_n (s : State) : (cancel s).n = s.n := rfl
@[simp] theorem cancel_buf (s : State) : (cancel s).buf = s.buf := rfl
@[simp] theorem cancel_waitPolls (s : State) : (cancel s).waitPolls = s.waitPolls := rfl
@[simp] theorem cancel_params (s : State) : (cancel s).params = s.params := rfl
@[simp] theorem cancel_script (s : State) : (cancel s).script = s.script := rfl
@[simp] theorem cancel_draws (s : State) : (cancel s).draws = s.draws := rfl
@[simp] theorem cancel_answer (s : State) : (cancel s).answer = s.answer := rfl

/-! ### `assertIrq` -/

@[simp] theorem assertIrq_inbox (s : State) : (assertIrq s).inbox = s.inbox := rfl
@[simp] theorem assertIrq_outbox (s : State) : (assertIrq s).outbox = s.outbox := rfl
@[simp] theorem assertIrq_davPc (s : State) : (assertIrq s).davPc = s.davPc := rfl
@[simp] theorem assertIrq_davDsp (s : State) : (assertIrq s).davDsp = s.davDsp := rfl
@[simp] theorem assertIrq_dspBusy (s : State) : (assertIrq s).dspBusy = s.dspBusy := rfl
@[simp] theorem assertIrq_currentCommand (s : State) : (assertIrq s).currentCommand = s.currentCommand := rfl
@[simp] theorem assertIrq_currentCommandIndex (s : State) : (assertIrq s).currentCommandIndex = s.currentCommandIndex := rfl
@[simp] theorem assertIrq_testRegister (s : State) : (assertIrq s).testRegister = s.testRegister := rfl
@[simp] theorem assertIrq_dmaInterval (s : State) : (assertIrq s).dmaInterval = s.dmaInterval := rfl
@[simp] theorem assertIrq_dmaIntervalTrim (s : State) : (assertIrq s).dmaIntervalTrim = s.dmaIntervalTrim := rfl
@[simp] theorem assertIrq_dmaBlockSize (s : State) : (assertIrq s).dmaBlockSize = s.dmaBlockSize := rfl
@[simp] theorem assertIrq_dmaSampleCount (s : State) : (assertIrq s).dmaSampleCount = s.dmaSampleCount := rfl
@[simp] theorem assertIrq_dmaSampleCountRx (s : State) : (assertIrq s).dmaSampleCountRx = s.dmaSampleCountRx := rfl
@[simp] theorem assertIrq_timeConstant (s : State) : (assertIrq s).timeConstant = s.timeConstant := rfl
@[simp] theorem assertIrq_sampleRate (s : State) : (assertIrq s).sampleRate = s.sampleRate := rfl
@[simp] theorem assertIrq_sampleStep (s : State) : (assertIrq s).sampleStep = s.sampleStep := rfl
@[simp] theorem assertIrq_sampleFactor (s : State) : (assertIrq s).sampleFactor = s.sampleFactor := rfl
@[simp] theorem assertIrq_sampleOffset (s : State) : (assertIrq s).sampleOffset = s.sampleOffset := rfl
@[simp] theorem assertIrq_autoinit (s : State) : (assertIrq s).autoinit = s.autoinit := rfl
@[simp] theorem assertIrq_dmaEnabled (s : State) : (assertIrq s).dmaEnabled = s.dmaEnabled := rfl
@[simp] theorem assertIrq_resetState (s : State) : (assertIrq s).resetState = s.resetState := rfl
@[simp] theorem assertIrq_fifo (s : State) : (assertIrq s).fifo = s.fifo := rfl
@[simp] theorem assertIrq_head (s : State) : (assertIrq s).head = s.head := rfl
@[simp] theorem assertIrq_tail (s : State) : (assertIrq s).tail = s.tail := rfl
@[simp] theorem assertIrq_frameCount (s : State) : (assertIrq s).frameCount = s.frameCount := rfl
@[simp] theorem assertIrq_frame (s : State) : (assertIrq s).frame = s.frame := rfl
@[simp] theorem assertIrq_irq (s : State) : (assertIrq s).irq = true := rfl
@[simp] theorem assertIrq_pacePending (s : State) : (assertIrq s).pacePending = s.pacePending := rfl
@[simp] theorem assertIrq_dmaReq (s : State) : (assertIrq s).dmaReq = s.dmaReq := rfl
@[simp] theorem assertIrq_diagLog (s : State) : (assertIrq s).diagLog = s.diagLog := rfl
@[simp] theorem assertIrq_irqAssertCount (s : State) : (assertIrq s).irqAssertCount = s.irqAssertCount + 1 := rfl
@[simp] theorem assertIrq_pollOp (s : State) : (assertIrq s).pollOp = s.pollOp := rfl
@[simp] theorem assertIrq_pullArmed (s : State) : (assertIrq s).pullArmed = s.pullArmed := rfl
@[simp] theorem assertIrq_n (s : State) : (assertIrq s).n = s.n := rfl
@[simp] theorem assertIrq_buf (s : State) : (assertIrq s).buf = s.buf := rfl
@[simp] theorem assertIrq_waitPolls (s : State) : (assertIrq s).waitPolls = s.waitPolls := rfl
@[simp] theorem assertIrq_params (s : State) : (assertIrq s).params = s.params := rfl
@[simp] theorem assertIrq_script (s : State) : (assertIrq s).script = s.script := rfl
@[simp] theorem assertIrq_draws (s : State) : (assertIrq s).draws = s.draws := rfl
@[simp] theorem assertIrq_answer (s : State) : (assertIrq s).answer = s.answer := rfl

/-! ### `deassertIrq` -/

@[simp] theorem deassertIrq_inbox (s : State) : (deassertIrq s).inbox = s.inbox := rfl
@[simp] theorem deassertIrq_outbox (s : State) : (deassertIrq s).outbox = s.outbox := rfl
@[simp] theorem deassertIrq_davPc (s : State) : (deassertIrq s).davPc = s.davPc := rfl
@[simp] theorem deassertIrq_davDsp (s : State) : (deassertIrq s).davDsp = s.davDsp := rfl
@[simp] theorem deassertIrq_dspBusy (s : State) : (deassertIrq s).dspBusy = s.dspBusy := rfl
@[simp] theorem deassertIrq_currentCommand (s : State) : (deassertIrq s).currentCommand = s.currentCommand := rfl
@[simp] theorem deassertIrq_currentCommandIndex (s : State) : (deassertIrq s).currentCommandIndex = s.currentCommandIndex := rfl
@[simp] theorem deassertIrq_testRegister (s : State) : (deassertIrq s).testRegister = s.testRegister := rfl
@[simp] theorem deassertIrq_dmaInterval (s : State) : (deassertIrq s).dmaInterval = s.dmaInterval := rfl
@[simp] theorem deassertIrq_dmaIntervalTrim (s : State) : (deassertIrq s).dmaIntervalTrim = s.dmaIntervalTrim := rfl
@[simp] theorem deassertIrq_dmaBlockSize (s : State) : (deassertIrq s).dmaBlockSize = s.dmaBlockSize := rfl
@[simp] theorem deassertIrq_dmaSampleCount (s : State) : (deassertIrq s).dmaSampleCount = s.dmaSampleCount := rfl
@[simp] theorem deassertIrq_dmaSampleCountRx (s : State) : (deassertIrq s).dmaSampleCountRx = s.dmaSampleCountRx := rfl
@[simp] theorem deassertIrq_timeConstant (s : State) : (deassertIrq s).timeConstant = s.timeConstant := rfl
@[simp] theorem deassertIrq_sampleRate (s : State) : (deassertIrq s).sampleRate = s.sampleRate := rfl
@[simp] theorem deassertIrq_sampleStep (s : State) : (deassertIrq s).sampleStep = s.sampleStep := rfl
@[simp] theorem deassertIrq_sampleFactor (s : State) : (deassertIrq s).sampleFactor = s.sampleFactor := rfl
@[simp] theorem deassertIrq_sampleOffset (s : State) : (deassertIrq s).sampleOffset = s.sampleOffset := rfl
@[simp] theorem deassertIrq_autoinit (s : State) : (deassertIrq s).autoinit = s.autoinit := rfl
@[simp] theorem deassertIrq_dmaEnabled (s : State) : (deassertIrq s).dmaEnabled = s.dmaEnabled := rfl
@[simp] theorem deassertIrq_resetState (s : State) : (deassertIrq s).resetState = s.resetState := rfl
@[simp] theorem deassertIrq_fifo (s : State) : (deassertIrq s).fifo = s.fifo := rfl
@[simp] theorem deassertIrq_head (s : State) : (deassertIrq s).head = s.head := rfl
@[simp] theorem deassertIrq_tail (s : State) : (deassertIrq s).tail = s.tail := rfl
@[simp] theorem deassertIrq_frameCount (s : State) : (deassertIrq s).frameCount = s.frameCount := rfl
@[simp] theorem deassertIrq_frame (s : State) : (deassertIrq s).frame = s.frame := rfl
@[simp] theorem deassertIrq_irq (s : State) : (deassertIrq s).irq = false := rfl
@[simp] theorem deassertIrq_pacePending (s : State) : (deassertIrq s).pacePending = s.pacePending := rfl
@[simp] theorem deassertIrq_dmaReq (s : State) : (deassertIrq s).dmaReq = s.dmaReq := rfl
@[simp] theorem deassertIrq_diagLog (s : State) : (deassertIrq s).diagLog = s.diagLog := rfl
@[simp] theorem deassertIrq_irqAssertCount (s : State) : (deassertIrq s).irqAssertCount = s.irqAssertCount := rfl
@[simp] theorem deassertIrq_pollOp (s : State) : (deassertIrq s).pollOp = s.pollOp := rfl
@[simp] theorem deassertIrq_pullArmed (s : State) : (deassertIrq s).pullArmed = s.pullArmed := rfl
@[simp] theorem deassertIrq_n (s : State) : (deassertIrq s).n = s.n := rfl
@[simp] theorem deassertIrq_buf (s : State) : (deassertIrq s).buf = s.buf := rfl
@[simp] theorem deassertIrq_waitPolls (s : State) : (deassertIrq s).waitPolls = s.waitPolls := rfl
@[simp] theorem deassertIrq_params (s : State) : (deassertIrq s).params = s.params := rfl
@[simp] theorem deassertIrq_script (s : State) : (deassertIrq s).script = s.script := rfl
@[simp] theorem deassertIrq_draws (s : State) : (deassertIrq s).draws = s.draws := rfl
@[simp] theorem deassertIrq_answer (s : State) : (deassertIrq s).answer = s.answer := rfl

/-! ### `beginTransfer` -/

@[simp] theorem beginTransfer_inbox (s : State) : (beginTransfer s).inbox = s.inbox := rfl
@[simp] theorem beginTransfer_outbox (s : State) : (beginTransfer s).outbox = s.outbox := rfl
@[simp] theorem beginTransfer_davPc (s : State) : (beginTransfer s).davPc = s.davPc := rfl
@[simp] theorem beginTransfer_davDsp (s : State) : (beginTransfer s).davDsp = s.davDsp := rfl
@[simp] theorem beginTransfer_dspBusy (s : State) : (beginTransfer s).dspBusy = s.dspBusy := rfl
@[simp] theorem beginTransfer_currentCommand (s : State) : (beginTransfer s).currentCommand = s.currentCommand := rfl
@[simp] theorem beginTransfer_currentCommandIndex (s : State) : (beginTransfer s).currentCommandIndex = s.currentCommandIndex := rfl
@[simp] theorem beginTransfer_testRegister (s : State) : (beginTransfer s).testRegister = s.testRegister := rfl
@[simp] theorem beginTransfer_dmaInterval (s : State) : (beginTransfer s).dmaInterval = s.dmaInterval := rfl
@[simp] theorem beginTransfer_dmaIntervalTrim (s : State) : (beginTransfer s).dmaIntervalTrim = s.dmaIntervalTrim := rfl
@[simp] theorem beginTransfer_dmaBlockSize (s : State) : (beginTransfer s).dmaBlockSize = s.dmaBlockSize := rfl
@[simp] theorem beginTransfer_dmaSampleCount (s : State) : (beginTransfer s).dmaSampleCount = s.dmaSampleCount := rfl
@[simp] theorem beginTransfer_dmaSampleCountRx (s : State) : (beginTransfer s).dmaSampleCountRx = s.dmaSampleCountRx := rfl
@[simp] theorem beginTransfer_timeConstant (s : State) : (beginTransfer s).timeConstant = s.timeConstant := rfl
@[simp] theorem beginTransfer_sampleRate (s : State) : (beginTransfer s).sampleRate = s.sampleRate := rfl
@[simp] theorem beginTransfer_sampleStep (s : State) : (beginTransfer s).sampleStep = s.sampleStep := rfl
@[simp] theorem beginTransfer_sampleFactor (s : State) : (beginTransfer s).sampleFactor = s.sampleFactor := rfl
@[simp] theorem beginTransfer_sampleOffset (s : State) : (beginTransfer s).sampleOffset = s.sampleOffset := rfl
@[simp] theorem beginTransfer_autoinit (s : State) : (beginTransfer s).autoinit = s.autoinit := rfl
@[simp] theorem beginTransfer_dmaEnabled (s : State) : (beginTransfer s).dmaEnabled = s.dmaEnabled := rfl
@[simp] theorem beginTransfer_resetState (s : State) : (beginTransfer s).resetState = s.resetState := rfl
@[simp] theorem beginTransfer_fifo (s : State) : (beginTransfer s).fifo = s.fifo := rfl
@[simp] theorem beginTransfer_head (s : State) : (beginTransfer s).head = s.head := rfl
@[simp] theorem beginTransfer_tail (s : State) : (beginTransfer s).tail = s.tail := rfl
@[simp] theorem beginTransfer_frameCount (s : State) : (beginTransfer s).frameCount = s.frameCount := rfl
@[simp] theorem beginTransfer_frame (s : State) : (beginTransfer s).frame = s.frame := rfl
@[simp] theorem beginTransfer_irq (s : State) : (beginTransfer s).irq = s.irq := rfl
@[simp] theorem beginTransfer_pacePending (s : State) : (beginTransfer s).pacePending = s.pacePending := rfl
@[simp] theorem beginTransfer_dmaReq (s : State) : (beginTransfer s).dmaReq = true := rfl
@[simp] theorem beginTransfer_diagLog (s : State) : (beginTransfer s).diagLog = s.diagLog := rfl
@[simp] theorem beginTransfer_irqAssertCount (s : State) : (beginTransfer s).irqAssertCount = s.irqAssertCount := rfl
@[simp] theorem beginTransfer_pollOp (s : State) : (beginTransfer s).pollOp = s.pollOp := rfl
@[simp] theorem beginTransfer_pullArmed (s : State) : (beginTransfer s).pullArmed = s.pullArmed := rfl
@[simp] theorem beginTransfer_n (s : State) : (beginTransfer s).n = s.n := rfl
@[simp] theorem beginTransfer_buf (s : State) : (beginTransfer s).buf = s.buf := rfl
@[simp] theorem beginTransfer_waitPolls (s : State) : (beginTransfer s).waitPolls = s.waitPolls := rfl
@[simp] theorem beginTransfer_params (s : State) : (beginTransfer s).params = s.params := rfl
@[simp] theorem beginTransfer_script (s : State) : (beginTransfer s).script = s.script := rfl
@[simp] theorem beginTransfer_draws (s : State) : (beginTransfer s).draws = s.draws := rfl
@[simp] theorem beginTransfer_answer (s : State) : (beginTransfer s).answer = s.answer := rfl

/-! ### `answerWith` -/

@[simp] theorem answerWith_inbox (a : Answer) (s : State) : (answerWith a s).inbox = s.inbox := rfl
@[simp] theorem answerWith_outbox (a : Answer) (s : State) : (answerWith a s).outbox = s.outbox := rfl
@[simp] theorem answerWith_davPc (a : Answer) (s : State) : (answerWith a s).davPc = s.davPc := rfl
@[simp] theorem answerWith_davDsp (a : Answer) (s : State) : (answerWith a s).davDsp = s.davDsp := rfl
@[simp] theorem answerWith_dspBusy (a : Answer) (s : State) : (answerWith a s).dspBusy = s.dspBusy := rfl
@[simp] theorem answerWith_currentCommand (a : Answer) (s : State) : (answerWith a s).currentCommand = s.currentCommand := rfl
@[simp] theorem answerWith_currentCommandIndex (a : Answer) (s : State) : (answerWith a s).currentCommandIndex = s.currentCommandIndex := rfl
@[simp] theorem answerWith_testRegister (a : Answer) (s : State) : (answerWith a s).testRegister = s.testRegister := rfl
@[simp] theorem answerWith_dmaInterval (a : Answer) (s : State) : (answerWith a s).dmaInterval = s.dmaInterval := rfl
@[simp] theorem answerWith_dmaIntervalTrim (a : Answer) (s : State) : (answerWith a s).dmaIntervalTrim = s.dmaIntervalTrim := rfl
@[simp] theorem answerWith_dmaBlockSize (a : Answer) (s : State) : (answerWith a s).dmaBlockSize = s.dmaBlockSize := rfl
@[simp] theorem answerWith_dmaSampleCount (a : Answer) (s : State) : (answerWith a s).dmaSampleCount = s.dmaSampleCount := rfl
@[simp] theorem answerWith_dmaSampleCountRx (a : Answer) (s : State) : (answerWith a s).dmaSampleCountRx = s.dmaSampleCountRx := rfl
@[simp] theorem answerWith_timeConstant (a : Answer) (s : State) : (answerWith a s).timeConstant = s.timeConstant := rfl
@[simp] theorem answerWith_sampleRate (a : Answer) (s : State) : (answerWith a s).sampleRate = s.sampleRate := rfl
@[simp] theorem answerWith_sampleStep (a : Answer) (s : State) : (answerWith a s).sampleStep = s.sampleStep := rfl
@[simp] theorem answerWith_sampleFactor (a : Answer) (s : State) : (answerWith a s).sampleFactor = s.sampleFactor := rfl
@[simp] theorem answerWith_sampleOffset (a : Answer) (s : State) : (answerWith a s).sampleOffset = s.sampleOffset := rfl
@[simp] theorem answerWith_autoinit (a : Answer) (s : State) : (answerWith a s).autoinit = s.autoinit := rfl
@[simp] theorem answerWith_dmaEnabled (a : Answer) (s : State) : (answerWith a s).dmaEnabled = s.dmaEnabled := rfl
@[simp] theorem answerWith_resetState (a : Answer) (s : State) : (answerWith a s).resetState = s.resetState := rfl
@[simp] theorem answerWith_fifo (a : Answer) (s : State) : (answerWith a s).fifo = s.fifo := rfl
@[simp] theorem answerWith_head (a : Answer) (s : State) : (answerWith a s).head = s.head := rfl
@[simp] theorem answerWith_tail (a : Answer) (s : State) : (answerWith a s).tail = s.tail := rfl
@[simp] theorem answerWith_frameCount (a : Answer) (s : State) : (answerWith a s).frameCount = s.frameCount := rfl
@[simp] theorem answerWith_frame (a : Answer) (s : State) : (answerWith a s).frame = s.frame := rfl
@[simp] theorem answerWith_irq (a : Answer) (s : State) : (answerWith a s).irq = s.irq := rfl
@[simp] theorem answerWith_pacePending (a : Answer) (s : State) : (answerWith a s).pacePending = s.pacePending := rfl
@[simp] theorem answerWith_dmaReq (a : Answer) (s : State) : (answerWith a s).dmaReq = s.dmaReq := rfl
@[simp] theorem answerWith_diagLog (a : Answer) (s : State) : (answerWith a s).diagLog = s.diagLog := rfl
@[simp] theorem answerWith_irqAssertCount (a : Answer) (s : State) : (answerWith a s).irqAssertCount = s.irqAssertCount := rfl
@[simp] theorem answerWith_pollOp (a : Answer) (s : State) : (answerWith a s).pollOp = s.pollOp := rfl
@[simp] theorem answerWith_pullArmed (a : Answer) (s : State) : (answerWith a s).pullArmed = s.pullArmed := rfl
@[simp] theorem answerWith_n (a : Answer) (s : State) : (answerWith a s).n = s.n := rfl
@[simp] theorem answerWith_buf (a : Answer) (s : State) : (answerWith a s).buf = s.buf := rfl
@[simp] theorem answerWith_waitPolls (a : Answer) (s : State) : (answerWith a s).waitPolls = s.waitPolls := rfl
@[simp] theorem answerWith_params (a : Answer) (s : State) : (answerWith a s).params = s.params := rfl
@[simp] theorem answerWith_script (a : Answer) (s : State) : (answerWith a s).script = s.script := rfl
@[simp] theorem answerWith_draws (a : Answer) (s : State) : (answerWith a s).draws = s.draws := rfl
@[simp] theorem answerWith_answer (a : Answer) (s : State) : (answerWith a s).answer = a := rfl

/-! ### `notEnabled` -/

@[simp] theorem notEnabled_inbox (s : State) : (notEnabled s).inbox = s.inbox := rfl
@[simp] theorem notEnabled_outbox (s : State) : (notEnabled s).outbox = s.outbox := rfl
@[simp] theorem notEnabled_davPc (s : State) : (notEnabled s).davPc = s.davPc := rfl
@[simp] theorem notEnabled_davDsp (s : State) : (notEnabled s).davDsp = s.davDsp := rfl
@[simp] theorem notEnabled_dspBusy (s : State) : (notEnabled s).dspBusy = s.dspBusy := rfl
@[simp] theorem notEnabled_currentCommand (s : State) : (notEnabled s).currentCommand = s.currentCommand := rfl
@[simp] theorem notEnabled_currentCommandIndex (s : State) : (notEnabled s).currentCommandIndex = s.currentCommandIndex := rfl
@[simp] theorem notEnabled_testRegister (s : State) : (notEnabled s).testRegister = s.testRegister := rfl
@[simp] theorem notEnabled_dmaInterval (s : State) : (notEnabled s).dmaInterval = s.dmaInterval := rfl
@[simp] theorem notEnabled_dmaIntervalTrim (s : State) : (notEnabled s).dmaIntervalTrim = s.dmaIntervalTrim := rfl
@[simp] theorem notEnabled_dmaBlockSize (s : State) : (notEnabled s).dmaBlockSize = s.dmaBlockSize := rfl
@[simp] theorem notEnabled_dmaSampleCount (s : State) : (notEnabled s).dmaSampleCount = s.dmaSampleCount := rfl
@[simp] theorem notEnabled_dmaSampleCountRx (s : State) : (notEnabled s).dmaSampleCountRx = s.dmaSampleCountRx := rfl
@[simp] theorem notEnabled_timeConstant (s : State) : (notEnabled s).timeConstant = s.timeConstant := rfl
@[simp] theorem notEnabled_sampleRate (s : State) : (notEnabled s).sampleRate = s.sampleRate := rfl
@[simp] theorem notEnabled_sampleStep (s : State) : (notEnabled s).sampleStep = s.sampleStep := rfl
@[simp] theorem notEnabled_sampleFactor (s : State) : (notEnabled s).sampleFactor = s.sampleFactor := rfl
@[simp] theorem notEnabled_sampleOffset (s : State) : (notEnabled s).sampleOffset = s.sampleOffset := rfl
@[simp] theorem notEnabled_autoinit (s : State) : (notEnabled s).autoinit = s.autoinit := rfl
@[simp] theorem notEnabled_dmaEnabled (s : State) : (notEnabled s).dmaEnabled = s.dmaEnabled := rfl
@[simp] theorem notEnabled_resetState (s : State) : (notEnabled s).resetState = s.resetState := rfl
@[simp] theorem notEnabled_fifo (s : State) : (notEnabled s).fifo = s.fifo := rfl
@[simp] theorem notEnabled_head (s : State) : (notEnabled s).head = s.head := rfl
@[simp] theorem notEnabled_tail (s : State) : (notEnabled s).tail = s.tail := rfl
@[simp] theorem notEnabled_frameCount (s : State) : (notEnabled s).frameCount = s.frameCount := rfl
@[simp] theorem notEnabled_frame (s : State) : (notEnabled s).frame = s.frame := rfl
@[simp] theorem notEnabled_irq (s : State) : (notEnabled s).irq = s.irq := rfl
@[simp] theorem notEnabled_pacePending (s : State) : (notEnabled s).pacePending = s.pacePending := rfl
@[simp] theorem notEnabled_dmaReq (s : State) : (notEnabled s).dmaReq = s.dmaReq := rfl
@[simp] theorem notEnabled_diagLog (s : State) : (notEnabled s).diagLog = s.diagLog := rfl
@[simp] theorem notEnabled_irqAssertCount (s : State) : (notEnabled s).irqAssertCount = s.irqAssertCount := rfl
@[simp] theorem notEnabled_pollOp (s : State) : (notEnabled s).pollOp = s.pollOp := rfl
@[simp] theorem notEnabled_pullArmed (s : State) : (notEnabled s).pullArmed = s.pullArmed := rfl
@[simp] theorem notEnabled_n (s : State) : (notEnabled s).n = s.n := rfl
@[simp] theorem notEnabled_buf (s : State) : (notEnabled s).buf = s.buf := rfl
@[simp] theorem notEnabled_waitPolls (s : State) : (notEnabled s).waitPolls = s.waitPolls := rfl
@[simp] theorem notEnabled_params (s : State) : (notEnabled s).params = s.params := rfl
@[simp] theorem notEnabled_script (s : State) : (notEnabled s).script = s.script := rfl
@[simp] theorem notEnabled_draws (s : State) : (notEnabled s).draws = s.draws := rfl
@[simp] theorem notEnabled_answer (s : State) : (notEnabled s).answer = .notEnabled := rfl

/-! ### `fifoWrite` -/

@[simp] theorem fifoWrite_inbox (a : Index) (v : Byte) (s : State) : (fifoWrite a v s).inbox = s.inbox := rfl
@[simp] theorem fifoWrite_outbox (a : Index) (v : Byte) (s : State) : (fifoWrite a v s).outbox = s.outbox := rfl
@[simp] theorem fifoWrite_davPc (a : Index) (v : Byte) (s : State) : (fifoWrite a v s).davPc = s.davPc := rfl
@[simp] theorem fifoWrite_davDsp (a : Index) (v : Byte) (s : State) : (fifoWrite a v s).davDsp = s.davDsp := rfl
@[simp] theorem fifoWrite_dspBusy (a : Index) (v : Byte) (s : State) : (fifoWrite a v s).dspBusy = s.dspBusy := rfl
@[simp] theorem fifoWrite_currentCommand (a : Index) (v : Byte) (s : State) : (fifoWrite a v s).currentCommand = s.currentCommand := rfl
@[simp] theorem fifoWrite_currentCommandIndex (a : Index) (v : Byte) (s : State) : (fifoWrite a v s).currentCommandIndex = s.currentCommandIndex := rfl
@[simp] theorem fifoWrite_testRegister (a : Index) (v : Byte) (s : State) : (fifoWrite a v s).testRegister = s.testRegister := rfl
@[simp] theorem fifoWrite_dmaInterval (a : Index) (v : Byte) (s : State) : (fifoWrite a v s).dmaInterval = s.dmaInterval := rfl
@[simp] theorem fifoWrite_dmaIntervalTrim (a : Index) (v : Byte) (s : State) : (fifoWrite a v s).dmaIntervalTrim = s.dmaIntervalTrim := rfl
@[simp] theorem fifoWrite_dmaBlockSize (a : Index) (v : Byte) (s : State) : (fifoWrite a v s).dmaBlockSize = s.dmaBlockSize := rfl
@[simp] theorem fifoWrite_dmaSampleCount (a : Index) (v : Byte) (s : State) : (fifoWrite a v s).dmaSampleCount = s.dmaSampleCount := rfl
@[simp] theorem fifoWrite_dmaSampleCountRx (a : Index) (v : Byte) (s : State) : (fifoWrite a v s).dmaSampleCountRx = s.dmaSampleCountRx := rfl
@[simp] theorem fifoWrite_timeConstant (a : Index) (v : Byte) (s : State) : (fifoWrite a v s).timeConstant = s.timeConstant := rfl
@[simp] theorem fifoWrite_sampleRate (a : Index) (v : Byte) (s : State) : (fifoWrite a v s).sampleRate = s.sampleRate := rfl
@[simp] theorem fifoWrite_sampleStep (a : Index) (v : Byte) (s : State) : (fifoWrite a v s).sampleStep = s.sampleStep := rfl
@[simp] theorem fifoWrite_sampleFactor (a : Index) (v : Byte) (s : State) : (fifoWrite a v s).sampleFactor = s.sampleFactor := rfl
@[simp] theorem fifoWrite_sampleOffset (a : Index) (v : Byte) (s : State) : (fifoWrite a v s).sampleOffset = s.sampleOffset := rfl
@[simp] theorem fifoWrite_autoinit (a : Index) (v : Byte) (s : State) : (fifoWrite a v s).autoinit = s.autoinit := rfl
@[simp] theorem fifoWrite_dmaEnabled (a : Index) (v : Byte) (s : State) : (fifoWrite a v s).dmaEnabled = s.dmaEnabled := rfl
@[simp] theorem fifoWrite_resetState (a : Index) (v : Byte) (s : State) : (fifoWrite a v s).resetState = s.resetState := rfl
@[simp] theorem fifoWrite_fifo (a : Index) (v : Byte) (s : State) : (fifoWrite a v s).fifo = Memory.write s.fifo a.toNat v := rfl
@[simp] theorem fifoWrite_head (a : Index) (v : Byte) (s : State) : (fifoWrite a v s).head = s.head := rfl
@[simp] theorem fifoWrite_tail (a : Index) (v : Byte) (s : State) : (fifoWrite a v s).tail = s.tail := rfl
@[simp] theorem fifoWrite_frameCount (a : Index) (v : Byte) (s : State) : (fifoWrite a v s).frameCount = s.frameCount := rfl
@[simp] theorem fifoWrite_frame (a : Index) (v : Byte) (s : State) : (fifoWrite a v s).frame = s.frame := rfl
@[simp] theorem fifoWrite_irq (a : Index) (v : Byte) (s : State) : (fifoWrite a v s).irq = s.irq := rfl
@[simp] theorem fifoWrite_pacePending (a : Index) (v : Byte) (s : State) : (fifoWrite a v s).pacePending = s.pacePending := rfl
@[simp] theorem fifoWrite_dmaReq (a : Index) (v : Byte) (s : State) : (fifoWrite a v s).dmaReq = s.dmaReq := rfl
@[simp] theorem fifoWrite_diagLog (a : Index) (v : Byte) (s : State) : (fifoWrite a v s).diagLog = s.diagLog := rfl
@[simp] theorem fifoWrite_irqAssertCount (a : Index) (v : Byte) (s : State) : (fifoWrite a v s).irqAssertCount = s.irqAssertCount := rfl
@[simp] theorem fifoWrite_pollOp (a : Index) (v : Byte) (s : State) : (fifoWrite a v s).pollOp = s.pollOp := rfl
@[simp] theorem fifoWrite_pullArmed (a : Index) (v : Byte) (s : State) : (fifoWrite a v s).pullArmed = s.pullArmed := rfl
@[simp] theorem fifoWrite_n (a : Index) (v : Byte) (s : State) : (fifoWrite a v s).n = s.n := rfl
@[simp] theorem fifoWrite_buf (a : Index) (v : Byte) (s : State) : (fifoWrite a v s).buf = s.buf := rfl
@[simp] theorem fifoWrite_waitPolls (a : Index) (v : Byte) (s : State) : (fifoWrite a v s).waitPolls = s.waitPolls := rfl
@[simp] theorem fifoWrite_params (a : Index) (v : Byte) (s : State) : (fifoWrite a v s).params = s.params := rfl
@[simp] theorem fifoWrite_script (a : Index) (v : Byte) (s : State) : (fifoWrite a v s).script = s.script := rfl
@[simp] theorem fifoWrite_draws (a : Index) (v : Byte) (s : State) : (fifoWrite a v s).draws = s.draws := rfl
@[simp] theorem fifoWrite_answer (a : Index) (v : Byte) (s : State) : (fifoWrite a v s).answer = s.answer := rfl

/-! ### `advanceHead` -/

@[simp] theorem advanceHead_inbox (count : Nat) (s : State) : (advanceHead count s).inbox = s.inbox := rfl
@[simp] theorem advanceHead_outbox (count : Nat) (s : State) : (advanceHead count s).outbox = s.outbox := rfl
@[simp] theorem advanceHead_davPc (count : Nat) (s : State) : (advanceHead count s).davPc = s.davPc := rfl
@[simp] theorem advanceHead_davDsp (count : Nat) (s : State) : (advanceHead count s).davDsp = s.davDsp := rfl
@[simp] theorem advanceHead_dspBusy (count : Nat) (s : State) : (advanceHead count s).dspBusy = s.dspBusy := rfl
@[simp] theorem advanceHead_currentCommand (count : Nat) (s : State) : (advanceHead count s).currentCommand = s.currentCommand := rfl
@[simp] theorem advanceHead_currentCommandIndex (count : Nat) (s : State) : (advanceHead count s).currentCommandIndex = s.currentCommandIndex := rfl
@[simp] theorem advanceHead_testRegister (count : Nat) (s : State) : (advanceHead count s).testRegister = s.testRegister := rfl
@[simp] theorem advanceHead_dmaInterval (count : Nat) (s : State) : (advanceHead count s).dmaInterval = s.dmaInterval := rfl
@[simp] theorem advanceHead_dmaIntervalTrim (count : Nat) (s : State) : (advanceHead count s).dmaIntervalTrim = s.dmaIntervalTrim := rfl
@[simp] theorem advanceHead_dmaBlockSize (count : Nat) (s : State) : (advanceHead count s).dmaBlockSize = s.dmaBlockSize := rfl
@[simp] theorem advanceHead_dmaSampleCount (count : Nat) (s : State) : (advanceHead count s).dmaSampleCount = s.dmaSampleCount := rfl
@[simp] theorem advanceHead_dmaSampleCountRx (count : Nat) (s : State) : (advanceHead count s).dmaSampleCountRx = s.dmaSampleCountRx := rfl
@[simp] theorem advanceHead_timeConstant (count : Nat) (s : State) : (advanceHead count s).timeConstant = s.timeConstant := rfl
@[simp] theorem advanceHead_sampleRate (count : Nat) (s : State) : (advanceHead count s).sampleRate = s.sampleRate := rfl
@[simp] theorem advanceHead_sampleStep (count : Nat) (s : State) : (advanceHead count s).sampleStep = s.sampleStep := rfl
@[simp] theorem advanceHead_sampleFactor (count : Nat) (s : State) : (advanceHead count s).sampleFactor = s.sampleFactor := rfl
@[simp] theorem advanceHead_sampleOffset (count : Nat) (s : State) : (advanceHead count s).sampleOffset = s.sampleOffset := rfl
@[simp] theorem advanceHead_autoinit (count : Nat) (s : State) : (advanceHead count s).autoinit = s.autoinit := rfl
@[simp] theorem advanceHead_dmaEnabled (count : Nat) (s : State) : (advanceHead count s).dmaEnabled = s.dmaEnabled := rfl
@[simp] theorem advanceHead_resetState (count : Nat) (s : State) : (advanceHead count s).resetState = s.resetState := rfl
@[simp] theorem advanceHead_fifo (count : Nat) (s : State) : (advanceHead count s).fifo = s.fifo := rfl
@[simp] theorem advanceHead_head (count : Nat) (s : State) : (advanceHead count s).head = s.head + BitVec.ofNat 10 count := rfl
@[simp] theorem advanceHead_tail (count : Nat) (s : State) : (advanceHead count s).tail = s.tail := rfl
@[simp] theorem advanceHead_frameCount (count : Nat) (s : State) : (advanceHead count s).frameCount = s.frameCount := rfl
@[simp] theorem advanceHead_frame (count : Nat) (s : State) : (advanceHead count s).frame = s.frame := rfl
@[simp] theorem advanceHead_irq (count : Nat) (s : State) : (advanceHead count s).irq = s.irq := rfl
@[simp] theorem advanceHead_pacePending (count : Nat) (s : State) : (advanceHead count s).pacePending = s.pacePending := rfl
@[simp] theorem advanceHead_dmaReq (count : Nat) (s : State) : (advanceHead count s).dmaReq = s.dmaReq := rfl
@[simp] theorem advanceHead_diagLog (count : Nat) (s : State) : (advanceHead count s).diagLog = s.diagLog := rfl
@[simp] theorem advanceHead_irqAssertCount (count : Nat) (s : State) : (advanceHead count s).irqAssertCount = s.irqAssertCount := rfl
@[simp] theorem advanceHead_pollOp (count : Nat) (s : State) : (advanceHead count s).pollOp = s.pollOp := rfl
@[simp] theorem advanceHead_pullArmed (count : Nat) (s : State) : (advanceHead count s).pullArmed = s.pullArmed := rfl
@[simp] theorem advanceHead_n (count : Nat) (s : State) : (advanceHead count s).n = s.n := rfl
@[simp] theorem advanceHead_buf (count : Nat) (s : State) : (advanceHead count s).buf = s.buf := rfl
@[simp] theorem advanceHead_waitPolls (count : Nat) (s : State) : (advanceHead count s).waitPolls = s.waitPolls := rfl
@[simp] theorem advanceHead_params (count : Nat) (s : State) : (advanceHead count s).params = s.params := rfl
@[simp] theorem advanceHead_script (count : Nat) (s : State) : (advanceHead count s).script = s.script := rfl
@[simp] theorem advanceHead_draws (count : Nat) (s : State) : (advanceHead count s).draws = s.draws := rfl
@[simp] theorem advanceHead_answer (count : Nat) (s : State) : (advanceHead count s).answer = s.answer := rfl

/-! ### `fifoClear` -/

@[simp] theorem fifoClear_inbox (s : State) : (fifoClear s).inbox = s.inbox := rfl
@[simp] theorem fifoClear_outbox (s : State) : (fifoClear s).outbox = s.outbox := rfl
@[simp] theorem fifoClear_davPc (s : State) : (fifoClear s).davPc = s.davPc := rfl
@[simp] theorem fifoClear_davDsp (s : State) : (fifoClear s).davDsp = s.davDsp := rfl
@[simp] theorem fifoClear_dspBusy (s : State) : (fifoClear s).dspBusy = s.dspBusy := rfl
@[simp] theorem fifoClear_currentCommand (s : State) : (fifoClear s).currentCommand = s.currentCommand := rfl
@[simp] theorem fifoClear_currentCommandIndex (s : State) : (fifoClear s).currentCommandIndex = s.currentCommandIndex := rfl
@[simp] theorem fifoClear_testRegister (s : State) : (fifoClear s).testRegister = s.testRegister := rfl
@[simp] theorem fifoClear_dmaInterval (s : State) : (fifoClear s).dmaInterval = s.dmaInterval := rfl
@[simp] theorem fifoClear_dmaIntervalTrim (s : State) : (fifoClear s).dmaIntervalTrim = s.dmaIntervalTrim := rfl
@[simp] theorem fifoClear_dmaBlockSize (s : State) : (fifoClear s).dmaBlockSize = s.dmaBlockSize := rfl
@[simp] theorem fifoClear_dmaSampleCount (s : State) : (fifoClear s).dmaSampleCount = s.dmaSampleCount := rfl
@[simp] theorem fifoClear_dmaSampleCountRx (s : State) : (fifoClear s).dmaSampleCountRx = s.dmaSampleCountRx := rfl
@[simp] theorem fifoClear_timeConstant (s : State) : (fifoClear s).timeConstant = s.timeConstant := rfl
@[simp] theorem fifoClear_sampleRate (s : State) : (fifoClear s).sampleRate = s.sampleRate := rfl
@[simp] theorem fifoClear_sampleStep (s : State) : (fifoClear s).sampleStep = s.sampleStep := rfl
@[simp] theorem fifoClear_sampleFactor (s : State) : (fifoClear s).sampleFactor = s.sampleFactor := rfl
@[simp] theorem fifoClear_sampleOffset (s : State) : (fifoClear s).sampleOffset = s.sampleOffset := rfl
@[simp] theorem fifoClear_autoinit (s : State) : (fifoClear s).autoinit = s.autoinit := rfl
@[simp] theorem fifoClear_dmaEnabled (s : State) : (fifoClear s).dmaEnabled = s.dmaEnabled := rfl
@[simp] theorem fifoClear_resetState (s : State) : (fifoClear s).resetState = s.resetState := rfl
@[simp] theorem fifoClear_fifo (s : State) : (fifoClear s).fifo = s.fifo := rfl
@[simp] theorem fifoClear_head (s : State) : (fifoClear s).head = s.tail := rfl
@[simp] theorem fifoClear_tail (s : State) : (fifoClear s).tail = s.tail := rfl
@[simp] theorem fifoClear_frameCount (s : State) : (fifoClear s).frameCount = s.frameCount := rfl
@[simp] theorem fifoClear_frame (s : State) : (fifoClear s).frame = s.frame := rfl
@[simp] theorem fifoClear_irq (s : State) : (fifoClear s).irq = s.irq := rfl
@[simp] theorem fifoClear_pacePending (s : State) : (fifoClear s).pacePending = s.pacePending := rfl
@[simp] theorem fifoClear_dmaReq (s : State) : (fifoClear s).dmaReq = s.dmaReq := rfl
@[simp] theorem fifoClear_diagLog (s : State) : (fifoClear s).diagLog = s.diagLog := rfl
@[simp] theorem fifoClear_irqAssertCount (s : State) : (fifoClear s).irqAssertCount = s.irqAssertCount := rfl
@[simp] theorem fifoClear_pollOp (s : State) : (fifoClear s).pollOp = s.pollOp := rfl
@[simp] theorem fifoClear_pullArmed (s : State) : (fifoClear s).pullArmed = s.pullArmed := rfl
@[simp] theorem fifoClear_n (s : State) : (fifoClear s).n = s.n := rfl
@[simp] theorem fifoClear_buf (s : State) : (fifoClear s).buf = s.buf := rfl
@[simp] theorem fifoClear_waitPolls (s : State) : (fifoClear s).waitPolls = s.waitPolls := rfl
@[simp] theorem fifoClear_params (s : State) : (fifoClear s).params = s.params := rfl
@[simp] theorem fifoClear_script (s : State) : (fifoClear s).script = s.script := rfl
@[simp] theorem fifoClear_draws (s : State) : (fifoClear s).draws = s.draws := rfl
@[simp] theorem fifoClear_answer (s : State) : (fifoClear s).answer = s.answer := rfl

/-! ### `fifoPopInto` -/

@[simp] theorem fifoPopInto_inbox (maxLen : Nat) (s : State) : (fifoPopInto maxLen s).inbox = s.inbox := rfl
@[simp] theorem fifoPopInto_outbox (maxLen : Nat) (s : State) : (fifoPopInto maxLen s).outbox = s.outbox := rfl
@[simp] theorem fifoPopInto_davPc (maxLen : Nat) (s : State) : (fifoPopInto maxLen s).davPc = s.davPc := rfl
@[simp] theorem fifoPopInto_davDsp (maxLen : Nat) (s : State) : (fifoPopInto maxLen s).davDsp = s.davDsp := rfl
@[simp] theorem fifoPopInto_dspBusy (maxLen : Nat) (s : State) : (fifoPopInto maxLen s).dspBusy = s.dspBusy := rfl
@[simp] theorem fifoPopInto_currentCommand (maxLen : Nat) (s : State) : (fifoPopInto maxLen s).currentCommand = s.currentCommand := rfl
@[simp] theorem fifoPopInto_currentCommandIndex (maxLen : Nat) (s : State) : (fifoPopInto maxLen s).currentCommandIndex = s.currentCommandIndex := rfl
@[simp] theorem fifoPopInto_testRegister (maxLen : Nat) (s : State) : (fifoPopInto maxLen s).testRegister = s.testRegister := rfl
@[simp] theorem fifoPopInto_dmaInterval (maxLen : Nat) (s : State) : (fifoPopInto maxLen s).dmaInterval = s.dmaInterval := rfl
@[simp] theorem fifoPopInto_dmaIntervalTrim (maxLen : Nat) (s : State) : (fifoPopInto maxLen s).dmaIntervalTrim = s.dmaIntervalTrim := rfl
@[simp] theorem fifoPopInto_dmaBlockSize (maxLen : Nat) (s : State) : (fifoPopInto maxLen s).dmaBlockSize = s.dmaBlockSize := rfl
@[simp] theorem fifoPopInto_dmaSampleCount (maxLen : Nat) (s : State) : (fifoPopInto maxLen s).dmaSampleCount = s.dmaSampleCount := rfl
@[simp] theorem fifoPopInto_dmaSampleCountRx (maxLen : Nat) (s : State) : (fifoPopInto maxLen s).dmaSampleCountRx = s.dmaSampleCountRx := rfl
@[simp] theorem fifoPopInto_timeConstant (maxLen : Nat) (s : State) : (fifoPopInto maxLen s).timeConstant = s.timeConstant := rfl
@[simp] theorem fifoPopInto_sampleRate (maxLen : Nat) (s : State) : (fifoPopInto maxLen s).sampleRate = s.sampleRate := rfl
@[simp] theorem fifoPopInto_sampleStep (maxLen : Nat) (s : State) : (fifoPopInto maxLen s).sampleStep = s.sampleStep := rfl
@[simp] theorem fifoPopInto_sampleFactor (maxLen : Nat) (s : State) : (fifoPopInto maxLen s).sampleFactor = s.sampleFactor := rfl
@[simp] theorem fifoPopInto_sampleOffset (maxLen : Nat) (s : State) : (fifoPopInto maxLen s).sampleOffset = s.sampleOffset := rfl
@[simp] theorem fifoPopInto_autoinit (maxLen : Nat) (s : State) : (fifoPopInto maxLen s).autoinit = s.autoinit := rfl
@[simp] theorem fifoPopInto_dmaEnabled (maxLen : Nat) (s : State) : (fifoPopInto maxLen s).dmaEnabled = s.dmaEnabled := rfl
@[simp] theorem fifoPopInto_resetState (maxLen : Nat) (s : State) : (fifoPopInto maxLen s).resetState = s.resetState := rfl
@[simp] theorem fifoPopInto_fifo (maxLen : Nat) (s : State) : (fifoPopInto maxLen s).fifo = s.fifo := rfl
@[simp] theorem fifoPopInto_head (maxLen : Nat) (s : State) : (fifoPopInto maxLen s).head = s.head + BitVec.ofNat 10 (popCount s maxLen) := rfl
@[simp] theorem fifoPopInto_tail (maxLen : Nat) (s : State) : (fifoPopInto maxLen s).tail = s.tail := rfl
@[simp] theorem fifoPopInto_frameCount (maxLen : Nat) (s : State) : (fifoPopInto maxLen s).frameCount = s.frameCount := rfl
@[simp] theorem fifoPopInto_frame (maxLen : Nat) (s : State) : (fifoPopInto maxLen s).frame = s.frame := rfl
@[simp] theorem fifoPopInto_irq (maxLen : Nat) (s : State) : (fifoPopInto maxLen s).irq = s.irq := rfl
@[simp] theorem fifoPopInto_pacePending (maxLen : Nat) (s : State) : (fifoPopInto maxLen s).pacePending = s.pacePending := rfl
@[simp] theorem fifoPopInto_dmaReq (maxLen : Nat) (s : State) : (fifoPopInto maxLen s).dmaReq = s.dmaReq := rfl
@[simp] theorem fifoPopInto_diagLog (maxLen : Nat) (s : State) : (fifoPopInto maxLen s).diagLog = s.diagLog := rfl
@[simp] theorem fifoPopInto_irqAssertCount (maxLen : Nat) (s : State) : (fifoPopInto maxLen s).irqAssertCount = s.irqAssertCount := rfl
@[simp] theorem fifoPopInto_pollOp (maxLen : Nat) (s : State) : (fifoPopInto maxLen s).pollOp = s.pollOp := rfl
@[simp] theorem fifoPopInto_pullArmed (maxLen : Nat) (s : State) : (fifoPopInto maxLen s).pullArmed = s.pullArmed := rfl
@[simp] theorem fifoPopInto_n (maxLen : Nat) (s : State) : (fifoPopInto maxLen s).n = s.n := rfl
@[simp] theorem fifoPopInto_buf (maxLen : Nat) (s : State) : (fifoPopInto maxLen s).buf = overlay s.buf (fifoBytes s (popCount s maxLen)) := rfl
@[simp] theorem fifoPopInto_waitPolls (maxLen : Nat) (s : State) : (fifoPopInto maxLen s).waitPolls = s.waitPolls := rfl
@[simp] theorem fifoPopInto_params (maxLen : Nat) (s : State) : (fifoPopInto maxLen s).params = s.params := rfl
@[simp] theorem fifoPopInto_script (maxLen : Nat) (s : State) : (fifoPopInto maxLen s).script = s.script := rfl
@[simp] theorem fifoPopInto_draws (maxLen : Nat) (s : State) : (fifoPopInto maxLen s).draws = s.draws := rfl
@[simp] theorem fifoPopInto_answer (maxLen : Nat) (s : State) : (fifoPopInto maxLen s).answer = s.answer := rfl

/-! ### `paceDisable` -/

@[simp] theorem paceDisable_inbox (s : State) : (paceDisable s).inbox = s.inbox := rfl
@[simp] theorem paceDisable_outbox (s : State) : (paceDisable s).outbox = s.outbox := rfl
@[simp] theorem paceDisable_davPc (s : State) : (paceDisable s).davPc = s.davPc := rfl
@[simp] theorem paceDisable_davDsp (s : State) : (paceDisable s).davDsp = s.davDsp := rfl
@[simp] theorem paceDisable_dspBusy (s : State) : (paceDisable s).dspBusy = s.dspBusy := rfl
@[simp] theorem paceDisable_currentCommand (s : State) : (paceDisable s).currentCommand = s.currentCommand := rfl
@[simp] theorem paceDisable_currentCommandIndex (s : State) : (paceDisable s).currentCommandIndex = s.currentCommandIndex := rfl
@[simp] theorem paceDisable_testRegister (s : State) : (paceDisable s).testRegister = s.testRegister := rfl
@[simp] theorem paceDisable_dmaInterval (s : State) : (paceDisable s).dmaInterval = s.dmaInterval := rfl
@[simp] theorem paceDisable_dmaIntervalTrim (s : State) : (paceDisable s).dmaIntervalTrim = s.dmaIntervalTrim := rfl
@[simp] theorem paceDisable_dmaBlockSize (s : State) : (paceDisable s).dmaBlockSize = s.dmaBlockSize := rfl
@[simp] theorem paceDisable_dmaSampleCount (s : State) : (paceDisable s).dmaSampleCount = s.dmaSampleCount := rfl
@[simp] theorem paceDisable_dmaSampleCountRx (s : State) : (paceDisable s).dmaSampleCountRx = s.dmaSampleCountRx := rfl
@[simp] theorem paceDisable_timeConstant (s : State) : (paceDisable s).timeConstant = s.timeConstant := rfl
@[simp] theorem paceDisable_sampleRate (s : State) : (paceDisable s).sampleRate = s.sampleRate := rfl
@[simp] theorem paceDisable_sampleStep (s : State) : (paceDisable s).sampleStep = s.sampleStep := rfl
@[simp] theorem paceDisable_sampleFactor (s : State) : (paceDisable s).sampleFactor = s.sampleFactor := rfl
@[simp] theorem paceDisable_sampleOffset (s : State) : (paceDisable s).sampleOffset = s.sampleOffset := rfl
@[simp] theorem paceDisable_autoinit (s : State) : (paceDisable s).autoinit = s.autoinit := rfl
@[simp] theorem paceDisable_dmaEnabled (s : State) : (paceDisable s).dmaEnabled = false := rfl
@[simp] theorem paceDisable_resetState (s : State) : (paceDisable s).resetState = s.resetState := rfl
@[simp] theorem paceDisable_fifo (s : State) : (paceDisable s).fifo = s.fifo := rfl
@[simp] theorem paceDisable_head (s : State) : (paceDisable s).head = s.head := rfl
@[simp] theorem paceDisable_tail (s : State) : (paceDisable s).tail = s.tail := rfl
@[simp] theorem paceDisable_frameCount (s : State) : (paceDisable s).frameCount = s.frameCount := rfl
@[simp] theorem paceDisable_frame (s : State) : (paceDisable s).frame = s.frame := rfl
@[simp] theorem paceDisable_irq (s : State) : (paceDisable s).irq = s.irq := rfl
@[simp] theorem paceDisable_pacePending (s : State) : (paceDisable s).pacePending = none := rfl
@[simp] theorem paceDisable_dmaReq (s : State) : (paceDisable s).dmaReq = s.dmaReq := rfl
@[simp] theorem paceDisable_diagLog (s : State) : (paceDisable s).diagLog = s.diagLog := rfl
@[simp] theorem paceDisable_irqAssertCount (s : State) : (paceDisable s).irqAssertCount = s.irqAssertCount := rfl
@[simp] theorem paceDisable_pollOp (s : State) : (paceDisable s).pollOp = s.pollOp := rfl
@[simp] theorem paceDisable_pullArmed (s : State) : (paceDisable s).pullArmed = s.pullArmed := rfl
@[simp] theorem paceDisable_n (s : State) : (paceDisable s).n = s.n := rfl
@[simp] theorem paceDisable_buf (s : State) : (paceDisable s).buf = s.buf := rfl
@[simp] theorem paceDisable_waitPolls (s : State) : (paceDisable s).waitPolls = s.waitPolls := rfl
@[simp] theorem paceDisable_params (s : State) : (paceDisable s).params = s.params := rfl
@[simp] theorem paceDisable_script (s : State) : (paceDisable s).script = s.script := rfl
@[simp] theorem paceDisable_draws (s : State) : (paceDisable s).draws = s.draws := rfl
@[simp] theorem paceDisable_answer (s : State) : (paceDisable s).answer = s.answer := rfl

/-! ### `rearm` -/

@[simp] theorem rearm_inbox (s : State) : (rearm s).inbox = s.inbox := rfl
@[simp] theorem rearm_outbox (s : State) : (rearm s).outbox = s.outbox := rfl
@[simp] theorem rearm_davPc (s : State) : (rearm s).davPc = s.davPc := rfl
@[simp] theorem rearm_davDsp (s : State) : (rearm s).davDsp = s.davDsp := rfl
@[simp] theorem rearm_dspBusy (s : State) : (rearm s).dspBusy = s.dspBusy := rfl
@[simp] theorem rearm_currentCommand (s : State) : (rearm s).currentCommand = s.currentCommand := rfl
@[simp] theorem rearm_currentCommandIndex (s : State) : (rearm s).currentCommandIndex = s.currentCommandIndex := rfl
@[simp] theorem rearm_testRegister (s : State) : (rearm s).testRegister = s.testRegister := rfl
@[simp] theorem rearm_dmaInterval (s : State) : (rearm s).dmaInterval = s.dmaInterval := rfl
@[simp] theorem rearm_dmaIntervalTrim (s : State) : (rearm s).dmaIntervalTrim = s.dmaIntervalTrim := rfl
@[simp] theorem rearm_dmaBlockSize (s : State) : (rearm s).dmaBlockSize = s.dmaBlockSize := rfl
@[simp] theorem rearm_dmaSampleCount (s : State) : (rearm s).dmaSampleCount = s.dmaSampleCount := rfl
@[simp] theorem rearm_dmaSampleCountRx (s : State) : (rearm s).dmaSampleCountRx = s.dmaSampleCountRx := rfl
@[simp] theorem rearm_timeConstant (s : State) : (rearm s).timeConstant = s.timeConstant := rfl
@[simp] theorem rearm_sampleRate (s : State) : (rearm s).sampleRate = s.sampleRate := rfl
@[simp] theorem rearm_sampleStep (s : State) : (rearm s).sampleStep = s.sampleStep := rfl
@[simp] theorem rearm_sampleFactor (s : State) : (rearm s).sampleFactor = s.sampleFactor := rfl
@[simp] theorem rearm_sampleOffset (s : State) : (rearm s).sampleOffset = s.sampleOffset := rfl
@[simp] theorem rearm_autoinit (s : State) : (rearm s).autoinit = s.autoinit := rfl
@[simp] theorem rearm_dmaEnabled (s : State) : (rearm s).dmaEnabled = s.dmaEnabled := rfl
@[simp] theorem rearm_resetState (s : State) : (rearm s).resetState = s.resetState := rfl
@[simp] theorem rearm_fifo (s : State) : (rearm s).fifo = s.fifo := rfl
@[simp] theorem rearm_head (s : State) : (rearm s).head = s.head := rfl
@[simp] theorem rearm_tail (s : State) : (rearm s).tail = s.tail := rfl
@[simp] theorem rearm_frameCount (s : State) : (rearm s).frameCount = s.frameCount := rfl
@[simp] theorem rearm_frame (s : State) : (rearm s).frame = s.frame := rfl
@[simp] theorem rearm_irq (s : State) : (rearm s).irq = s.irq := rfl
@[simp] theorem rearm_pacePending (s : State) : (rearm s).pacePending = some (trimmedDelay s.dmaInterval s.dmaIntervalTrim) := rfl
@[simp] theorem rearm_dmaReq (s : State) : (rearm s).dmaReq = s.dmaReq := rfl
@[simp] theorem rearm_diagLog (s : State) : (rearm s).diagLog = s.diagLog := rfl
@[simp] theorem rearm_irqAssertCount (s : State) : (rearm s).irqAssertCount = s.irqAssertCount := rfl
@[simp] theorem rearm_pollOp (s : State) : (rearm s).pollOp = s.pollOp := rfl
@[simp] theorem rearm_pullArmed (s : State) : (rearm s).pullArmed = s.pullArmed := rfl
@[simp] theorem rearm_n (s : State) : (rearm s).n = s.n := rfl
@[simp] theorem rearm_buf (s : State) : (rearm s).buf = s.buf := rfl
@[simp] theorem rearm_waitPolls (s : State) : (rearm s).waitPolls = s.waitPolls := rfl
@[simp] theorem rearm_params (s : State) : (rearm s).params = s.params := rfl
@[simp] theorem rearm_script (s : State) : (rearm s).script = s.script := rfl
@[simp] theorem rearm_draws (s : State) : (rearm s).draws = s.draws := rfl
@[simp] theorem rearm_answer (s : State) : (rearm s).answer = s.answer := rfl

/-! ### `outputByte` -/

@[simp] theorem outputByte_inbox (v : Byte) (s : State) : (outputByte v s).inbox = s.inbox := rfl
@[simp] theorem outputByte_outbox (v : Byte) (s : State) : (outputByte v s).outbox = v := rfl
@[simp] theorem outputByte_davPc (v : Byte) (s : State) : (outputByte v s).davPc = true := rfl
@[simp] theorem outputByte_davDsp (v : Byte) (s : State) : (outputByte v s).davDsp = s.davDsp := rfl
@[simp] theorem outputByte_dspBusy (v : Byte) (s : State) : (outputByte v s).dspBusy = s.dspBusy := rfl
@[simp] theorem outputByte_currentCommand (v : Byte) (s : State) : (outputByte v s).currentCommand = s.currentCommand := rfl
@[simp] theorem outputByte_currentCommandIndex (v : Byte) (s : State) : (outputByte v s).currentCommandIndex = s.currentCommandIndex := rfl
@[simp] theorem outputByte_testRegister (v : Byte) (s : State) : (outputByte v s).testRegister = s.testRegister := rfl
@[simp] theorem outputByte_dmaInterval (v : Byte) (s : State) : (outputByte v s).dmaInterval = s.dmaInterval := rfl
@[simp] theorem outputByte_dmaIntervalTrim (v : Byte) (s : State) : (outputByte v s).dmaIntervalTrim = s.dmaIntervalTrim := rfl
@[simp] theorem outputByte_dmaBlockSize (v : Byte) (s : State) : (outputByte v s).dmaBlockSize = s.dmaBlockSize := rfl
@[simp] theorem outputByte_dmaSampleCount (v : Byte) (s : State) : (outputByte v s).dmaSampleCount = s.dmaSampleCount := rfl
@[simp] theorem outputByte_dmaSampleCountRx (v : Byte) (s : State) : (outputByte v s).dmaSampleCountRx = s.dmaSampleCountRx := rfl
@[simp] theorem outputByte_timeConstant (v : Byte) (s : State) : (outputByte v s).timeConstant = s.timeConstant := rfl
@[simp] theorem outputByte_sampleRate (v : Byte) (s : State) : (outputByte v s).sampleRate = s.sampleRate := rfl
@[simp] theorem outputByte_sampleStep (v : Byte) (s : State) : (outputByte v s).sampleStep = s.sampleStep := rfl
@[simp] theorem outputByte_sampleFactor (v : Byte) (s : State) : (outputByte v s).sampleFactor = s.sampleFactor := rfl
@[simp] theorem outputByte_sampleOffset (v : Byte) (s : State) : (outputByte v s).sampleOffset = s.sampleOffset := rfl
@[simp] theorem outputByte_autoinit (v : Byte) (s : State) : (outputByte v s).autoinit = s.autoinit := rfl
@[simp] theorem outputByte_dmaEnabled (v : Byte) (s : State) : (outputByte v s).dmaEnabled = s.dmaEnabled := rfl
@[simp] theorem outputByte_resetState (v : Byte) (s : State) : (outputByte v s).resetState = s.resetState := rfl
@[simp] theorem outputByte_fifo (v : Byte) (s : State) : (outputByte v s).fifo = s.fifo := rfl
@[simp] theorem outputByte_head (v : Byte) (s : State) : (outputByte v s).head = s.head := rfl
@[simp] theorem outputByte_tail (v : Byte) (s : State) : (outputByte v s).tail = s.tail := rfl
@[simp] theorem outputByte_frameCount (v : Byte) (s : State) : (outputByte v s).frameCount = s.frameCount := rfl
@[simp] theorem outputByte_frame (v : Byte) (s : State) : (outputByte v s).frame = s.frame := rfl
@[simp] theorem outputByte_irq (v : Byte) (s : State) : (outputByte v s).irq = s.irq := rfl
@[simp] theorem outputByte_pacePending (v : Byte) (s : State) : (outputByte v s).pacePending = s.pacePending := rfl
@[simp] theorem outputByte_dmaReq (v : Byte) (s : State) : (outputByte v s).dmaReq = s.dmaReq := rfl
@[simp] theorem outputByte_diagLog (v : Byte) (s : State) : (outputByte v s).diagLog = s.diagLog := rfl
@[simp] theorem outputByte_irqAssertCount (v : Byte) (s : State) : (outputByte v s).irqAssertCount = s.irqAssertCount := rfl
@[simp] theorem outputByte_pollOp (v : Byte) (s : State) : (outputByte v s).pollOp = s.pollOp := rfl
@[simp] theorem outputByte_pullArmed (v : Byte) (s : State) : (outputByte v s).pullArmed = s.pullArmed := rfl
@[simp] theorem outputByte_n (v : Byte) (s : State) : (outputByte v s).n = s.n := rfl
@[simp] theorem outputByte_buf (v : Byte) (s : State) : (outputByte v s).buf = s.buf := rfl
@[simp] theorem outputByte_waitPolls (v : Byte) (s : State) : (outputByte v s).waitPolls = s.waitPolls := rfl
@[simp] theorem outputByte_params (v : Byte) (s : State) : (outputByte v s).params = s.params := rfl
@[simp] theorem outputByte_script (v : Byte) (s : State) : (outputByte v s).script = s.script := rfl
@[simp] theorem outputByte_draws (v : Byte) (s : State) : (outputByte v s).draws = s.draws := rfl
@[simp] theorem outputByte_answer (v : Byte) (s : State) : (outputByte v s).answer = s.answer := rfl

/-! ### `takeParam` -/

@[simp] theorem takeParam_inbox (s : State) : (takeParam s).inbox = s.inbox := rfl
@[simp] theorem takeParam_outbox (s : State) : (takeParam s).outbox = s.outbox := rfl
@[simp] theorem takeParam_davPc (s : State) : (takeParam s).davPc = s.davPc := rfl
@[simp] theorem takeParam_davDsp (s : State) : (takeParam s).davDsp = false := rfl
@[simp] theorem takeParam_dspBusy (s : State) : (takeParam s).dspBusy = s.dspBusy := rfl
@[simp] theorem takeParam_currentCommand (s : State) : (takeParam s).currentCommand = s.currentCommand := rfl
@[simp] theorem takeParam_currentCommandIndex (s : State) : (takeParam s).currentCommandIndex = s.currentCommandIndex + 1 := rfl
@[simp] theorem takeParam_testRegister (s : State) : (takeParam s).testRegister = s.testRegister := rfl
@[simp] theorem takeParam_dmaInterval (s : State) : (takeParam s).dmaInterval = s.dmaInterval := rfl
@[simp] theorem takeParam_dmaIntervalTrim (s : State) : (takeParam s).dmaIntervalTrim = s.dmaIntervalTrim := rfl
@[simp] theorem takeParam_dmaBlockSize (s : State) : (takeParam s).dmaBlockSize = s.dmaBlockSize := rfl
@[simp] theorem takeParam_dmaSampleCount (s : State) : (takeParam s).dmaSampleCount = s.dmaSampleCount := rfl
@[simp] theorem takeParam_dmaSampleCountRx (s : State) : (takeParam s).dmaSampleCountRx = s.dmaSampleCountRx := rfl
@[simp] theorem takeParam_timeConstant (s : State) : (takeParam s).timeConstant = s.timeConstant := rfl
@[simp] theorem takeParam_sampleRate (s : State) : (takeParam s).sampleRate = s.sampleRate := rfl
@[simp] theorem takeParam_sampleStep (s : State) : (takeParam s).sampleStep = s.sampleStep := rfl
@[simp] theorem takeParam_sampleFactor (s : State) : (takeParam s).sampleFactor = s.sampleFactor := rfl
@[simp] theorem takeParam_sampleOffset (s : State) : (takeParam s).sampleOffset = s.sampleOffset := rfl
@[simp] theorem takeParam_autoinit (s : State) : (takeParam s).autoinit = s.autoinit := rfl
@[simp] theorem takeParam_dmaEnabled (s : State) : (takeParam s).dmaEnabled = s.dmaEnabled := rfl
@[simp] theorem takeParam_resetState (s : State) : (takeParam s).resetState = s.resetState := rfl
@[simp] theorem takeParam_fifo (s : State) : (takeParam s).fifo = s.fifo := rfl
@[simp] theorem takeParam_head (s : State) : (takeParam s).head = s.head := rfl
@[simp] theorem takeParam_tail (s : State) : (takeParam s).tail = s.tail := rfl
@[simp] theorem takeParam_frameCount (s : State) : (takeParam s).frameCount = s.frameCount := rfl
@[simp] theorem takeParam_frame (s : State) : (takeParam s).frame = s.frame := rfl
@[simp] theorem takeParam_irq (s : State) : (takeParam s).irq = s.irq := rfl
@[simp] theorem takeParam_pacePending (s : State) : (takeParam s).pacePending = s.pacePending := rfl
@[simp] theorem takeParam_dmaReq (s : State) : (takeParam s).dmaReq = s.dmaReq := rfl
@[simp] theorem takeParam_diagLog (s : State) : (takeParam s).diagLog = s.diagLog := rfl
@[simp] theorem takeParam_irqAssertCount (s : State) : (takeParam s).irqAssertCount = s.irqAssertCount := rfl
@[simp] theorem takeParam_pollOp (s : State) : (takeParam s).pollOp = s.pollOp := rfl
@[simp] theorem takeParam_pullArmed (s : State) : (takeParam s).pullArmed = s.pullArmed := rfl
@[simp] theorem takeParam_n (s : State) : (takeParam s).n = s.n := rfl
@[simp] theorem takeParam_buf (s : State) : (takeParam s).buf = s.buf := rfl
@[simp] theorem takeParam_waitPolls (s : State) : (takeParam s).waitPolls = s.waitPolls := rfl
@[simp] theorem takeParam_params (s : State) : (takeParam s).params = s.params := rfl
@[simp] theorem takeParam_script (s : State) : (takeParam s).script = s.script := rfl
@[simp] theorem takeParam_draws (s : State) : (takeParam s).draws = s.draws := rfl
@[simp] theorem takeParam_answer (s : State) : (takeParam s).answer = s.answer := rfl

/-! ### `finishCommand` -/

@[simp] theorem finishCommand_inbox (s : State) : (finishCommand s).inbox = s.inbox := rfl
@[simp] theorem finishCommand_outbox (s : State) : (finishCommand s).outbox = s.outbox := rfl
@[simp] theorem finishCommand_davPc (s : State) : (finishCommand s).davPc = s.davPc := rfl
@[simp] theorem finishCommand_davDsp (s : State) : (finishCommand s).davDsp = s.davDsp := rfl
@[simp] theorem finishCommand_dspBusy (s : State) : (finishCommand s).dspBusy = s.dspBusy := rfl
@[simp] theorem finishCommand_currentCommand (s : State) : (finishCommand s).currentCommand = 0 := rfl
@[simp] theorem finishCommand_currentCommandIndex (s : State) : (finishCommand s).currentCommandIndex = s.currentCommandIndex := rfl
@[simp] theorem finishCommand_testRegister (s : State) : (finishCommand s).testRegister = s.testRegister := rfl
@[simp] theorem finishCommand_dmaInterval (s : State) : (finishCommand s).dmaInterval = s.dmaInterval := rfl
@[simp] theorem finishCommand_dmaIntervalTrim (s : State) : (finishCommand s).dmaIntervalTrim = s.dmaIntervalTrim := rfl
@[simp] theorem finishCommand_dmaBlockSize (s : State) : (finishCommand s).dmaBlockSize = s.dmaBlockSize := rfl
@[simp] theorem finishCommand_dmaSampleCount (s : State) : (finishCommand s).dmaSampleCount = s.dmaSampleCount := rfl
@[simp] theorem finishCommand_dmaSampleCountRx (s : State) : (finishCommand s).dmaSampleCountRx = s.dmaSampleCountRx := rfl
@[simp] theorem finishCommand_timeConstant (s : State) : (finishCommand s).timeConstant = s.timeConstant := rfl
@[simp] theorem finishCommand_sampleRate (s : State) : (finishCommand s).sampleRate = s.sampleRate := rfl
@[simp] theorem finishCommand_sampleStep (s : State) : (finishCommand s).sampleStep = s.sampleStep := rfl
@[simp] theorem finishCommand_sampleFactor (s : State) : (finishCommand s).sampleFactor = s.sampleFactor := rfl
@[simp] theorem finishCommand_sampleOffset (s : State) : (finishCommand s).sampleOffset = s.sampleOffset := rfl
@[simp] theorem finishCommand_autoinit (s : State) : (finishCommand s).autoinit = s.autoinit := rfl
@[simp] theorem finishCommand_dmaEnabled (s : State) : (finishCommand s).dmaEnabled = s.dmaEnabled := rfl
@[simp] theorem finishCommand_resetState (s : State) : (finishCommand s).resetState = s.resetState := rfl
@[simp] theorem finishCommand_fifo (s : State) : (finishCommand s).fifo = s.fifo := rfl
@[simp] theorem finishCommand_head (s : State) : (finishCommand s).head = s.head := rfl
@[simp] theorem finishCommand_tail (s : State) : (finishCommand s).tail = s.tail := rfl
@[simp] theorem finishCommand_frameCount (s : State) : (finishCommand s).frameCount = s.frameCount := rfl
@[simp] theorem finishCommand_frame (s : State) : (finishCommand s).frame = s.frame := rfl
@[simp] theorem finishCommand_irq (s : State) : (finishCommand s).irq = s.irq := rfl
@[simp] theorem finishCommand_pacePending (s : State) : (finishCommand s).pacePending = s.pacePending := rfl
@[simp] theorem finishCommand_dmaReq (s : State) : (finishCommand s).dmaReq = s.dmaReq := rfl
@[simp] theorem finishCommand_diagLog (s : State) : (finishCommand s).diagLog = s.diagLog := rfl
@[simp] theorem finishCommand_irqAssertCount (s : State) : (finishCommand s).irqAssertCount = s.irqAssertCount := rfl
@[simp] theorem finishCommand_pollOp (s : State) : (finishCommand s).pollOp = s.pollOp := rfl
@[simp] theorem finishCommand_pullArmed (s : State) : (finishCommand s).pullArmed = s.pullArmed := rfl
@[simp] theorem finishCommand_n (s : State) : (finishCommand s).n = s.n := rfl
@[simp] theorem finishCommand_buf (s : State) : (finishCommand s).buf = s.buf := rfl
@[simp] theorem finishCommand_waitPolls (s : State) : (finishCommand s).waitPolls = s.waitPolls := rfl
@[simp] theorem finishCommand_params (s : State) : (finishCommand s).params = s.params := rfl
@[simp] theorem finishCommand_script (s : State) : (finishCommand s).script = s.script := rfl
@[simp] theorem finishCommand_draws (s : State) : (finishCommand s).draws = s.draws := rfl
@[simp] theorem finishCommand_answer (s : State) : (finishCommand s).answer = s.answer := rfl

/-! ### `latchCommand` -/

@[simp] theorem latchCommand_inbox (s : State) : (latchCommand s).inbox = s.inbox := rfl
@[simp] theorem latchCommand_outbox (s : State) : (latchCommand s).outbox = s.outbox := rfl
@[simp] theorem latchCommand_davPc (s : State) : (latchCommand s).davPc = s.davPc := rfl
@[simp] theorem latchCommand_davDsp (s : State) : (latchCommand s).davDsp = false := rfl
@[simp] theorem latchCommand_dspBusy (s : State) : (latchCommand s).dspBusy = s.dspBusy := rfl
@[simp] theorem latchCommand_currentCommand (s : State) : (latchCommand s).currentCommand = s.inbox := rfl
@[simp] theorem latchCommand_currentCommandIndex (s : State) : (latchCommand s).currentCommandIndex = 0 := rfl
@[simp] theorem latchCommand_testRegister (s : State) : (latchCommand s).testRegister = s.testRegister := rfl
@[simp] theorem latchCommand_dmaInterval (s : State) : (latchCommand s).dmaInterval = s.dmaInterval := rfl
@[simp] theorem latchCommand_dmaIntervalTrim (s : State) : (latchCommand s).dmaIntervalTrim = s.dmaIntervalTrim := rfl
@[simp] theorem latchCommand_dmaBlockSize (s : State) : (latchCommand s).dmaBlockSize = s.dmaBlockSize := rfl
@[simp] theorem latchCommand_dmaSampleCount (s : State) : (latchCommand s).dmaSampleCount = s.dmaSampleCount := rfl
@[simp] theorem latchCommand_dmaSampleCountRx (s : State) : (latchCommand s).dmaSampleCountRx = s.dmaSampleCountRx := rfl
@[simp] theorem latchCommand_timeConstant (s : State) : (latchCommand s).timeConstant = s.timeConstant := rfl
@[simp] theorem latchCommand_sampleRate (s : State) : (latchCommand s).sampleRate = s.sampleRate := rfl
@[simp] theorem latchCommand_sampleStep (s : State) : (latchCommand s).sampleStep = s.sampleStep := rfl
@[simp] theorem latchCommand_sampleFactor (s : State) : (latchCommand s).sampleFactor = s.sampleFactor := rfl
@[simp] theorem latchCommand_sampleOffset (s : State) : (latchCommand s).sampleOffset = s.sampleOffset := rfl
@[simp] theorem latchCommand_autoinit (s : State) : (latchCommand s).autoinit = s.autoinit := rfl
@[simp] theorem latchCommand_dmaEnabled (s : State) : (latchCommand s).dmaEnabled = s.dmaEnabled := rfl
@[simp] theorem latchCommand_resetState (s : State) : (latchCommand s).resetState = s.resetState := rfl
@[simp] theorem latchCommand_fifo (s : State) : (latchCommand s).fifo = s.fifo := rfl
@[simp] theorem latchCommand_head (s : State) : (latchCommand s).head = s.head := rfl
@[simp] theorem latchCommand_tail (s : State) : (latchCommand s).tail = s.tail := rfl
@[simp] theorem latchCommand_frameCount (s : State) : (latchCommand s).frameCount = s.frameCount := rfl
@[simp] theorem latchCommand_frame (s : State) : (latchCommand s).frame = s.frame := rfl
@[simp] theorem latchCommand_irq (s : State) : (latchCommand s).irq = s.irq := rfl
@[simp] theorem latchCommand_pacePending (s : State) : (latchCommand s).pacePending = s.pacePending := rfl
@[simp] theorem latchCommand_dmaReq (s : State) : (latchCommand s).dmaReq = s.dmaReq := rfl
@[simp] theorem latchCommand_diagLog (s : State) : (latchCommand s).diagLog = s.diagLog := rfl
@[simp] theorem latchCommand_irqAssertCount (s : State) : (latchCommand s).irqAssertCount = s.irqAssertCount := rfl
@[simp] theorem latchCommand_pollOp (s : State) : (latchCommand s).pollOp = s.pollOp := rfl
@[simp] theorem latchCommand_pullArmed (s : State) : (latchCommand s).pullArmed = s.pullArmed := rfl
@[simp] theorem latchCommand_n (s : State) : (latchCommand s).n = s.n := rfl
@[simp] theorem latchCommand_buf (s : State) : (latchCommand s).buf = s.buf := rfl
@[simp] theorem latchCommand_waitPolls (s : State) : (latchCommand s).waitPolls = s.waitPolls := rfl
@[simp] theorem latchCommand_params (s : State) : (latchCommand s).params = s.params := rfl
@[simp] theorem latchCommand_script (s : State) : (latchCommand s).script = s.script := rfl
@[simp] theorem latchCommand_draws (s : State) : (latchCommand s).draws = s.draws := rfl
@[simp] theorem latchCommand_answer (s : State) : (latchCommand s).answer = s.answer := rfl

/-! ### `deliver` -/

@[simp] theorem deliver_inbox (count : Nat) (out : List Sample) (s : State) : (deliver count out s).inbox = s.inbox := rfl
@[simp] theorem deliver_outbox (count : Nat) (out : List Sample) (s : State) : (deliver count out s).outbox = s.outbox := rfl
@[simp] theorem deliver_davPc (count : Nat) (out : List Sample) (s : State) : (deliver count out s).davPc = s.davPc := rfl
@[simp] theorem deliver_davDsp (count : Nat) (out : List Sample) (s : State) : (deliver count out s).davDsp = s.davDsp := rfl
@[simp] theorem deliver_dspBusy (count : Nat) (out : List Sample) (s : State) : (deliver count out s).dspBusy = s.dspBusy := rfl
@[simp] theorem deliver_currentCommand (count : Nat) (out : List Sample) (s : State) : (deliver count out s).currentCommand = s.currentCommand := rfl
@[simp] theorem deliver_currentCommandIndex (count : Nat) (out : List Sample) (s : State) : (deliver count out s).currentCommandIndex = s.currentCommandIndex := rfl
@[simp] theorem deliver_testRegister (count : Nat) (out : List Sample) (s : State) : (deliver count out s).testRegister = s.testRegister := rfl
@[simp] theorem deliver_dmaInterval (count : Nat) (out : List Sample) (s : State) : (deliver count out s).dmaInterval = s.dmaInterval := rfl
@[simp] theorem deliver_dmaIntervalTrim (count : Nat) (out : List Sample) (s : State) : (deliver count out s).dmaIntervalTrim = s.dmaIntervalTrim := rfl
@[simp] theorem deliver_dmaBlockSize (count : Nat) (out : List Sample) (s : State) : (deliver count out s).dmaBlockSize = s.dmaBlockSize := rfl
@[simp] theorem deliver_dmaSampleCount (count : Nat) (out : List Sample) (s : State) : (deliver count out s).dmaSampleCount = s.dmaSampleCount := rfl
@[simp] theorem deliver_dmaSampleCountRx (count : Nat) (out : List Sample) (s : State) : (deliver count out s).dmaSampleCountRx = s.dmaSampleCountRx := rfl
@[simp] theorem deliver_timeConstant (count : Nat) (out : List Sample) (s : State) : (deliver count out s).timeConstant = s.timeConstant := rfl
@[simp] theorem deliver_sampleRate (count : Nat) (out : List Sample) (s : State) : (deliver count out s).sampleRate = s.sampleRate := rfl
@[simp] theorem deliver_sampleStep (count : Nat) (out : List Sample) (s : State) : (deliver count out s).sampleStep = s.sampleStep := rfl
@[simp] theorem deliver_sampleFactor (count : Nat) (out : List Sample) (s : State) : (deliver count out s).sampleFactor = s.sampleFactor := rfl
@[simp] theorem deliver_sampleOffset (count : Nat) (out : List Sample) (s : State) : (deliver count out s).sampleOffset = s.sampleOffset := rfl
@[simp] theorem deliver_autoinit (count : Nat) (out : List Sample) (s : State) : (deliver count out s).autoinit = s.autoinit := rfl
@[simp] theorem deliver_dmaEnabled (count : Nat) (out : List Sample) (s : State) : (deliver count out s).dmaEnabled = s.dmaEnabled := rfl
@[simp] theorem deliver_resetState (count : Nat) (out : List Sample) (s : State) : (deliver count out s).resetState = s.resetState := rfl
@[simp] theorem deliver_fifo (count : Nat) (out : List Sample) (s : State) : (deliver count out s).fifo = s.fifo := rfl
@[simp] theorem deliver_head (count : Nat) (out : List Sample) (s : State) : (deliver count out s).head = s.head := rfl
@[simp] theorem deliver_tail (count : Nat) (out : List Sample) (s : State) : (deliver count out s).tail = s.tail := rfl
@[simp] theorem deliver_frameCount (count : Nat) (out : List Sample) (s : State) : (deliver count out s).frameCount = count := rfl
@[simp] theorem deliver_frame (count : Nat) (out : List Sample) (s : State) : (deliver count out s).frame = out := rfl
@[simp] theorem deliver_irq (count : Nat) (out : List Sample) (s : State) : (deliver count out s).irq = s.irq := rfl
@[simp] theorem deliver_pacePending (count : Nat) (out : List Sample) (s : State) : (deliver count out s).pacePending = s.pacePending := rfl
@[simp] theorem deliver_dmaReq (count : Nat) (out : List Sample) (s : State) : (deliver count out s).dmaReq = s.dmaReq := rfl
@[simp] theorem deliver_diagLog (count : Nat) (out : List Sample) (s : State) : (deliver count out s).diagLog = s.diagLog := rfl
@[simp] theorem deliver_irqAssertCount (count : Nat) (out : List Sample) (s : State) : (deliver count out s).irqAssertCount = s.irqAssertCount := rfl
@[simp] theorem deliver_pollOp (count : Nat) (out : List Sample) (s : State) : (deliver count out s).pollOp = s.pollOp := rfl
@[simp] theorem deliver_pullArmed (count : Nat) (out : List Sample) (s : State) : (deliver count out s).pullArmed = s.pullArmed := rfl
@[simp] theorem deliver_n (count : Nat) (out : List Sample) (s : State) : (deliver count out s).n = s.n := rfl
@[simp] theorem deliver_buf (count : Nat) (out : List Sample) (s : State) : (deliver count out s).buf = s.buf := rfl
@[simp] theorem deliver_waitPolls (count : Nat) (out : List Sample) (s : State) : (deliver count out s).waitPolls = s.waitPolls := rfl
@[simp] theorem deliver_params (count : Nat) (out : List Sample) (s : State) : (deliver count out s).params = s.params := rfl
@[simp] theorem deliver_script (count : Nat) (out : List Sample) (s : State) : (deliver count out s).script = s.script := rfl
@[simp] theorem deliver_draws (count : Nat) (out : List Sample) (s : State) : (deliver count out s).draws = s.draws := rfl
@[simp] theorem deliver_answer (count : Nat) (out : List Sample) (s : State) : (deliver count out s).answer = s.answer := rfl

/-! ### `fifoPush` -/

@[simp] theorem fifoPush_inbox (b : Byte) (s : State) : (fifoPush b s).inbox = s.inbox := by cases h : fifoFull s <;> simp [fifoPush, h]
@[simp] theorem fifoPush_outbox (b : Byte) (s : State) : (fifoPush b s).outbox = s.outbox := by cases h : fifoFull s <;> simp [fifoPush, h]
@[simp] theorem fifoPush_davPc (b : Byte) (s : State) : (fifoPush b s).davPc = s.davPc := by cases h : fifoFull s <;> simp [fifoPush, h]
@[simp] theorem fifoPush_davDsp (b : Byte) (s : State) : (fifoPush b s).davDsp = s.davDsp := by cases h : fifoFull s <;> simp [fifoPush, h]
@[simp] theorem fifoPush_dspBusy (b : Byte) (s : State) : (fifoPush b s).dspBusy = s.dspBusy := by cases h : fifoFull s <;> simp [fifoPush, h]
@[simp] theorem fifoPush_currentCommand (b : Byte) (s : State) : (fifoPush b s).currentCommand = s.currentCommand := by cases h : fifoFull s <;> simp [fifoPush, h]
@[simp] theorem fifoPush_currentCommandIndex (b : Byte) (s : State) : (fifoPush b s).currentCommandIndex = s.currentCommandIndex := by cases h : fifoFull s <;> simp [fifoPush, h]
@[simp] theorem fifoPush_testRegister (b : Byte) (s : State) : (fifoPush b s).testRegister = s.testRegister := by cases h : fifoFull s <;> simp [fifoPush, h]
@[simp] theorem fifoPush_dmaInterval (b : Byte) (s : State) : (fifoPush b s).dmaInterval = s.dmaInterval := by cases h : fifoFull s <;> simp [fifoPush, h]
@[simp] theorem fifoPush_dmaIntervalTrim (b : Byte) (s : State) : (fifoPush b s).dmaIntervalTrim = s.dmaIntervalTrim := by cases h : fifoFull s <;> simp [fifoPush, h]
@[simp] theorem fifoPush_dmaBlockSize (b : Byte) (s : State) : (fifoPush b s).dmaBlockSize = s.dmaBlockSize := by cases h : fifoFull s <;> simp [fifoPush, h]
@[simp] theorem fifoPush_dmaSampleCount (b : Byte) (s : State) : (fifoPush b s).dmaSampleCount = s.dmaSampleCount := by cases h : fifoFull s <;> simp [fifoPush, h]
@[simp] theorem fifoPush_dmaSampleCountRx (b : Byte) (s : State) : (fifoPush b s).dmaSampleCountRx = s.dmaSampleCountRx := by cases h : fifoFull s <;> simp [fifoPush, h]
@[simp] theorem fifoPush_timeConstant (b : Byte) (s : State) : (fifoPush b s).timeConstant = s.timeConstant := by cases h : fifoFull s <;> simp [fifoPush, h]
@[simp] theorem fifoPush_sampleRate (b : Byte) (s : State) : (fifoPush b s).sampleRate = s.sampleRate := by cases h : fifoFull s <;> simp [fifoPush, h]
@[simp] theorem fifoPush_sampleStep (b : Byte) (s : State) : (fifoPush b s).sampleStep = s.sampleStep := by cases h : fifoFull s <;> simp [fifoPush, h]
@[simp] theorem fifoPush_sampleFactor (b : Byte) (s : State) : (fifoPush b s).sampleFactor = s.sampleFactor := by cases h : fifoFull s <;> simp [fifoPush, h]
@[simp] theorem fifoPush_sampleOffset (b : Byte) (s : State) : (fifoPush b s).sampleOffset = s.sampleOffset := by cases h : fifoFull s <;> simp [fifoPush, h]
@[simp] theorem fifoPush_autoinit (b : Byte) (s : State) : (fifoPush b s).autoinit = s.autoinit := by cases h : fifoFull s <;> simp [fifoPush, h]
@[simp] theorem fifoPush_dmaEnabled (b : Byte) (s : State) : (fifoPush b s).dmaEnabled = s.dmaEnabled := by cases h : fifoFull s <;> simp [fifoPush, h]
@[simp] theorem fifoPush_resetState (b : Byte) (s : State) : (fifoPush b s).resetState = s.resetState := by cases h : fifoFull s <;> simp [fifoPush, h]
@[simp] theorem fifoPush_fifo (b : Byte) (s : State) : (fifoPush b s).fifo = Memory.write s.fifo s.tail.toNat b := by cases h : fifoFull s <;> simp [fifoPush, h]
@[simp] theorem fifoPush_head (b : Byte) (s : State) : (fifoPush b s).head = s.head := by cases h : fifoFull s <;> simp [fifoPush, h]
@[simp] theorem fifoPush_tail (b : Byte) (s : State) : (fifoPush b s).tail = s.tail + 1 := by cases h : fifoFull s <;> simp [fifoPush, h]
@[simp] theorem fifoPush_frameCount (b : Byte) (s : State) : (fifoPush b s).frameCount = s.frameCount := by cases h : fifoFull s <;> simp [fifoPush, h]
@[simp] theorem fifoPush_frame (b : Byte) (s : State) : (fifoPush b s).frame = s.frame := by cases h : fifoFull s <;> simp [fifoPush, h]
@[simp] theorem fifoPush_irq (b : Byte) (s : State) : (fifoPush b s).irq = s.irq := by cases h : fifoFull s <;> simp [fifoPush, h]
@[simp] theorem fifoPush_pacePending (b : Byte) (s : State) : (fifoPush b s).pacePending = s.pacePending := by cases h : fifoFull s <;> simp [fifoPush, h]
@[simp] theorem fifoPush_dmaReq (b : Byte) (s : State) : (fifoPush b s).dmaReq = s.dmaReq := by cases h : fifoFull s <;> simp [fifoPush, h]
@[simp] theorem fifoPush_diagLog (b : Byte) (s : State) : (fifoPush b s).diagLog = if fifoFull s then s.diagLog ++ [.overrun] else s.diagLog := by cases h : fifoFull s <;> simp [fifoPush, h]
@[simp] theorem fifoPush_irqAssertCount (b : Byte) (s : State) : (fifoPush b s).irqAssertCount = s.irqAssertCount := by cases h : fifoFull s <;> simp [fifoPush, h]
@[simp] theorem fifoPush_pollOp (b : Byte) (s : State) : (fifoPush b s).pollOp = s.pollOp := by cases h : fifoFull s <;> simp [fifoPush, h]
@[simp] theorem fifoPush_pullArmed (b : Byte) (s : State) : (fifoPush b s).pullArmed = s.pullArmed := by cases h : fifoFull s <;> simp [fifoPush, h]
@[simp] theorem fifoPush_n (b : Byte) (s : State) : (fifoPush b s).n = s.n := by cases h : fifoFull s <;> simp [fifoPush, h]
@[simp] theorem fifoPush_buf (b : Byte) (s : State) : (fifoPush b s).buf = s.buf := by cases h : fifoFull s <;> simp [fifoPush, h]
@[simp] theorem fifoPush_waitPolls (b : Byte) (s : State) : (fifoPush b s).waitPolls = s.waitPolls := by cases h : fifoFull s <;> simp [fifoPush, h]
@[simp] theorem fifoPush_params (b : Byte) (s : State) : (fifoPush b s).params = s.params := by cases h : fifoFull s <;> simp [fifoPush, h]
@[simp] theorem fifoPush_script (b : Byte) (s : State) : (fifoPush b s).script = s.script := by cases h : fifoFull s <;> simp [fifoPush, h]
@[simp] theorem fifoPush_draws (b : Byte) (s : State) : (fifoPush b s).draws = s.draws := by cases h : fifoFull s <;> simp [fifoPush, h]
@[simp] theorem fifoPush_answer (b : Byte) (s : State) : (fifoPush b s).answer = s.answer := by cases h : fifoFull s <;> simp [fifoPush, h]

/-! ### `paceEnable` -/

@[simp] theorem paceEnable_inbox (s : State) : (paceEnable s).inbox = s.inbox := by cases h : s.dmaEnabled <;> simp [paceEnable, h]
@[simp] theorem paceEnable_outbox (s : State) : (paceEnable s).outbox = s.outbox := by cases h : s.dmaEnabled <;> simp [paceEnable, h]
@[simp] theorem paceEnable_davPc (s : State) : (paceEnable s).davPc = s.davPc := by cases h : s.dmaEnabled <;> simp [paceEnable, h]
@[simp] theorem paceEnable_davDsp (s : State) : (paceEnable s).davDsp = s.davDsp := by cases h : s.dmaEnabled <;> simp [paceEnable, h]
@[simp] theorem paceEnable_dspBusy (s : State) : (paceEnable s).dspBusy = s.dspBusy := by cases h : s.dmaEnabled <;> simp [paceEnable, h]
@[simp] theorem paceEnable_currentCommand (s : State) : (paceEnable s).currentCommand = s.currentCommand := by cases h : s.dmaEnabled <;> simp [paceEnable, h]
@[simp] theorem paceEnable_currentCommandIndex (s : State) : (paceEnable s).currentCommandIndex = s.currentCommandIndex := by cases h : s.dmaEnabled <;> simp [paceEnable, h]
@[simp] theorem paceEnable_testRegister (s : State) : (paceEnable s).testRegister = s.testRegister := by cases h : s.dmaEnabled <;> simp [paceEnable, h]
@[simp] theorem paceEnable_dmaInterval (s : State) : (paceEnable s).dmaInterval = s.dmaInterval := by cases h : s.dmaEnabled <;> simp [paceEnable, h]
@[simp] theorem paceEnable_dmaIntervalTrim (s : State) : (paceEnable s).dmaIntervalTrim = s.dmaIntervalTrim := by cases h : s.dmaEnabled <;> simp [paceEnable, h]
@[simp] theorem paceEnable_dmaBlockSize (s : State) : (paceEnable s).dmaBlockSize = s.dmaBlockSize := by cases h : s.dmaEnabled <;> simp [paceEnable, h]
@[simp] theorem paceEnable_dmaSampleCount (s : State) : (paceEnable s).dmaSampleCount = s.dmaSampleCount := by cases h : s.dmaEnabled <;> simp [paceEnable, h]
@[simp] theorem paceEnable_dmaSampleCountRx (s : State) : (paceEnable s).dmaSampleCountRx = s.dmaSampleCountRx := by cases h : s.dmaEnabled <;> simp [paceEnable, h]
@[simp] theorem paceEnable_timeConstant (s : State) : (paceEnable s).timeConstant = s.timeConstant := by cases h : s.dmaEnabled <;> simp [paceEnable, h]
@[simp] theorem paceEnable_sampleRate (s : State) : (paceEnable s).sampleRate = s.sampleRate := by cases h : s.dmaEnabled <;> simp [paceEnable, h]
@[simp] theorem paceEnable_sampleStep (s : State) : (paceEnable s).sampleStep = s.sampleStep := by cases h : s.dmaEnabled <;> simp [paceEnable, h]
@[simp] theorem paceEnable_sampleFactor (s : State) : (paceEnable s).sampleFactor = s.sampleFactor := by cases h : s.dmaEnabled <;> simp [paceEnable, h]
@[simp] theorem paceEnable_sampleOffset (s : State) : (paceEnable s).sampleOffset = s.sampleOffset := by cases h : s.dmaEnabled <;> simp [paceEnable, h]
@[simp] theorem paceEnable_autoinit (s : State) : (paceEnable s).autoinit = s.autoinit := by cases h : s.dmaEnabled <;> simp [paceEnable, h]
@[simp] theorem paceEnable_dmaEnabled (s : State) : (paceEnable s).dmaEnabled = true := by cases h : s.dmaEnabled <;> simp [paceEnable, h]
@[simp] theorem paceEnable_resetState (s : State) : (paceEnable s).resetState = s.resetState := by cases h : s.dmaEnabled <;> simp [paceEnable, h]
@[simp] theorem paceEnable_fifo (s : State) : (paceEnable s).fifo = s.fifo := by cases h : s.dmaEnabled <;> simp [paceEnable, h]
@[simp] theorem paceEnable_head (s : State) : (paceEnable s).head = if s.dmaEnabled then s.head else s.tail := by cases h : s.dmaEnabled <;> simp [paceEnable, h]
@[simp] theorem paceEnable_tail (s : State) : (paceEnable s).tail = s.tail := by cases h : s.dmaEnabled <;> simp [paceEnable, h]
@[simp] theorem paceEnable_frameCount (s : State) : (paceEnable s).frameCount = s.frameCount := by cases h : s.dmaEnabled <;> simp [paceEnable, h]
@[simp] theorem paceEnable_frame (s : State) : (paceEnable s).frame = s.frame := by cases h : s.dmaEnabled <;> simp [paceEnable, h]
@[simp] theorem paceEnable_irq (s : State) : (paceEnable s).irq = s.irq := by cases h : s.dmaEnabled <;> simp [paceEnable, h]
@[simp] theorem paceEnable_pacePending (s : State) : (paceEnable s).pacePending = if s.dmaEnabled then s.pacePending else some (s.dmaInterval.toNat : Int) := by cases h : s.dmaEnabled <;> simp [paceEnable, h]
@[simp] theorem paceEnable_dmaReq (s : State) : (paceEnable s).dmaReq = s.dmaReq := by cases h : s.dmaEnabled <;> simp [paceEnable, h]
@[simp] theorem paceEnable_diagLog (s : State) : (paceEnable s).diagLog = s.diagLog := by cases h : s.dmaEnabled <;> simp [paceEnable, h]
@[simp] theorem paceEnable_irqAssertCount (s : State) : (paceEnable s).irqAssertCount = s.irqAssertCount := by cases h : s.dmaEnabled <;> simp [paceEnable, h]
@[simp] theorem paceEnable_pollOp (s : State) : (paceEnable s).pollOp = s.pollOp := by cases h : s.dmaEnabled <;> simp [paceEnable, h]
@[simp] theorem paceEnable_pullArmed (s : State) : (paceEnable s).pullArmed = s.pullArmed := by cases h : s.dmaEnabled <;> simp [paceEnable, h]
@[simp] theorem paceEnable_n (s : State) : (paceEnable s).n = s.n := by cases h : s.dmaEnabled <;> simp [paceEnable, h]
@[simp] theorem paceEnable_buf (s : State) : (paceEnable s).buf = s.buf := by cases h : s.dmaEnabled <;> simp [paceEnable, h]
@[simp] theorem paceEnable_waitPolls (s : State) : (paceEnable s).waitPolls = s.waitPolls := by cases h : s.dmaEnabled <;> simp [paceEnable, h]
@[simp] theorem paceEnable_params (s : State) : (paceEnable s).params = s.params := by cases h : s.dmaEnabled <;> simp [paceEnable, h]
@[simp] theorem paceEnable_script (s : State) : (paceEnable s).script = s.script := by cases h : s.dmaEnabled <;> simp [paceEnable, h]
@[simp] theorem paceEnable_draws (s : State) : (paceEnable s).draws = s.draws := by cases h : s.dmaEnabled <;> simp [paceEnable, h]
@[simp] theorem paceEnable_answer (s : State) : (paceEnable s).answer = s.answer := by cases h : s.dmaEnabled <;> simp [paceEnable, h]

end Sys2Proof.Machine
end

