-- ==== Sys2Proof/Laws/Memory.lean ====
section
/-! SUPPORT. Byte storage: a read after a write, and the canonical form is kept by every operation on it. -/

namespace Sys2Proof.Machine

/-- What a write of a cell stores: the written byte at its address, every other address as before. -/
theorem memory_read_write (m : List Host.Cell) (x y : Nat) (v : Byte) :
    Memory.read (Memory.write m x v) y = if y = x then some v else Memory.read m y := by
  induction m with
  | nil => rfl
  | cons c rest ih =>
    obtain ⟨a, w⟩ := c
    by_cases hlt : x < a
    · rw [Memory.write, if_pos hlt, Memory.read]
    · by_cases heq : x = a
      · subst heq
        rw [Memory.write, if_neg hlt, if_pos rfl, Memory.read, Memory.read]
        split_ifs <;> rfl
      · rw [Memory.write, if_neg hlt, if_neg heq, Memory.read, ih, Memory.read]
        by_cases hy : y = a
        · rw [if_pos hy, if_neg (by omega), if_pos hy]
        · rw [if_neg hy, if_neg hy]

/-- Every cell of a written memory is the new one or an old one. -/
theorem memory_mem_write (m : List Host.Cell) (x : Nat) (v : Byte) (c : Host.Cell) (h : c ∈ Memory.write m x v) :
    c = (x, v) ∨ c ∈ m := by
  induction m with
  | nil => simpa [Memory.write] using h
  | cons d rest ih =>
    simp only [Memory.write] at h
    split_ifs at h
    · simpa using h
    · rcases List.mem_cons.1 h with h | h
      · exact .inl h
      · exact .inr (List.mem_cons_of_mem _ h)
    · rcases List.mem_cons.1 h with h | h
      · exact .inr (h ▸ List.mem_cons_self)
      · exact (ih h).imp_right (List.mem_cons_of_mem _)

/-- A write keeps the canonical form. -/
theorem memory_wf_write (m : List Host.Cell) (hm : Memory.wf m) (x : Nat) (hx : x < Config.fifoCapacity) (v : Byte) :
    Memory.wf (Memory.write m x v) := by
  refine ⟨?_, fun c hc => ?_⟩
  · induction m with
    | nil => simp [Memory.write]
    | cons d rest ih =>
      obtain ⟨a, w⟩ := d
      have hrest : Memory.wf rest := ⟨hm.1.of_cons, fun d hd => hm.2 d (List.mem_cons_of_mem _ hd)⟩
      have hlt : ∀ c ∈ rest, a < c.1 := (List.pairwise_cons.1 hm.1).1
      simp only [Memory.write]
      split_ifs with h1 h2
      · refine List.pairwise_cons.2 ⟨fun c hc => ?_, hm.1⟩
        rcases List.mem_cons.1 hc with rfl | hc
        · exact h1
        · exact h1.trans (hlt c hc)
      · subst h2
        exact List.pairwise_cons.2 ⟨fun c hc => hlt c hc, hrest.1⟩
      · refine List.pairwise_cons.2 ⟨fun c hc => ?_, ih hrest⟩
        rcases memory_mem_write _ _ _ _ hc with rfl | hc
        · exact lt_of_le_of_ne (Nat.le_of_not_lt h1) (Ne.symm h2)
        · exact hlt c hc
  · rcases memory_mem_write _ _ _ _ hc with rfl | hc
    · exact hx
    · exact hm.2 c hc

/-- A FIFO write keeps the canonical form: an index is always in range (R72). -/
theorem fifoWrite_wf (s : State) (hs : Memory.wf s.fifo) (a : Index) (v : Byte) :
    Memory.wf (fifoWrite a v s).fifo :=
  memory_wf_write _ hs _ a.isLt v

/-- A push keeps the canonical form. -/
theorem fifoPush_wf (s : State) (hs : Memory.wf s.fifo) (b : Byte) : Memory.wf (fifoPush b s).fifo := by
  rw [fifoPush_fifo]
  exact memory_wf_write _ hs _ s.tail.isLt b

/-- What a push leaves at each address (R133). -/
theorem fifoRead_fifoPush (s : State) (b : Byte) (a : Nat) :
    fifoRead (fifoPush b s) a = if a = s.tail.toNat then b else fifoRead s a := by
  rw [fifoRead, fifoPush_fifo, memory_read_write]
  split_ifs <;> rfl

/-- Memory is canonical after power-on. -/
theorem reset_fifo_wf : Memory.wf State.reset.fifo := by decide

end Sys2Proof.Machine
end

