-- ==== Sys2Proof/Laws/Fifo.lean ====
section
/-! SUPPORT. The FIFO: level arithmetic, what a pop copies, and the queue the ring stands for. -/

namespace Sys2Proof.Machine

/-- The level in plain arithmetic (R131). -/
theorem fifoLevel_eq (s : State) : fifoLevel s = (s.tail.toNat + 1024 - s.head.toNat) % 1024 := by
  unfold fifoLevel
  have := s.tail.isLt
  have := s.head.isLt
  rw [BitVec.toNat_sub]
  omega

theorem fifoLevel_lt (s : State) : fifoLevel s < 1024 := (s.tail - s.head).isLt

theorem fifoLevel_eq_zero (s : State) : fifoLevel s = 0 ↔ s.head = s.tail := by
  rw [fifoLevel_eq]
  have := s.tail.isLt
  have := s.head.isLt
  rw [← BitVec.toNat_inj]
  omega

theorem fifoFull_iff (s : State) : fifoFull s = true ↔ fifoLevel s = 1023 := by
  simp [fifoFull, Config.fifoCapacity]

/-- The level after a push: one more, or 0 after an overrun (R133, R138). -/
theorem fifoLevel_fifoPush (s : State) (b : Byte) :
    fifoLevel (fifoPush b s) = if fifoLevel s = 1023 then 0 else fifoLevel s + 1 := by
  have := s.tail.isLt
  have := s.head.isLt
  simp only [fifoLevel_eq, fifoPush_tail, fifoPush_head, BitVec.toNat_add]
  split <;> simp <;> omega

/-- The level after a pop (R134). -/
theorem fifoLevel_fifoPopInto (s : State) (maxLen : Nat) :
    fifoLevel (fifoPopInto maxLen s) = fifoLevel s - maxLen := by
  have := s.tail.isLt
  have := s.head.isLt
  simp only [fifoLevel_eq, fifoPopInto_tail, fifoPopInto_head, popCount, BitVec.toNat_add, BitVec.toNat_ofNat]
  omega

@[simp] theorem fifoLevel_fifoClear (s : State) : fifoLevel (fifoClear s) = 0 := by
  simp [fifoLevel]

@[simp] theorem fifoBytes_length (s : State) (count : Nat) : (fifoBytes s count).length = count := by
  simp [fifoBytes]

@[simp] theorem fifoBytes_zero (s : State) : fifoBytes s 0 = [] := rfl

/-- The bytes from `head` on depend on the storage and on `head` alone. -/
theorem fifoBytes_congr (s t : State) (count : Nat) (hf : t.fifo = s.fifo) (hh : t.head = s.head) :
    fifoBytes t count = fifoBytes s count := by
  simp [fifoBytes, fifoRead, hf, hh]

/-- The byte `k` places after `head`. -/
theorem fifoBytes_getElem? (s : State) (count k : Nat) :
    (fifoBytes s count)[k]? =
      if k < count then some (fifoRead s (s.head + BitVec.ofNat 10 k).toNat) else none := by
  simp only [fifoBytes, List.getElem?_map]
  split_ifs with h
  · simp [List.getElem?_range h]
  · simp [List.getElem?_eq_none (l := List.range count) (by simpa using h)]

/-- A shorter pop copies a prefix. -/
theorem fifoBytes_take (s : State) (count k : Nat) (h : k ≤ count) :
    (fifoBytes s count).take k = fifoBytes s k := by
  simp [fifoBytes, ← List.map_take, List.take_range, Nat.min_eq_left h]

/-- What is left after `k` bytes have been taken from the front. -/
theorem fifoBytes_drop (s t : State) (count k : Nat) (hf : t.fifo = s.fifo)
    (hh : t.head = s.head + BitVec.ofNat 10 k) :
    (fifoBytes s count).drop k = fifoBytes t (count - k) := by
  apply List.ext_getElem?
  intro j
  rw [List.getElem?_drop, fifoBytes_getElem?, fifoBytes_getElem?]
  by_cases hj : k + j < count
  · rw [if_pos hj, if_pos (by omega), hh, fifoRead, fifoRead, hf, BitVec.add_assoc, ← BitVec.ofNat_add]
  · rw [if_neg hj, if_neg (by omega)]

/-- One more byte in the window is the byte at the window's end. -/
theorem fifoBytes_succ (s : State) (count : Nat) :
    fifoBytes s (count + 1) = fifoBytes s count ++ [fifoRead s (s.head + BitVec.ofNat 10 count).toNat] := by
  simp [fifoBytes, List.range_succ]

/-- A push leaves the bytes already in a window that ends before `tail` as they were. -/
theorem fifoBytes_fifoPush (s : State) (b : Byte) (count : Nat) (h : count ≤ fifoLevel s) :
    fifoBytes (fifoPush b s) count = fifoBytes s count := by
  apply List.ext_getElem?
  intro k
  rw [fifoBytes_getElem?, fifoBytes_getElem?]
  split_ifs with hk
  · rw [fifoPush_head, fifoRead_fifoPush, if_neg]
    rw [fifoLevel_eq] at h
    have := s.tail.isLt
    have := s.head.isLt
    rw [BitVec.toNat_add, BitVec.toNat_ofNat]
    omega
  · rfl

end Sys2Proof.Machine
end

