-- ==== Sys2Proof/Laws/Frames.lean ====
section
/-! SUPPORT. For the phases, the commands and the larger operations: what each field of the state they write is
afterwards, and the frame, that is every field they leave. -/

namespace Sys2Proof.Machine

/-! ### `protocolExit` -/

@[simp] theorem protocolExit_inbox (s : State) : (protocolExit s).inbox = s.inbox := rfl
@[simp] theorem protocolExit_outbox (s : State) : (protocolExit s).outbox = s.outbox := rfl
@[simp] theorem protocolExit_davPc (s : State) : (protocolExit s).davPc = s.davPc := rfl
@[simp] theorem protocolExit_davDsp (s : State) : (protocolExit s).davDsp = s.davDsp := rfl
@[simp] theorem protocolExit_dspBusy (s : State) : (protocolExit s).dspBusy = false := rfl
@[simp] theorem protocolExit_currentCommand (s : State) : (protocolExit s).currentCommand = s.currentCommand := rfl
@[simp] theorem protocolExit_currentCommandIndex (s : State) : (protocolExit s).currentCommandIndex = s.currentCommandIndex := rfl
@[simp] theorem protocolExit_testRegister (s : State) : (protocolExit s).testRegister = s.testRegister := rfl
@[simp] theorem protocolExit_dmaInterval (s : State) : (protocolExit s).dmaInterval = s.dmaInterval := rfl
@[simp] theorem protocolExit_dmaIntervalTrim (s : State) : (protocolExit s).dmaIntervalTrim = s.dmaIntervalTrim := rfl
@[simp] theorem protocolExit_dmaBlockSize (s : State) : (protocolExit s).dmaBlockSize = s.dmaBlockSize := rfl
@[simp] theorem protocolExit_dmaSampleCount (s : State) : (protocolExit s).dmaSampleCount = s.dmaSampleCount := rfl
@[simp] theorem protocolExit_dmaSampleCountRx (s : State) : (protocolExit s).dmaSampleCountRx = s.dmaSampleCountRx := rfl
@[simp] theorem protocolExit_timeConstant (s : State) : (protocolExit s).timeConstant = s.timeConstant := rfl
@[simp] theorem protocolExit_sampleRate (s : State) : (protocolExit s).sampleRate = s.sampleRate := rfl
@[simp] theorem protocolExit_sampleStep (s : State) : (protocolExit s).sampleStep = s.sampleStep := rfl
@[simp] theorem protocolExit_sampleFactor (s : State) : (protocolExit s).sampleFactor = s.sampleFactor := rfl
@[simp] theorem protocolExit_sampleOffset (s : State) : (protocolExit s).sampleOffset = s.sampleOffset := rfl
@[simp] theorem protocolExit_autoinit (s : State) : (protocolExit s).autoinit = s.autoinit := rfl
@[simp] theorem protocolExit_dmaEnabled (s : State) : (protocolExit s).dmaEnabled = s.dmaEnabled := rfl
@[simp] theorem protocolExit_resetState (s : State) : (protocolExit s).resetState = s.resetState := rfl
@[simp] theorem protocolExit_fifo (s : State) : (protocolExit s).fifo = s.fifo := rfl
@[simp] theorem protocolExit_head (s : State) : (protocolExit s).head = s.head := rfl
@[simp] theorem protocolExit_tail (s : State) : (protocolExit s).tail = s.tail := rfl
@[simp] theorem protocolExit_frameCount (s : State) : (protocolExit s).frameCount = s.frameCount := rfl
@[simp] theorem protocolExit_frame (s : State) : (protocolExit s).frame = s.frame := rfl
@[simp] theorem protocolExit_irq (s : State) : (protocolExit s).irq = s.irq := rfl
@[simp] theorem protocolExit_pacePending (s : State) : (protocolExit s).pacePending = s.pacePending := rfl
@[simp] theorem protocolExit_dmaReq (s : State) : (protocolExit s).dmaReq = s.dmaReq := rfl
@[simp] theorem protocolExit_diagLog (s : State) : (protocolExit s).diagLog = s.diagLog := rfl
@[simp] theorem protocolExit_irqAssertCount (s : State) : (protocolExit s).irqAssertCount = s.irqAssertCount := rfl
@[simp] theorem protocolExit_pollOp (s : State) : (protocolExit s).pollOp = .idle := rfl
@[simp] theorem protocolExit_pullArmed (s : State) : (protocolExit s).pullArmed = s.pullArmed := rfl
@[simp] theorem protocolExit_n (s : State) : (protocolExit s).n = s.n := rfl
@[simp] theorem protocolExit_buf (s : State) : (protocolExit s).buf = s.buf := rfl
@[simp] theorem protocolExit_waitPolls (s : State) : (protocolExit s).waitPolls = s.waitPolls := rfl
@[simp] theorem protocolExit_params (s : State) : (protocolExit s).params = s.params := rfl
@[simp] theorem protocolExit_script (s : State) : (protocolExit s).script = s.script := rfl
@[simp] theorem protocolExit_draws (s : State) : (protocolExit s).draws = s.draws := rfl
@[simp] theorem protocolExit_answer (s : State) : (protocolExit s).answer = s.answer := rfl

/-! ### `frameEntry` -/

@[simp] theorem frameEntry_inbox (s : State) : (frameEntry s).inbox = s.inbox := rfl
@[simp] theorem frameEntry_outbox (s : State) : (frameEntry s).outbox = s.outbox := rfl
@[simp] theorem frameEntry_davPc (s : State) : (frameEntry s).davPc = s.davPc := rfl
@[simp] theorem frameEntry_davDsp (s : State) : (frameEntry s).davDsp = s.davDsp := rfl
@[simp] theorem frameEntry_dspBusy (s : State) : (frameEntry s).dspBusy = s.dspBusy := rfl
@[simp] theorem frameEntry_currentCommand (s : State) : (frameEntry s).currentCommand = s.currentCommand := rfl
@[simp] theorem frameEntry_currentCommandIndex (s : State) : (frameEntry s).currentCommandIndex = s.currentCommandIndex := rfl
@[simp] theorem frameEntry_testRegister (s : State) : (frameEntry s).testRegister = s.testRegister := rfl
@[simp] theorem frameEntry_dmaInterval (s : State) : (frameEntry s).dmaInterval = s.dmaInterval := rfl
@[simp] theorem frameEntry_dmaIntervalTrim (s : State) : (frameEntry s).dmaIntervalTrim = s.dmaIntervalTrim := rfl
@[simp] theorem frameEntry_dmaBlockSize (s : State) : (frameEntry s).dmaBlockSize = s.dmaBlockSize := rfl
@[simp] theorem frameEntry_dmaSampleCount (s : State) : (frameEntry s).dmaSampleCount = s.dmaSampleCount := rfl
@[simp] theorem frameEntry_dmaSampleCountRx (s : State) : (frameEntry s).dmaSampleCountRx = s.dmaSampleCountRx := rfl
@[simp] theorem frameEntry_timeConstant (s : State) : (frameEntry s).timeConstant = s.timeConstant := rfl
@[simp] theorem frameEntry_sampleRate (s : State) : (frameEntry s).sampleRate = s.sampleRate := rfl
@[simp] theorem frameEntry_sampleStep (s : State) : (frameEntry s).sampleStep = s.sampleStep := rfl
@[simp] theorem frameEntry_sampleFactor (s : State) : (frameEntry s).sampleFactor = s.sampleFactor := rfl
@[simp] theorem frameEntry_sampleOffset (s : State) : (frameEntry s).sampleOffset = s.sampleOffset := rfl
@[simp] theorem frameEntry_autoinit (s : State) : (frameEntry s).autoinit = s.autoinit := rfl
@[simp] theorem frameEntry_dmaEnabled (s : State) : (frameEntry s).dmaEnabled = s.dmaEnabled := rfl
@[simp] theorem frameEntry_resetState (s : State) : (frameEntry s).resetState = s.resetState := rfl
@[simp] theorem frameEntry_fifo (s : State) : (frameEntry s).fifo = s.fifo := rfl
@[simp] theorem frameEntry_head (s : State) : (frameEntry s).head = s.head := rfl
@[simp] theorem frameEntry_tail (s : State) : (frameEntry s).tail = s.tail := rfl
@[simp] theorem frameEntry_frameCount (s : State) : (frameEntry s).frameCount = s.frameCount := rfl
@[simp] theorem frameEntry_frame (s : State) : (frameEntry s).frame = s.frame := rfl
@[simp] theorem frameEntry_irq (s : State) : (frameEntry s).irq = s.irq := rfl
@[simp] theorem frameEntry_pacePending (s : State) : (frameEntry s).pacePending = s.pacePending := rfl
@[simp] theorem frameEntry_dmaReq (s : State) : (frameEntry s).dmaReq = s.dmaReq := rfl
@[simp] theorem frameEntry_diagLog (s : State) : (frameEntry s).diagLog = s.diagLog := rfl
@[simp] theorem frameEntry_irqAssertCount (s : State) : (frameEntry s).irqAssertCount = s.irqAssertCount := rfl
@[simp] theorem frameEntry_pollOp (s : State) : (frameEntry s).pollOp = .f2Next := rfl
@[simp] theorem frameEntry_pullArmed (s : State) : (frameEntry s).pullArmed = s.dmaEnabled := rfl
@[simp] theorem frameEntry_n (s : State) : (frameEntry s).n = 0 := rfl
@[simp] theorem frameEntry_buf (s : State) : (frameEntry s).buf = s.buf := rfl
@[simp] theorem frameEntry_waitPolls (s : State) : (frameEntry s).waitPolls = 0 := rfl
@[simp] theorem frameEntry_params (s : State) : (frameEntry s).params = s.params := rfl
@[simp] theorem frameEntry_script (s : State) : (frameEntry s).script = s.script := rfl
@[simp] theorem frameEntry_draws (s : State) : (frameEntry s).draws = s.draws := rfl
@[simp] theorem frameEntry_answer (s : State) : (frameEntry s).answer = s.answer := rfl

/-! ### `resetAssert` -/

@[simp] theorem resetAssert_inbox (s : State) : (resetAssert s).inbox = s.inbox := rfl
@[simp] theorem resetAssert_outbox (s : State) : (resetAssert s).outbox = s.outbox := rfl
@[simp] theorem resetAssert_davPc (s : State) : (resetAssert s).davPc = s.davPc := rfl
@[simp] theorem resetAssert_davDsp (s : State) : (resetAssert s).davDsp = s.davDsp := rfl
@[simp] theorem resetAssert_dspBusy (s : State) : (resetAssert s).dspBusy = s.dspBusy := rfl
@[simp] theorem resetAssert_currentCommand (s : State) : (resetAssert s).currentCommand = s.currentCommand := rfl
@[simp] theorem resetAssert_currentCommandIndex (s : State) : (resetAssert s).currentCommandIndex = s.currentCommandIndex := rfl
@[simp] theorem resetAssert_testRegister (s : State) : (resetAssert s).testRegister = s.testRegister := rfl
@[simp] theorem resetAssert_dmaInterval (s : State) : (resetAssert s).dmaInterval = s.dmaInterval := rfl
@[simp] theorem resetAssert_dmaIntervalTrim (s : State) : (resetAssert s).dmaIntervalTrim = s.dmaIntervalTrim := rfl
@[simp] theorem resetAssert_dmaBlockSize (s : State) : (resetAssert s).dmaBlockSize = s.dmaBlockSize := rfl
@[simp] theorem resetAssert_dmaSampleCount (s : State) : (resetAssert s).dmaSampleCount = s.dmaSampleCount := rfl
@[simp] theorem resetAssert_dmaSampleCountRx (s : State) : (resetAssert s).dmaSampleCountRx = s.dmaSampleCountRx := rfl
@[simp] theorem resetAssert_timeConstant (s : State) : (resetAssert s).timeConstant = s.timeConstant := rfl
@[simp] theorem resetAssert_sampleRate (s : State) : (resetAssert s).sampleRate = s.sampleRate := rfl
@[simp] theorem resetAssert_sampleStep (s : State) : (resetAssert s).sampleStep = s.sampleStep := rfl
@[simp] theorem resetAssert_sampleFactor (s : State) : (resetAssert s).sampleFactor = s.sampleFactor := rfl
@[simp] theorem resetAssert_sampleOffset (s : State) : (resetAssert s).sampleOffset = s.sampleOffset := rfl
@[simp] theorem resetAssert_autoinit (s : State) : (resetAssert s).autoinit = false := rfl
@[simp] theorem resetAssert_dmaEnabled (s : State) : (resetAssert s).dmaEnabled = false := rfl
@[simp] theorem resetAssert_resetState (s : State) : (resetAssert s).resetState = true := rfl
@[simp] theorem resetAssert_fifo (s : State) : (resetAssert s).fifo = s.fifo := rfl
@[simp] theorem resetAssert_head (s : State) : (resetAssert s).head = s.head := rfl
@[simp] theorem resetAssert_tail (s : State) : (resetAssert s).tail = s.tail := rfl
@[simp] theorem resetAssert_frameCount (s : State) : (resetAssert s).frameCount = s.frameCount := rfl
@[simp] theorem resetAssert_frame (s : State) : (resetAssert s).frame = s.frame := rfl
@[simp] theorem resetAssert_irq (s : State) : (resetAssert s).irq = s.irq := rfl
@[simp] theorem resetAssert_pacePending (s : State) : (resetAssert s).pacePending = none := rfl
@[simp] theorem resetAssert_dmaReq (s : State) : (resetAssert s).dmaReq = s.dmaReq := rfl
@[simp] theorem resetAssert_diagLog (s : State) : (resetAssert s).diagLog = s.diagLog := rfl
@[simp] theorem resetAssert_irqAssertCount (s : State) : (resetAssert s).irqAssertCount = s.irqAssertCount := rfl
@[simp] theorem resetAssert_pollOp (s : State) : (resetAssert s).pollOp = s.pollOp := rfl
@[simp] theorem resetAssert_pullArmed (s : State) : (resetAssert s).pullArmed = s.pullArmed := rfl
@[simp] theorem resetAssert_n (s : State) : (resetAssert s).n = s.n := rfl
@[simp] theorem resetAssert_buf (s : State) : (resetAssert s).buf = s.buf := rfl
@[simp] theorem resetAssert_waitPolls (s : State) : (resetAssert s).waitPolls = s.waitPolls := rfl
@[simp] theorem resetAssert_params (s : State) : (resetAssert s).params = s.params := rfl
@[simp] theorem resetAssert_script (s : State) : (resetAssert s).script = s.script := rfl
@[simp] theorem resetAssert_draws (s : State) : (resetAssert s).draws = s.draws := rfl
@[simp] theorem resetAssert_answer (s : State) : (resetAssert s).answer = s.answer := rfl

/-! ### `resetRelease` -/

@[simp] theorem resetRelease_inbox (s : State) : (resetRelease s).inbox = s.inbox := rfl
@[simp] theorem resetRelease_outbox (s : State) : (resetRelease s).outbox = 0xAA := rfl
@[simp] theorem resetRelease_davPc (s : State) : (resetRelease s).davPc = true := rfl
@[simp] theorem resetRelease_davDsp (s : State) : (resetRelease s).davDsp = s.davDsp := rfl
@[simp] theorem resetRelease_dspBusy (s : State) : (resetRelease s).dspBusy = s.dspBusy := rfl
@[simp] theorem resetRelease_currentCommand (s : State) : (resetRelease s).currentCommand = 0 := rfl
@[simp] theorem resetRelease_currentCommandIndex (s : State) : (resetRelease s).currentCommandIndex = 0 := rfl
@[simp] theorem resetRelease_testRegister (s : State) : (resetRelease s).testRegister = s.testRegister := rfl
@[simp] theorem resetRelease_dmaInterval (s : State) : (resetRelease s).dmaInterval = s.dmaInterval := rfl
@[simp] theorem resetRelease_dmaIntervalTrim (s : State) : (resetRelease s).dmaIntervalTrim = s.dmaIntervalTrim := rfl
@[simp] theorem resetRelease_dmaBlockSize (s : State) : (resetRelease s).dmaBlockSize = 0x7FF := rfl
@[simp] theorem resetRelease_dmaSampleCount (s : State) : (resetRelease s).dmaSampleCount = 0 := rfl
@[simp] theorem resetRelease_dmaSampleCountRx (s : State) : (resetRelease s).dmaSampleCountRx = 0 := rfl
@[simp] theorem resetRelease_timeConstant (s : State) : (resetRelease s).timeConstant = s.timeConstant := rfl
@[simp] theorem resetRelease_sampleRate (s : State) : (resetRelease s).sampleRate = s.sampleRate := rfl
@[simp] theorem resetRelease_sampleStep (s : State) : (resetRelease s).sampleStep = s.sampleStep := rfl
@[simp] theorem resetRelease_sampleFactor (s : State) : (resetRelease s).sampleFactor = s.sampleFactor := rfl
@[simp] theorem resetRelease_sampleOffset (s : State) : (resetRelease s).sampleOffset = s.sampleOffset := rfl
@[simp] theorem resetRelease_autoinit (s : State) : (resetRelease s).autoinit = s.autoinit := rfl
@[simp] theorem resetRelease_dmaEnabled (s : State) : (resetRelease s).dmaEnabled = s.dmaEnabled := rfl
@[simp] theorem resetRelease_resetState (s : State) : (resetRelease s).resetState = false := rfl
@[simp] theorem resetRelease_fifo (s : State) : (resetRelease s).fifo = s.fifo := rfl
@[simp] theorem resetRelease_head (s : State) : (resetRelease s).head = s.head := rfl
@[simp] theorem resetRelease_tail (s : State) : (resetRelease s).tail = s.tail := rfl
@[simp] theorem resetRelease_frameCount (s : State) : (resetRelease s).frameCount = s.frameCount := rfl
@[simp] theorem resetRelease_frame (s : State) : (resetRelease s).frame = s.frame := rfl
@[simp] theorem resetRelease_irq (s : State) : (resetRelease s).irq = s.irq := rfl
@[simp] theorem resetRelease_pacePending (s : State) : (resetRelease s).pacePending = s.pacePending := rfl
@[simp] theorem resetRelease_dmaReq (s : State) : (resetRelease s).dmaReq = s.dmaReq := rfl
@[simp] theorem resetRelease_diagLog (s : State) : (resetRelease s).diagLog = s.diagLog := rfl
@[simp] theorem resetRelease_irqAssertCount (s : State) : (resetRelease s).irqAssertCount = s.irqAssertCount := rfl
@[simp] theorem resetRelease_pollOp (s : State) : (resetRelease s).pollOp = s.pollOp := rfl
@[simp] theorem resetRelease_pullArmed (s : State) : (resetRelease s).pullArmed = s.pullArmed := rfl
@[simp] theorem resetRelease_n (s : State) : (resetRelease s).n = s.n := rfl
@[simp] theorem resetRelease_buf (s : State) : (resetRelease s).buf = s.buf := rfl
@[simp] theorem resetRelease_waitPolls (s : State) : (resetRelease s).waitPolls = s.waitPolls := rfl
@[simp] theorem resetRelease_params (s : State) : (resetRelease s).params = s.params := rfl
@[simp] theorem resetRelease_script (s : State) : (resetRelease s).script = s.script := rfl
@[simp] theorem resetRelease_draws (s : State) : (resetRelease s).draws = s.draws := rfl
@[simp] theorem resetRelease_answer (s : State) : (resetRelease s).answer = s.answer := rfl

/-! ### `setTimeConstant` -/

@[simp] theorem setTimeConstant_inbox (v : Byte) (s : State) : (setTimeConstant v s).inbox = s.inbox := rfl
@[simp] theorem setTimeConstant_outbox (v : Byte) (s : State) : (setTimeConstant v s).outbox = s.outbox := rfl
@[simp] theorem setTimeConstant_davPc (v : Byte) (s : State) : (setTimeConstant v s).davPc = s.davPc := rfl
@[simp] theorem setTimeConstant_davDsp (v : Byte) (s : State) : (setTimeConstant v s).davDsp = s.davDsp := rfl
@[simp] theorem setTimeConstant_dspBusy (v : Byte) (s : State) : (setTimeConstant v s).dspBusy = s.dspBusy := rfl
@[simp] theorem setTimeConstant_currentCommand (v : Byte) (s : State) : (setTimeConstant v s).currentCommand = s.currentCommand := rfl
@[simp] theorem setTimeConstant_currentCommandIndex (v : Byte) (s : State) : (setTimeConstant v s).currentCommandIndex = s.currentCommandIndex := rfl
@[simp] theorem setTimeConstant_testRegister (v : Byte) (s : State) : (setTimeConstant v s).testRegister = s.testRegister := rfl
@[simp] theorem setTimeConstant_dmaInterval (v : Byte) (s : State) : (setTimeConstant v s).dmaInterval = BitVec.ofNat 16 (intervalOf (rateOf v)) := rfl
@[simp] theorem setTimeConstant_dmaIntervalTrim (v : Byte) (s : State) : (setTimeConstant v s).dmaIntervalTrim = s.dmaIntervalTrim := rfl
@[simp] theorem setTimeConstant_dmaBlockSize (v : Byte) (s : State) : (setTimeConstant v s).dmaBlockSize = s.dmaBlockSize := rfl
@[simp] theorem setTimeConstant_dmaSampleCount (v : Byte) (s : State) : (setTimeConstant v s).dmaSampleCount = s.dmaSampleCount := rfl
@[simp] theorem setTimeConstant_dmaSampleCountRx (v : Byte) (s : State) : (setTimeConstant v s).dmaSampleCountRx = s.dmaSampleCountRx := rfl
@[simp] theorem setTimeConstant_timeConstant (v : Byte) (s : State) : (setTimeConstant v s).timeConstant = v := rfl
@[simp] theorem setTimeConstant_sampleRate (v : Byte) (s : State) : (setTimeConstant v s).sampleRate = BitVec.ofNat 20 (rateOf v) := rfl
@[simp] theorem setTimeConstant_sampleStep (v : Byte) (s : State) : (setTimeConstant v s).sampleStep = BitVec.ofNat 40 (stepOf (rateOf v) s.params.outputRate) := rfl
@[simp] theorem setTimeConstant_sampleFactor (v : Byte) (s : State) : (setTimeConstant v s).sampleFactor = BitVec.ofNat 16 (factorOf (rateOf v) s.params.outputRate) := rfl
@[simp] theorem setTimeConstant_sampleOffset (v : Byte) (s : State) : (setTimeConstant v s).sampleOffset = s.sampleOffset := rfl
@[simp] theorem setTimeConstant_autoinit (v : Byte) (s : State) : (setTimeConstant v s).autoinit = s.autoinit := rfl
@[simp] theorem setTimeConstant_dmaEnabled (v : Byte) (s : State) : (setTimeConstant v s).dmaEnabled = s.dmaEnabled := rfl
@[simp] theorem setTimeConstant_resetState (v : Byte) (s : State) : (setTimeConstant v s).resetState = s.resetState := rfl
@[simp] theorem setTimeConstant_fifo (v : Byte) (s : State) : (setTimeConstant v s).fifo = s.fifo := rfl
@[simp] theorem setTimeConstant_head (v : Byte) (s : State) : (setTimeConstant v s).head = s.head := rfl
@[simp] theorem setTimeConstant_tail (v : Byte) (s : State) : (setTimeConstant v s).tail = s.tail := rfl
@[simp] theorem setTimeConstant_frameCount (v : Byte) (s : State) : (setTimeConstant v s).frameCount = s.frameCount := rfl
@[simp] theorem setTimeConstant_frame (v : Byte) (s : State) : (setTimeConstant v s).frame = s.frame := rfl
@[simp] theorem setTimeConstant_irq (v : Byte) (s : State) : (setTimeConstant v s).irq = s.irq := rfl
@[simp] theorem setTimeConstant_pacePending (v : Byte) (s : State) : (setTimeConstant v s).pacePending = s.pacePending := rfl
@[simp] theorem setTimeConstant_dmaReq (v : Byte) (s : State) : (setTimeConstant v s).dmaReq = s.dmaReq := rfl
@[simp] theorem setTimeConstant_diagLog (v : Byte) (s : State) : (setTimeConstant v s).diagLog = s.diagLog := rfl
@[simp] theorem setTimeConstant_irqAssertCount (v : Byte) (s : State) : (setTimeConstant v s).irqAssertCount = s.irqAssertCount := rfl
@[simp] theorem setTimeConstant_pollOp (v : Byte) (s : State) : (setTimeConstant v s).pollOp = s.pollOp := rfl
@[simp] theorem setTimeConstant_pullArmed (v : Byte) (s : State) : (setTimeConstant v s).pullArmed = s.pullArmed := rfl
@[simp] theorem setTimeConstant_n (v : Byte) (s : State) : (setTimeConstant v s).n = s.n := rfl
@[simp] theorem setTimeConstant_buf (v : Byte) (s : State) : (setTimeConstant v s).buf = s.buf := rfl
@[simp] theorem setTimeConstant_waitPolls (v : Byte) (s : State) : (setTimeConstant v s).waitPolls = s.waitPolls := rfl
@[simp] theorem setTimeConstant_params (v : Byte) (s : State) : (setTimeConstant v s).params = s.params := rfl
@[simp] theorem setTimeConstant_script (v : Byte) (s : State) : (setTimeConstant v s).script = s.script := rfl
@[simp] theorem setTimeConstant_draws (v : Byte) (s : State) : (setTimeConstant v s).draws = s.draws := rfl
@[simp] theorem setTimeConstant_answer (v : Byte) (s : State) : (setTimeConstant v s).answer = s.answer := rfl

/-! ### `pull` -/

@[simp] theorem pull_inbox (s : State) : (pull s).inbox = s.inbox := rfl
@[simp] theorem pull_outbox (s : State) : (pull s).outbox = s.outbox := rfl
@[simp] theorem pull_davPc (s : State) : (pull s).davPc = s.davPc := rfl
@[simp] theorem pull_davDsp (s : State) : (pull s).davDsp = s.davDsp := rfl
@[simp] theorem pull_dspBusy (s : State) : (pull s).dspBusy = s.dspBusy := rfl
@[simp] theorem pull_currentCommand (s : State) : (pull s).currentCommand = s.currentCommand := rfl
@[simp] theorem pull_currentCommandIndex (s : State) : (pull s).currentCommandIndex = s.currentCommandIndex := rfl
@[simp] theorem pull_testRegister (s : State) : (pull s).testRegister = s.testRegister := rfl
@[simp] theorem pull_dmaInterval (s : State) : (pull s).dmaInterval = s.dmaInterval := rfl
@[simp] theorem pull_dmaIntervalTrim (s : State) : (pull s).dmaIntervalTrim = s.dmaIntervalTrim := rfl
@[simp] theorem pull_dmaBlockSize (s : State) : (pull s).dmaBlockSize = s.dmaBlockSize := rfl
@[simp] theorem pull_dmaSampleCount (s : State) : (pull s).dmaSampleCount = s.dmaSampleCount := rfl
@[simp] theorem pull_dmaSampleCountRx (s : State) : (pull s).dmaSampleCountRx = s.dmaSampleCountRx := rfl
@[simp] theorem pull_timeConstant (s : State) : (pull s).timeConstant = s.timeConstant := rfl
@[simp] theorem pull_sampleRate (s : State) : (pull s).sampleRate = s.sampleRate := rfl
@[simp] theorem pull_sampleStep (s : State) : (pull s).sampleStep = s.sampleStep := rfl
@[simp] theorem pull_sampleFactor (s : State) : (pull s).sampleFactor = s.sampleFactor := rfl
@[simp] theorem pull_sampleOffset (s : State) : (pull s).sampleOffset = s.sampleOffset := rfl
@[simp] theorem pull_autoinit (s : State) : (pull s).autoinit = s.autoinit := rfl
@[simp] theorem pull_dmaEnabled (s : State) : (pull s).dmaEnabled = s.dmaEnabled := rfl
@[simp] theorem pull_resetState (s : State) : (pull s).resetState = s.resetState := rfl
@[simp] theorem pull_fifo (s : State) : (pull s).fifo = s.fifo := rfl
@[simp] theorem pull_tail (s : State) : (pull s).tail = s.tail := rfl
@[simp] theorem pull_frameCount (s : State) : (pull s).frameCount = s.frameCount := rfl
@[simp] theorem pull_frame (s : State) : (pull s).frame = s.frame := rfl
@[simp] theorem pull_irq (s : State) : (pull s).irq = s.irq := rfl
@[simp] theorem pull_pacePending (s : State) : (pull s).pacePending = s.pacePending := rfl
@[simp] theorem pull_dmaReq (s : State) : (pull s).dmaReq = s.dmaReq := rfl
@[simp] theorem pull_diagLog (s : State) : (pull s).diagLog = s.diagLog := rfl
@[simp] theorem pull_irqAssertCount (s : State) : (pull s).irqAssertCount = s.irqAssertCount := rfl
@[simp] theorem pull_pollOp (s : State) : (pull s).pollOp = s.pollOp := rfl
@[simp] theorem pull_pullArmed (s : State) : (pull s).pullArmed = s.pullArmed := rfl
@[simp] theorem pull_waitPolls (s : State) : (pull s).waitPolls = s.waitPolls := rfl
@[simp] theorem pull_params (s : State) : (pull s).params = s.params := rfl
@[simp] theorem pull_script (s : State) : (pull s).script = s.script := rfl
@[simp] theorem pull_draws (s : State) : (pull s).draws = s.draws := rfl
@[simp] theorem pull_answer (s : State) : (pull s).answer = s.answer := rfl

/-! ### `frameMix` -/

@[simp] theorem frameMix_inbox (sec : List Sample) (s : State) : (frameMix sec s).inbox = s.inbox := rfl
@[simp] theorem frameMix_outbox (sec : List Sample) (s : State) : (frameMix sec s).outbox = s.outbox := rfl
@[simp] theorem frameMix_davPc (sec : List Sample) (s : State) : (frameMix sec s).davPc = s.davPc := rfl
@[simp] theorem frameMix_davDsp (sec : List Sample) (s : State) : (frameMix sec s).davDsp = s.davDsp := rfl
@[simp] theorem frameMix_dspBusy (sec : List Sample) (s : State) : (frameMix sec s).dspBusy = s.dspBusy := rfl
@[simp] theorem frameMix_currentCommand (sec : List Sample) (s : State) : (frameMix sec s).currentCommand = s.currentCommand := rfl
@[simp] theorem frameMix_currentCommandIndex (sec : List Sample) (s : State) : (frameMix sec s).currentCommandIndex = s.currentCommandIndex := rfl
@[simp] theorem frameMix_testRegister (sec : List Sample) (s : State) : (frameMix sec s).testRegister = s.testRegister := rfl
@[simp] theorem frameMix_dmaInterval (sec : List Sample) (s : State) : (frameMix sec s).dmaInterval = s.dmaInterval := rfl
@[simp] theorem frameMix_dmaIntervalTrim (sec : List Sample) (s : State) : (frameMix sec s).dmaIntervalTrim = s.dmaIntervalTrim := rfl
@[simp] theorem frameMix_dmaBlockSize (sec : List Sample) (s : State) : (frameMix sec s).dmaBlockSize = s.dmaBlockSize := rfl
@[simp] theorem frameMix_dmaSampleCount (sec : List Sample) (s : State) : (frameMix sec s).dmaSampleCount = s.dmaSampleCount := rfl
@[simp] theorem frameMix_dmaSampleCountRx (sec : List Sample) (s : State) : (frameMix sec s).dmaSampleCountRx = s.dmaSampleCountRx := rfl
@[simp] theorem frameMix_timeConstant (sec : List Sample) (s : State) : (frameMix sec s).timeConstant = s.timeConstant := rfl
@[simp] theorem frameMix_sampleRate (sec : List Sample) (s : State) : (frameMix sec s).sampleRate = s.sampleRate := rfl
@[simp] theorem frameMix_sampleStep (sec : List Sample) (s : State) : (frameMix sec s).sampleStep = s.sampleStep := rfl
@[simp] theorem frameMix_sampleFactor (sec : List Sample) (s : State) : (frameMix sec s).sampleFactor = s.sampleFactor := rfl
@[simp] theorem frameMix_sampleOffset (sec : List Sample) (s : State) : (frameMix sec s).sampleOffset = (primarySamples s).2 := rfl
@[simp] theorem frameMix_autoinit (sec : List Sample) (s : State) : (frameMix sec s).autoinit = s.autoinit := rfl
@[simp] theorem frameMix_dmaEnabled (sec : List Sample) (s : State) : (frameMix sec s).dmaEnabled = s.dmaEnabled := rfl
@[simp] theorem frameMix_resetState (sec : List Sample) (s : State) : (frameMix sec s).resetState = s.resetState := rfl
@[simp] theorem frameMix_fifo (sec : List Sample) (s : State) : (frameMix sec s).fifo = s.fifo := rfl
@[simp] theorem frameMix_head (sec : List Sample) (s : State) : (frameMix sec s).head = s.head := rfl
@[simp] theorem frameMix_tail (sec : List Sample) (s : State) : (frameMix sec s).tail = s.tail := rfl
@[simp] theorem frameMix_frameCount (sec : List Sample) (s : State) : (frameMix sec s).frameCount = (orSilence (primarySamples s).1).length := rfl
@[simp] theorem frameMix_irq (sec : List Sample) (s : State) : (frameMix sec s).irq = s.irq := rfl
@[simp] theorem frameMix_pacePending (sec : List Sample) (s : State) : (frameMix sec s).pacePending = s.pacePending := rfl
@[simp] theorem frameMix_dmaReq (sec : List Sample) (s : State) : (frameMix sec s).dmaReq = s.dmaReq := rfl
@[simp] theorem frameMix_diagLog (sec : List Sample) (s : State) : (frameMix sec s).diagLog = s.diagLog := rfl
@[simp] theorem frameMix_irqAssertCount (sec : List Sample) (s : State) : (frameMix sec s).irqAssertCount = s.irqAssertCount := rfl
@[simp] theorem frameMix_pollOp (sec : List Sample) (s : State) : (frameMix sec s).pollOp = .idle := rfl
@[simp] theorem frameMix_pullArmed (sec : List Sample) (s : State) : (frameMix sec s).pullArmed = s.pullArmed := rfl
@[simp] theorem frameMix_n (sec : List Sample) (s : State) : (frameMix sec s).n = s.n := rfl
@[simp] theorem frameMix_buf (sec : List Sample) (s : State) : (frameMix sec s).buf = s.buf := rfl
@[simp] theorem frameMix_waitPolls (sec : List Sample) (s : State) : (frameMix sec s).waitPolls = s.waitPolls := rfl
@[simp] theorem frameMix_params (sec : List Sample) (s : State) : (frameMix sec s).params = s.params := rfl
@[simp] theorem frameMix_script (sec : List Sample) (s : State) : (frameMix sec s).script = s.script := rfl
@[simp] theorem frameMix_draws (sec : List Sample) (s : State) : (frameMix sec s).draws = s.draws := rfl
@[simp] theorem frameMix_answer (sec : List Sample) (s : State) : (frameMix sec s).answer = s.answer := rfl

/-! ### `framePull` -/

@[simp] theorem framePull_inbox (s : State) : (framePull s).inbox = s.inbox := by simp only [framePull]; split <;> simp
@[simp] theorem framePull_outbox (s : State) : (framePull s).outbox = s.outbox := by simp only [framePull]; split <;> simp
@[simp] theorem framePull_davPc (s : State) : (framePull s).davPc = s.davPc := by simp only [framePull]; split <;> simp
@[simp] theorem framePull_davDsp (s : State) : (framePull s).davDsp = s.davDsp := by simp only [framePull]; split <;> simp
@[simp] theorem framePull_dspBusy (s : State) : (framePull s).dspBusy = s.dspBusy := by simp only [framePull]; split <;> simp
@[simp] theorem framePull_currentCommand (s : State) : (framePull s).currentCommand = s.currentCommand := by simp only [framePull]; split <;> simp
@[simp] theorem framePull_currentCommandIndex (s : State) : (framePull s).currentCommandIndex = s.currentCommandIndex := by simp only [framePull]; split <;> simp
@[simp] theorem framePull_testRegister (s : State) : (framePull s).testRegister = s.testRegister := by simp only [framePull]; split <;> simp
@[simp] theorem framePull_dmaInterval (s : State) : (framePull s).dmaInterval = s.dmaInterval := by simp only [framePull]; split <;> simp
@[simp] theorem framePull_dmaIntervalTrim (s : State) : (framePull s).dmaIntervalTrim = s.dmaIntervalTrim := by simp only [framePull]; split <;> simp
@[simp] theorem framePull_dmaBlockSize (s : State) : (framePull s).dmaBlockSize = s.dmaBlockSize := by simp only [framePull]; split <;> simp
@[simp] theorem framePull_dmaSampleCount (s : State) : (framePull s).dmaSampleCount = s.dmaSampleCount := by simp only [framePull]; split <;> simp
@[simp] theorem framePull_dmaSampleCountRx (s : State) : (framePull s).dmaSampleCountRx = s.dmaSampleCountRx := by simp only [framePull]; split <;> simp
@[simp] theorem framePull_timeConstant (s : State) : (framePull s).timeConstant = s.timeConstant := by simp only [framePull]; split <;> simp
@[simp] theorem framePull_sampleRate (s : State) : (framePull s).sampleRate = s.sampleRate := by simp only [framePull]; split <;> simp
@[simp] theorem framePull_sampleStep (s : State) : (framePull s).sampleStep = s.sampleStep := by simp only [framePull]; split <;> simp
@[simp] theorem framePull_sampleFactor (s : State) : (framePull s).sampleFactor = s.sampleFactor := by simp only [framePull]; split <;> simp
@[simp] theorem framePull_sampleOffset (s : State) : (framePull s).sampleOffset = s.sampleOffset := by simp only [framePull]; split <;> simp
@[simp] theorem framePull_autoinit (s : State) : (framePull s).autoinit = s.autoinit := by simp only [framePull]; split <;> simp
@[simp] theorem framePull_dmaEnabled (s : State) : (framePull s).dmaEnabled = s.dmaEnabled := by simp only [framePull]; split <;> simp
@[simp] theorem framePull_resetState (s : State) : (framePull s).resetState = s.resetState := by simp only [framePull]; split <;> simp
@[simp] theorem framePull_fifo (s : State) : (framePull s).fifo = s.fifo := by simp only [framePull]; split <;> simp
@[simp] theorem framePull_tail (s : State) : (framePull s).tail = s.tail := by simp only [framePull]; split <;> simp
@[simp] theorem framePull_frameCount (s : State) : (framePull s).frameCount = s.frameCount := by simp only [framePull]; split <;> simp
@[simp] theorem framePull_frame (s : State) : (framePull s).frame = s.frame := by simp only [framePull]; split <;> simp
@[simp] theorem framePull_irq (s : State) : (framePull s).irq = s.irq := by simp only [framePull]; split <;> simp
@[simp] theorem framePull_pacePending (s : State) : (framePull s).pacePending = s.pacePending := by simp only [framePull]; split <;> simp
@[simp] theorem framePull_dmaReq (s : State) : (framePull s).dmaReq = s.dmaReq := by simp only [framePull]; split <;> simp
@[simp] theorem framePull_diagLog (s : State) : (framePull s).diagLog = s.diagLog := by simp only [framePull]; split <;> simp
@[simp] theorem framePull_irqAssertCount (s : State) : (framePull s).irqAssertCount = s.irqAssertCount := by simp only [framePull]; split <;> simp
@[simp] theorem framePull_pullArmed (s : State) : (framePull s).pullArmed = s.pullArmed := by simp only [framePull]; split <;> simp
@[simp] theorem framePull_waitPolls (s : State) : (framePull s).waitPolls = s.waitPolls := by simp only [framePull]; split <;> simp
@[simp] theorem framePull_params (s : State) : (framePull s).params = s.params := by simp only [framePull]; split <;> simp
@[simp] theorem framePull_script (s : State) : (framePull s).script = s.script := by simp only [framePull]; split <;> simp
@[simp] theorem framePull_draws (s : State) : (framePull s).draws = s.draws := by simp only [framePull]; split <;> simp
@[simp] theorem framePull_answer (s : State) : (framePull s).answer = s.answer := by simp only [framePull]; split <;> simp
@[simp] theorem framePull_pollOp (s : State) : (framePull s).pollOp = .f3Next := rfl

/-! ### `failedPoll` -/

@[simp] theorem failedPoll_inbox (s : State) : (failedPoll s).inbox = s.inbox := by simp only [failedPoll]; split <;> simp
@[simp] theorem failedPoll_outbox (s : State) : (failedPoll s).outbox = s.outbox := by simp only [failedPoll]; split <;> simp
@[simp] theorem failedPoll_davPc (s : State) : (failedPoll s).davPc = s.davPc := by simp only [failedPoll]; split <;> simp
@[simp] theorem failedPoll_davDsp (s : State) : (failedPoll s).davDsp = s.davDsp := by simp only [failedPoll]; split <;> simp
@[simp] theorem failedPoll_dspBusy (s : State) : (failedPoll s).dspBusy = s.dspBusy := by simp only [failedPoll]; split <;> simp
@[simp] theorem failedPoll_currentCommand (s : State) : (failedPoll s).currentCommand = s.currentCommand := by simp only [failedPoll]; split <;> simp
@[simp] theorem failedPoll_currentCommandIndex (s : State) : (failedPoll s).currentCommandIndex = s.currentCommandIndex := by simp only [failedPoll]; split <;> simp
@[simp] theorem failedPoll_testRegister (s : State) : (failedPoll s).testRegister = s.testRegister := by simp only [failedPoll]; split <;> simp
@[simp] theorem failedPoll_dmaInterval (s : State) : (failedPoll s).dmaInterval = s.dmaInterval := by simp only [failedPoll]; split <;> simp
@[simp] theorem failedPoll_dmaIntervalTrim (s : State) : (failedPoll s).dmaIntervalTrim = s.dmaIntervalTrim := by simp only [failedPoll]; split <;> simp
@[simp] theorem failedPoll_dmaBlockSize (s : State) : (failedPoll s).dmaBlockSize = s.dmaBlockSize := by simp only [failedPoll]; split <;> simp
@[simp] theorem failedPoll_dmaSampleCount (s : State) : (failedPoll s).dmaSampleCount = s.dmaSampleCount := by simp only [failedPoll]; split <;> simp
@[simp] theorem failedPoll_dmaSampleCountRx (s : State) : (failedPoll s).dmaSampleCountRx = s.dmaSampleCountRx := by simp only [failedPoll]; split <;> simp
@[simp] theorem failedPoll_timeConstant (s : State) : (failedPoll s).timeConstant = s.timeConstant := by simp only [failedPoll]; split <;> simp
@[simp] theorem failedPoll_sampleRate (s : State) : (failedPoll s).sampleRate = s.sampleRate := by simp only [failedPoll]; split <;> simp
@[simp] theorem failedPoll_sampleStep (s : State) : (failedPoll s).sampleStep = s.sampleStep := by simp only [failedPoll]; split <;> simp
@[simp] theorem failedPoll_sampleFactor (s : State) : (failedPoll s).sampleFactor = s.sampleFactor := by simp only [failedPoll]; split <;> simp
@[simp] theorem failedPoll_sampleOffset (s : State) : (failedPoll s).sampleOffset = s.sampleOffset := by simp only [failedPoll]; split <;> simp
@[simp] theorem failedPoll_autoinit (s : State) : (failedPoll s).autoinit = s.autoinit := by simp only [failedPoll]; split <;> simp
@[simp] theorem failedPoll_dmaEnabled (s : State) : (failedPoll s).dmaEnabled = s.dmaEnabled := by simp only [failedPoll]; split <;> simp
@[simp] theorem failedPoll_resetState (s : State) : (failedPoll s).resetState = s.resetState := by simp only [failedPoll]; split <;> simp
@[simp] theorem failedPoll_fifo (s : State) : (failedPoll s).fifo = s.fifo := by simp only [failedPoll]; split <;> simp
@[simp] theorem failedPoll_head (s : State) : (failedPoll s).head = s.head := by simp only [failedPoll]; split <;> simp
@[simp] theorem failedPoll_tail (s : State) : (failedPoll s).tail = s.tail := by simp only [failedPoll]; split <;> simp
@[simp] theorem failedPoll_frameCount (s : State) : (failedPoll s).frameCount = s.frameCount := by simp only [failedPoll]; split <;> simp
@[simp] theorem failedPoll_frame (s : State) : (failedPoll s).frame = s.frame := by simp only [failedPoll]; split <;> simp
@[simp] theorem failedPoll_irq (s : State) : (failedPoll s).irq = s.irq := by simp only [failedPoll]; split <;> simp
@[simp] theorem failedPoll_pacePending (s : State) : (failedPoll s).pacePending = s.pacePending := by simp only [failedPoll]; split <;> simp
@[simp] theorem failedPoll_dmaReq (s : State) : (failedPoll s).dmaReq = s.dmaReq := by simp only [failedPoll]; split <;> simp
@[simp] theorem failedPoll_diagLog (s : State) : (failedPoll s).diagLog = s.diagLog := by simp only [failedPoll]; split <;> simp
@[simp] theorem failedPoll_irqAssertCount (s : State) : (failedPoll s).irqAssertCount = s.irqAssertCount := by simp only [failedPoll]; split <;> simp
@[simp] theorem failedPoll_pollOp (s : State) : (failedPoll s).pollOp = s.pollOp := by simp only [failedPoll]; split <;> simp
@[simp] theorem failedPoll_pullArmed (s : State) : (failedPoll s).pullArmed = s.pullArmed := by simp only [failedPoll]; split <;> simp
@[simp] theorem failedPoll_n (s : State) : (failedPoll s).n = s.n := by simp only [failedPoll]; split <;> simp
@[simp] theorem failedPoll_buf (s : State) : (failedPoll s).buf = s.buf := by simp only [failedPoll]; split <;> simp
@[simp] theorem failedPoll_params (s : State) : (failedPoll s).params = s.params := by simp only [failedPoll]; split <;> simp
@[simp] theorem failedPoll_script (s : State) : (failedPoll s).script = s.script := by simp only [failedPoll]; split <;> simp
@[simp] theorem failedPoll_draws (s : State) : (failedPoll s).draws = s.draws := by simp only [failedPoll]; split <;> simp

/-! ### `paceEvent` -/

@[simp] theorem paceEvent_inbox (s : State) : (paceEvent s).inbox = s.inbox := by simp only [paceEvent]; split <;> simp
@[simp] theorem paceEvent_outbox (s : State) : (paceEvent s).outbox = s.outbox := by simp only [paceEvent]; split <;> simp
@[simp] theorem paceEvent_davPc (s : State) : (paceEvent s).davPc = s.davPc := by simp only [paceEvent]; split <;> simp
@[simp] theorem paceEvent_davDsp (s : State) : (paceEvent s).davDsp = s.davDsp := by simp only [paceEvent]; split <;> simp
@[simp] theorem paceEvent_dspBusy (s : State) : (paceEvent s).dspBusy = s.dspBusy := by simp only [paceEvent]; split <;> simp
@[simp] theorem paceEvent_currentCommand (s : State) : (paceEvent s).currentCommand = s.currentCommand := by simp only [paceEvent]; split <;> simp
@[simp] theorem paceEvent_currentCommandIndex (s : State) : (paceEvent s).currentCommandIndex = s.currentCommandIndex := by simp only [paceEvent]; split <;> simp
@[simp] theorem paceEvent_testRegister (s : State) : (paceEvent s).testRegister = s.testRegister := by simp only [paceEvent]; split <;> simp
@[simp] theorem paceEvent_dmaInterval (s : State) : (paceEvent s).dmaInterval = s.dmaInterval := by simp only [paceEvent]; split <;> simp
@[simp] theorem paceEvent_dmaBlockSize (s : State) : (paceEvent s).dmaBlockSize = s.dmaBlockSize := by simp only [paceEvent]; split <;> simp
@[simp] theorem paceEvent_dmaSampleCount (s : State) : (paceEvent s).dmaSampleCount = s.dmaSampleCount := by simp only [paceEvent]; split <;> simp
@[simp] theorem paceEvent_dmaSampleCountRx (s : State) : (paceEvent s).dmaSampleCountRx = s.dmaSampleCountRx := by simp only [paceEvent]; split <;> simp
@[simp] theorem paceEvent_timeConstant (s : State) : (paceEvent s).timeConstant = s.timeConstant := by simp only [paceEvent]; split <;> simp
@[simp] theorem paceEvent_sampleRate (s : State) : (paceEvent s).sampleRate = s.sampleRate := by simp only [paceEvent]; split <;> simp
@[simp] theorem paceEvent_sampleStep (s : State) : (paceEvent s).sampleStep = s.sampleStep := by simp only [paceEvent]; split <;> simp
@[simp] theorem paceEvent_sampleFactor (s : State) : (paceEvent s).sampleFactor = s.sampleFactor := by simp only [paceEvent]; split <;> simp
@[simp] theorem paceEvent_sampleOffset (s : State) : (paceEvent s).sampleOffset = s.sampleOffset := by simp only [paceEvent]; split <;> simp
@[simp] theorem paceEvent_autoinit (s : State) : (paceEvent s).autoinit = s.autoinit := by simp only [paceEvent]; split <;> simp
@[simp] theorem paceEvent_dmaEnabled (s : State) : (paceEvent s).dmaEnabled = s.dmaEnabled := by simp only [paceEvent]; split <;> simp
@[simp] theorem paceEvent_resetState (s : State) : (paceEvent s).resetState = s.resetState := by simp only [paceEvent]; split <;> simp
@[simp] theorem paceEvent_fifo (s : State) : (paceEvent s).fifo = s.fifo := by simp only [paceEvent]; split <;> simp
@[simp] theorem paceEvent_head (s : State) : (paceEvent s).head = s.head := by simp only [paceEvent]; split <;> simp
@[simp] theorem paceEvent_tail (s : State) : (paceEvent s).tail = s.tail := by simp only [paceEvent]; split <;> simp
@[simp] theorem paceEvent_frameCount (s : State) : (paceEvent s).frameCount = s.frameCount := by simp only [paceEvent]; split <;> simp
@[simp] theorem paceEvent_frame (s : State) : (paceEvent s).frame = s.frame := by simp only [paceEvent]; split <;> simp
@[simp] theorem paceEvent_irq (s : State) : (paceEvent s).irq = s.irq := by simp only [paceEvent]; split <;> simp
@[simp] theorem paceEvent_diagLog (s : State) : (paceEvent s).diagLog = s.diagLog := by simp only [paceEvent]; split <;> simp
@[simp] theorem paceEvent_irqAssertCount (s : State) : (paceEvent s).irqAssertCount = s.irqAssertCount := by simp only [paceEvent]; split <;> simp
@[simp] theorem paceEvent_pollOp (s : State) : (paceEvent s).pollOp = s.pollOp := by simp only [paceEvent]; split <;> simp
@[simp] theorem paceEvent_pullArmed (s : State) : (paceEvent s).pullArmed = s.pullArmed := by simp only [paceEvent]; split <;> simp
@[simp] theorem paceEvent_n (s : State) : (paceEvent s).n = s.n := by simp only [paceEvent]; split <;> simp
@[simp] theorem paceEvent_buf (s : State) : (paceEvent s).buf = s.buf := by simp only [paceEvent]; split <;> simp
@[simp] theorem paceEvent_waitPolls (s : State) : (paceEvent s).waitPolls = s.waitPolls := by simp only [paceEvent]; split <;> simp
@[simp] theorem paceEvent_params (s : State) : (paceEvent s).params = s.params := by simp only [paceEvent]; split <;> simp
@[simp] theorem paceEvent_script (s : State) : (paceEvent s).script = s.script := by simp only [paceEvent]; split <;> simp
@[simp] theorem paceEvent_draws (s : State) : (paceEvent s).draws = s.draws := by simp only [paceEvent]; split <;> simp
@[simp] theorem paceEvent_answer (s : State) : (paceEvent s).answer = s.answer := by simp only [paceEvent]; split <;> simp
@[simp] theorem paceEvent_pacePending (s : State) : (paceEvent s).pacePending = none := by simp only [paceEvent]; split <;> simp

/-! ### `endBlock` -/

@[simp] theorem endBlock_inbox (s : State) : (endBlock s).inbox = s.inbox := by simp only [endBlock]; split <;> simp
@[simp] theorem endBlock_outbox (s : State) : (endBlock s).outbox = s.outbox := by simp only [endBlock]; split <;> simp
@[simp] theorem endBlock_davPc (s : State) : (endBlock s).davPc = s.davPc := by simp only [endBlock]; split <;> simp
@[simp] theorem endBlock_davDsp (s : State) : (endBlock s).davDsp = s.davDsp := by simp only [endBlock]; split <;> simp
@[simp] theorem endBlock_dspBusy (s : State) : (endBlock s).dspBusy = s.dspBusy := by simp only [endBlock]; split <;> simp
@[simp] theorem endBlock_currentCommand (s : State) : (endBlock s).currentCommand = s.currentCommand := by simp only [endBlock]; split <;> simp
@[simp] theorem endBlock_currentCommandIndex (s : State) : (endBlock s).currentCommandIndex = s.currentCommandIndex := by simp only [endBlock]; split <;> simp
@[simp] theorem endBlock_testRegister (s : State) : (endBlock s).testRegister = s.testRegister := by simp only [endBlock]; split <;> simp
@[simp] theorem endBlock_dmaInterval (s : State) : (endBlock s).dmaInterval = s.dmaInterval := by simp only [endBlock]; split <;> simp
@[simp] theorem endBlock_dmaIntervalTrim (s : State) : (endBlock s).dmaIntervalTrim = s.dmaIntervalTrim := by simp only [endBlock]; split <;> simp
@[simp] theorem endBlock_dmaBlockSize (s : State) : (endBlock s).dmaBlockSize = s.dmaBlockSize := by simp only [endBlock]; split <;> simp
@[simp] theorem endBlock_dmaSampleCount (s : State) : (endBlock s).dmaSampleCount = s.dmaSampleCount := by simp only [endBlock]; split <;> simp
@[simp] theorem endBlock_timeConstant (s : State) : (endBlock s).timeConstant = s.timeConstant := by simp only [endBlock]; split <;> simp
@[simp] theorem endBlock_sampleRate (s : State) : (endBlock s).sampleRate = s.sampleRate := by simp only [endBlock]; split <;> simp
@[simp] theorem endBlock_sampleStep (s : State) : (endBlock s).sampleStep = s.sampleStep := by simp only [endBlock]; split <;> simp
@[simp] theorem endBlock_sampleFactor (s : State) : (endBlock s).sampleFactor = s.sampleFactor := by simp only [endBlock]; split <;> simp
@[simp] theorem endBlock_sampleOffset (s : State) : (endBlock s).sampleOffset = s.sampleOffset := by simp only [endBlock]; split <;> simp
@[simp] theorem endBlock_autoinit (s : State) : (endBlock s).autoinit = s.autoinit := by simp only [endBlock]; split <;> simp
@[simp] theorem endBlock_resetState (s : State) : (endBlock s).resetState = s.resetState := by simp only [endBlock]; split <;> simp
@[simp] theorem endBlock_fifo (s : State) : (endBlock s).fifo = s.fifo := by simp only [endBlock]; split <;> simp
@[simp] theorem endBlock_head (s : State) : (endBlock s).head = s.head := by simp only [endBlock]; split <;> simp
@[simp] theorem endBlock_tail (s : State) : (endBlock s).tail = s.tail := by simp only [endBlock]; split <;> simp
@[simp] theorem endBlock_frameCount (s : State) : (endBlock s).frameCount = s.frameCount := by simp only [endBlock]; split <;> simp
@[simp] theorem endBlock_frame (s : State) : (endBlock s).frame = s.frame := by simp only [endBlock]; split <;> simp
@[simp] theorem endBlock_dmaReq (s : State) : (endBlock s).dmaReq = s.dmaReq := by simp only [endBlock]; split <;> simp
@[simp] theorem endBlock_diagLog (s : State) : (endBlock s).diagLog = s.diagLog := by simp only [endBlock]; split <;> simp
@[simp] theorem endBlock_pollOp (s : State) : (endBlock s).pollOp = s.pollOp := by simp only [endBlock]; split <;> simp
@[simp] theorem endBlock_pullArmed (s : State) : (endBlock s).pullArmed = s.pullArmed := by simp only [endBlock]; split <;> simp
@[simp] theorem endBlock_n (s : State) : (endBlock s).n = s.n := by simp only [endBlock]; split <;> simp
@[simp] theorem endBlock_buf (s : State) : (endBlock s).buf = s.buf := by simp only [endBlock]; split <;> simp
@[simp] theorem endBlock_waitPolls (s : State) : (endBlock s).waitPolls = s.waitPolls := by simp only [endBlock]; split <;> simp
@[simp] theorem endBlock_params (s : State) : (endBlock s).params = s.params := by simp only [endBlock]; split <;> simp
@[simp] theorem endBlock_script (s : State) : (endBlock s).script = s.script := by simp only [endBlock]; split <;> simp
@[simp] theorem endBlock_draws (s : State) : (endBlock s).draws = s.draws := by simp only [endBlock]; split <;> simp
@[simp] theorem endBlock_answer (s : State) : (endBlock s).answer = s.answer := by simp only [endBlock]; split <;> simp
@[simp] theorem endBlock_irq (s : State) : (endBlock s).irq = true := rfl
@[simp] theorem endBlock_irqAssertCount (s : State) : (endBlock s).irqAssertCount = s.irqAssertCount + 1 := by simp only [endBlock]; split <;> simp
@[simp] theorem endBlock_dmaEnabled (s : State) : (endBlock s).dmaEnabled = (s.autoinit && s.dmaEnabled) := by simp only [endBlock]; split <;> simp [*]

/-! ### `acceptByte` -/

@[simp] theorem acceptByte_inbox (b : Byte) (s : State) : (acceptByte b s).inbox = s.inbox := by simp only [acceptByte]; split <;> simp
@[simp] theorem acceptByte_outbox (b : Byte) (s : State) : (acceptByte b s).outbox = s.outbox := by simp only [acceptByte]; split <;> simp
@[simp] theorem acceptByte_davPc (b : Byte) (s : State) : (acceptByte b s).davPc = s.davPc := by simp only [acceptByte]; split <;> simp
@[simp] theorem acceptByte_davDsp (b : Byte) (s : State) : (acceptByte b s).davDsp = s.davDsp := by simp only [acceptByte]; split <;> simp
@[simp] theorem acceptByte_dspBusy (b : Byte) (s : State) : (acceptByte b s).dspBusy = s.dspBusy := by simp only [acceptByte]; split <;> simp
@[simp] theorem acceptByte_currentCommand (b : Byte) (s : State) : (acceptByte b s).currentCommand = s.currentCommand := by simp only [acceptByte]; split <;> simp
@[simp] theorem acceptByte_currentCommandIndex (b : Byte) (s : State) : (acceptByte b s).currentCommandIndex = s.currentCommandIndex := by simp only [acceptByte]; split <;> simp
@[simp] theorem acceptByte_testRegister (b : Byte) (s : State) : (acceptByte b s).testRegister = s.testRegister := by simp only [acceptByte]; split <;> simp
@[simp] theorem acceptByte_dmaInterval (b : Byte) (s : State) : (acceptByte b s).dmaInterval = s.dmaInterval := by simp only [acceptByte]; split <;> simp
@[simp] theorem acceptByte_dmaIntervalTrim (b : Byte) (s : State) : (acceptByte b s).dmaIntervalTrim = s.dmaIntervalTrim := by simp only [acceptByte]; split <;> simp
@[simp] theorem acceptByte_dmaBlockSize (b : Byte) (s : State) : (acceptByte b s).dmaBlockSize = s.dmaBlockSize := by simp only [acceptByte]; split <;> simp
@[simp] theorem acceptByte_dmaSampleCount (b : Byte) (s : State) : (acceptByte b s).dmaSampleCount = s.dmaSampleCount := by simp only [acceptByte]; split <;> simp
@[simp] theorem acceptByte_timeConstant (b : Byte) (s : State) : (acceptByte b s).timeConstant = s.timeConstant := by simp only [acceptByte]; split <;> simp
@[simp] theorem acceptByte_sampleRate (b : Byte) (s : State) : (acceptByte b s).sampleRate = s.sampleRate := by simp only [acceptByte]; split <;> simp
@[simp] theorem acceptByte_sampleStep (b : Byte) (s : State) : (acceptByte b s).sampleStep = s.sampleStep := by simp only [acceptByte]; split <;> simp
@[simp] theorem acceptByte_sampleFactor (b : Byte) (s : State) : (acceptByte b s).sampleFactor = s.sampleFactor := by simp only [acceptByte]; split <;> simp
@[simp] theorem acceptByte_sampleOffset (b : Byte) (s : State) : (acceptByte b s).sampleOffset = s.sampleOffset := by simp only [acceptByte]; split <;> simp
@[simp] theorem acceptByte_autoinit (b : Byte) (s : State) : (acceptByte b s).autoinit = s.autoinit := by simp only [acceptByte]; split <;> simp
@[simp] theorem acceptByte_resetState (b : Byte) (s : State) : (acceptByte b s).resetState = s.resetState := by simp only [acceptByte]; split <;> simp
@[simp] theorem acceptByte_head (b : Byte) (s : State) : (acceptByte b s).head = s.head := by simp only [acceptByte]; split <;> simp
@[simp] theorem acceptByte_frameCount (b : Byte) (s : State) : (acceptByte b s).frameCount = s.frameCount := by simp only [acceptByte]; split <;> simp
@[simp] theorem acceptByte_frame (b : Byte) (s : State) : (acceptByte b s).frame = s.frame := by simp only [acceptByte]; split <;> simp
@[simp] theorem acceptByte_dmaReq (b : Byte) (s : State) : (acceptByte b s).dmaReq = s.dmaReq := by simp only [acceptByte]; split <;> simp
@[simp] theorem acceptByte_pollOp (b : Byte) (s : State) : (acceptByte b s).pollOp = s.pollOp := by simp only [acceptByte]; split <;> simp
@[simp] theorem acceptByte_pullArmed (b : Byte) (s : State) : (acceptByte b s).pullArmed = s.pullArmed := by simp only [acceptByte]; split <;> simp
@[simp] theorem acceptByte_n (b : Byte) (s : State) : (acceptByte b s).n = s.n := by simp only [acceptByte]; split <;> simp
@[simp] theorem acceptByte_buf (b : Byte) (s : State) : (acceptByte b s).buf = s.buf := by simp only [acceptByte]; split <;> simp
@[simp] theorem acceptByte_waitPolls (b : Byte) (s : State) : (acceptByte b s).waitPolls = s.waitPolls := by simp only [acceptByte]; split <;> simp
@[simp] theorem acceptByte_params (b : Byte) (s : State) : (acceptByte b s).params = s.params := by simp only [acceptByte]; split <;> simp
@[simp] theorem acceptByte_script (b : Byte) (s : State) : (acceptByte b s).script = s.script := by simp only [acceptByte]; split <;> simp
@[simp] theorem acceptByte_draws (b : Byte) (s : State) : (acceptByte b s).draws = s.draws := by simp only [acceptByte]; split <;> simp
@[simp] theorem acceptByte_answer (b : Byte) (s : State) : (acceptByte b s).answer = s.answer := by simp only [acceptByte]; split <;> simp
@[simp] theorem acceptByte_fifo (b : Byte) (s : State) : (acceptByte b s).fifo = Memory.write s.fifo s.tail.toNat b := by simp only [acceptByte]; split <;> simp
@[simp] theorem acceptByte_tail (b : Byte) (s : State) : (acceptByte b s).tail = s.tail + 1 := by simp only [acceptByte]; split <;> simp
@[simp] theorem acceptByte_diagLog (b : Byte) (s : State) : (acceptByte b s).diagLog = if fifoFull s then s.diagLog ++ [.overrun] else s.diagLog := by simp only [acceptByte]; split <;> simp

/-! ### `dmaDone` -/

@[simp] theorem dmaDone_inbox (b : Byte) (s : State) : (dmaDone b s).inbox = s.inbox := by simp only [dmaDone]; split <;> simp
@[simp] theorem dmaDone_outbox (b : Byte) (s : State) : (dmaDone b s).outbox = s.outbox := by simp only [dmaDone]; split <;> simp
@[simp] theorem dmaDone_davPc (b : Byte) (s : State) : (dmaDone b s).davPc = s.davPc := by simp only [dmaDone]; split <;> simp
@[simp] theorem dmaDone_davDsp (b : Byte) (s : State) : (dmaDone b s).davDsp = s.davDsp := by simp only [dmaDone]; split <;> simp
@[simp] theorem dmaDone_dspBusy (b : Byte) (s : State) : (dmaDone b s).dspBusy = s.dspBusy := by simp only [dmaDone]; split <;> simp
@[simp] theorem dmaDone_currentCommand (b : Byte) (s : State) : (dmaDone b s).currentCommand = s.currentCommand := by simp only [dmaDone]; split <;> simp
@[simp] theorem dmaDone_currentCommandIndex (b : Byte) (s : State) : (dmaDone b s).currentCommandIndex = s.currentCommandIndex := by simp only [dmaDone]; split <;> simp
@[simp] theorem dmaDone_testRegister (b : Byte) (s : State) : (dmaDone b s).testRegister = s.testRegister := by simp only [dmaDone]; split <;> simp
@[simp] theorem dmaDone_dmaInterval (b : Byte) (s : State) : (dmaDone b s).dmaInterval = s.dmaInterval := by simp only [dmaDone]; split <;> simp
@[simp] theorem dmaDone_dmaIntervalTrim (b : Byte) (s : State) : (dmaDone b s).dmaIntervalTrim = s.dmaIntervalTrim := by simp only [dmaDone]; split <;> simp
@[simp] theorem dmaDone_dmaBlockSize (b : Byte) (s : State) : (dmaDone b s).dmaBlockSize = s.dmaBlockSize := by simp only [dmaDone]; split <;> simp
@[simp] theorem dmaDone_dmaSampleCount (b : Byte) (s : State) : (dmaDone b s).dmaSampleCount = s.dmaSampleCount := by simp only [dmaDone]; split <;> simp
@[simp] theorem dmaDone_timeConstant (b : Byte) (s : State) : (dmaDone b s).timeConstant = s.timeConstant := by simp only [dmaDone]; split <;> simp
@[simp] theorem dmaDone_sampleRate (b : Byte) (s : State) : (dmaDone b s).sampleRate = s.sampleRate := by simp only [dmaDone]; split <;> simp
@[simp] theorem dmaDone_sampleStep (b : Byte) (s : State) : (dmaDone b s).sampleStep = s.sampleStep := by simp only [dmaDone]; split <;> simp
@[simp] theorem dmaDone_sampleFactor (b : Byte) (s : State) : (dmaDone b s).sampleFactor = s.sampleFactor := by simp only [dmaDone]; split <;> simp
@[simp] theorem dmaDone_sampleOffset (b : Byte) (s : State) : (dmaDone b s).sampleOffset = s.sampleOffset := by simp only [dmaDone]; split <;> simp
@[simp] theorem dmaDone_autoinit (b : Byte) (s : State) : (dmaDone b s).autoinit = s.autoinit := by simp only [dmaDone]; split <;> simp
@[simp] theorem dmaDone_resetState (b : Byte) (s : State) : (dmaDone b s).resetState = s.resetState := by simp only [dmaDone]; split <;> simp
@[simp] theorem dmaDone_head (b : Byte) (s : State) : (dmaDone b s).head = s.head := by simp only [dmaDone]; split <;> simp
@[simp] theorem dmaDone_frameCount (b : Byte) (s : State) : (dmaDone b s).frameCount = s.frameCount := by simp only [dmaDone]; split <;> simp
@[simp] theorem dmaDone_frame (b : Byte) (s : State) : (dmaDone b s).frame = s.frame := by simp only [dmaDone]; split <;> simp
@[simp] theorem dmaDone_pollOp (b : Byte) (s : State) : (dmaDone b s).pollOp = s.pollOp := by simp only [dmaDone]; split <;> simp
@[simp] theorem dmaDone_pullArmed (b : Byte) (s : State) : (dmaDone b s).pullArmed = s.pullArmed := by simp only [dmaDone]; split <;> simp
@[simp] theorem dmaDone_n (b : Byte) (s : State) : (dmaDone b s).n = s.n := by simp only [dmaDone]; split <;> simp
@[simp] theorem dmaDone_buf (b : Byte) (s : State) : (dmaDone b s).buf = s.buf := by simp only [dmaDone]; split <;> simp
@[simp] theorem dmaDone_waitPolls (b : Byte) (s : State) : (dmaDone b s).waitPolls = s.waitPolls := by simp only [dmaDone]; split <;> simp
@[simp] theorem dmaDone_params (b : Byte) (s : State) : (dmaDone b s).params = s.params := by simp only [dmaDone]; split <;> simp
@[simp] theorem dmaDone_script (b : Byte) (s : State) : (dmaDone b s).script = s.script := by simp only [dmaDone]; split <;> simp
@[simp] theorem dmaDone_draws (b : Byte) (s : State) : (dmaDone b s).draws = s.draws := by simp only [dmaDone]; split <;> simp
@[simp] theorem dmaDone_answer (b : Byte) (s : State) : (dmaDone b s).answer = s.answer := by simp only [dmaDone]; split <;> simp
@[simp] theorem dmaDone_dmaReq (b : Byte) (s : State) : (dmaDone b s).dmaReq = false := by simp only [dmaDone]; split <;> simp

/-! ### `protocolEntry` -/

@[simp] theorem protocolEntry_inbox (s : State) : (protocolEntry s).inbox = s.inbox := by simp only [protocolEntry]; split_ifs <;> simp
@[simp] theorem protocolEntry_outbox (s : State) : (protocolEntry s).outbox = s.outbox := by simp only [protocolEntry]; split_ifs <;> simp
@[simp] theorem protocolEntry_davPc (s : State) : (protocolEntry s).davPc = s.davPc := by simp only [protocolEntry]; split_ifs <;> simp
@[simp] theorem protocolEntry_testRegister (s : State) : (protocolEntry s).testRegister = s.testRegister := by simp only [protocolEntry]; split_ifs <;> simp
@[simp] theorem protocolEntry_dmaInterval (s : State) : (protocolEntry s).dmaInterval = s.dmaInterval := by simp only [protocolEntry]; split_ifs <;> simp
@[simp] theorem protocolEntry_dmaIntervalTrim (s : State) : (protocolEntry s).dmaIntervalTrim = s.dmaIntervalTrim := by simp only [protocolEntry]; split_ifs <;> simp
@[simp] theorem protocolEntry_dmaBlockSize (s : State) : (protocolEntry s).dmaBlockSize = s.dmaBlockSize := by simp only [protocolEntry]; split_ifs <;> simp
@[simp] theorem protocolEntry_dmaSampleCount (s : State) : (protocolEntry s).dmaSampleCount = s.dmaSampleCount := by simp only [protocolEntry]; split_ifs <;> simp
@[simp] theorem protocolEntry_dmaSampleCountRx (s : State) : (protocolEntry s).dmaSampleCountRx = s.dmaSampleCountRx := by simp only [protocolEntry]; split_ifs <;> simp
@[simp] theorem protocolEntry_timeConstant (s : State) : (protocolEntry s).timeConstant = s.timeConstant := by simp only [protocolEntry]; split_ifs <;> simp
@[simp] theorem protocolEntry_sampleRate (s : State) : (protocolEntry s).sampleRate = s.sampleRate := by simp only [protocolEntry]; split_ifs <;> simp
@[simp] theorem protocolEntry_sampleStep (s : State) : (protocolEntry s).sampleStep = s.sampleStep := by simp only [protocolEntry]; split_ifs <;> simp
@[simp] theorem protocolEntry_sampleFactor (s : State) : (protocolEntry s).sampleFactor = s.sampleFactor := by simp only [protocolEntry]; split_ifs <;> simp
@[simp] theorem protocolEntry_sampleOffset (s : State) : (protocolEntry s).sampleOffset = s.sampleOffset := by simp only [protocolEntry]; split_ifs <;> simp
@[simp] theorem protocolEntry_autoinit (s : State) : (protocolEntry s).autoinit = s.autoinit := by simp only [protocolEntry]; split_ifs <;> simp
@[simp] theorem protocolEntry_dmaEnabled (s : State) : (protocolEntry s).dmaEnabled = s.dmaEnabled := by simp only [protocolEntry]; split_ifs <;> simp
@[simp] theorem protocolEntry_resetState (s : State) : (protocolEntry s).resetState = s.resetState := by simp only [protocolEntry]; split_ifs <;> simp
@[simp] theorem protocolEntry_fifo (s : State) : (protocolEntry s).fifo = s.fifo := by simp only [protocolEntry]; split_ifs <;> simp
@[simp] theorem protocolEntry_head (s : State) : (protocolEntry s).head = s.head := by simp only [protocolEntry]; split_ifs <;> simp
@[simp] theorem protocolEntry_tail (s : State) : (protocolEntry s).tail = s.tail := by simp only [protocolEntry]; split_ifs <;> simp
@[simp] theorem protocolEntry_frameCount (s : State) : (protocolEntry s).frameCount = s.frameCount := by simp only [protocolEntry]; split_ifs <;> simp
@[simp] theorem protocolEntry_frame (s : State) : (protocolEntry s).frame = s.frame := by simp only [protocolEntry]; split_ifs <;> simp
@[simp] theorem protocolEntry_irq (s : State) : (protocolEntry s).irq = s.irq := by simp only [protocolEntry]; split_ifs <;> simp
@[simp] theorem protocolEntry_pacePending (s : State) : (protocolEntry s).pacePending = s.pacePending := by simp only [protocolEntry]; split_ifs <;> simp
@[simp] theorem protocolEntry_dmaReq (s : State) : (protocolEntry s).dmaReq = s.dmaReq := by simp only [protocolEntry]; split_ifs <;> simp
@[simp] theorem protocolEntry_diagLog (s : State) : (protocolEntry s).diagLog = s.diagLog := by simp only [protocolEntry]; split_ifs <;> simp
@[simp] theorem protocolEntry_irqAssertCount (s : State) : (protocolEntry s).irqAssertCount = s.irqAssertCount := by simp only [protocolEntry]; split_ifs <;> simp
@[simp] theorem protocolEntry_pullArmed (s : State) : (protocolEntry s).pullArmed = s.pullArmed := by simp only [protocolEntry]; split_ifs <;> simp
@[simp] theorem protocolEntry_n (s : State) : (protocolEntry s).n = s.n := by simp only [protocolEntry]; split_ifs <;> simp
@[simp] theorem protocolEntry_buf (s : State) : (protocolEntry s).buf = s.buf := by simp only [protocolEntry]; split_ifs <;> simp
@[simp] theorem protocolEntry_waitPolls (s : State) : (protocolEntry s).waitPolls = s.waitPolls := by simp only [protocolEntry]; split_ifs <;> simp
@[simp] theorem protocolEntry_params (s : State) : (protocolEntry s).params = s.params := by simp only [protocolEntry]; split_ifs <;> simp
@[simp] theorem protocolEntry_script (s : State) : (protocolEntry s).script = s.script := by simp only [protocolEntry]; split_ifs <;> simp
@[simp] theorem protocolEntry_draws (s : State) : (protocolEntry s).draws = s.draws := by simp only [protocolEntry]; split_ifs <;> simp
@[simp] theorem protocolEntry_answer (s : State) : (protocolEntry s).answer = s.answer := by simp only [protocolEntry]; split_ifs <;> simp

/-! ### `startBlockTransfer` -/

@[simp] theorem startBlockTransfer_inbox (auto : Bool) (s : State) : (startBlockTransfer auto s).inbox = s.inbox := by simp [startBlockTransfer]
@[simp] theorem startBlockTransfer_outbox (auto : Bool) (s : State) : (startBlockTransfer auto s).outbox = s.outbox := by simp [startBlockTransfer]
@[simp] theorem startBlockTransfer_davPc (auto : Bool) (s : State) : (startBlockTransfer auto s).davPc = s.davPc := by simp [startBlockTransfer]
@[simp] theorem startBlockTransfer_davDsp (auto : Bool) (s : State) : (startBlockTransfer auto s).davDsp = s.davDsp := by simp [startBlockTransfer]
@[simp] theorem startBlockTransfer_dspBusy (auto : Bool) (s : State) : (startBlockTransfer auto s).dspBusy = s.dspBusy := by simp [startBlockTransfer]
@[simp] theorem startBlockTransfer_currentCommandIndex (auto : Bool) (s : State) : (startBlockTransfer auto s).currentCommandIndex = s.currentCommandIndex := by simp [startBlockTransfer]
@[simp] theorem startBlockTransfer_testRegister (auto : Bool) (s : State) : (startBlockTransfer auto s).testRegister = s.testRegister := by simp [startBlockTransfer]
@[simp] theorem startBlockTransfer_dmaInterval (auto : Bool) (s : State) : (startBlockTransfer auto s).dmaInterval = s.dmaInterval := by simp [startBlockTransfer]
@[simp] theorem startBlockTransfer_dmaIntervalTrim (auto : Bool) (s : State) : (startBlockTransfer auto s).dmaIntervalTrim = s.dmaIntervalTrim := by simp [startBlockTransfer]
@[simp] theorem startBlockTransfer_dmaBlockSize (auto : Bool) (s : State) : (startBlockTransfer auto s).dmaBlockSize = s.dmaBlockSize := by simp [startBlockTransfer]
@[simp] theorem startBlockTransfer_dmaSampleCountRx (auto : Bool) (s : State) : (startBlockTransfer auto s).dmaSampleCountRx = s.dmaSampleCountRx := by simp [startBlockTransfer]
@[simp] theorem startBlockTransfer_timeConstant (auto : Bool) (s : State) : (startBlockTransfer auto s).timeConstant = s.timeConstant := by simp [startBlockTransfer]
@[simp] theorem startBlockTransfer_sampleRate (auto : Bool) (s : State) : (startBlockTransfer auto s).sampleRate = s.sampleRate := by simp [startBlockTransfer]
@[simp] theorem startBlockTransfer_sampleStep (auto : Bool) (s : State) : (startBlockTransfer auto s).sampleStep = s.sampleStep := by simp [startBlockTransfer]
@[simp] theorem startBlockTransfer_sampleFactor (auto : Bool) (s : State) : (startBlockTransfer auto s).sampleFactor = s.sampleFactor := by simp [startBlockTransfer]
@[simp] theorem startBlockTransfer_sampleOffset (auto : Bool) (s : State) : (startBlockTransfer auto s).sampleOffset = s.sampleOffset := by simp [startBlockTransfer]
@[simp] theorem startBlockTransfer_resetState (auto : Bool) (s : State) : (startBlockTransfer auto s).resetState = s.resetState := by simp [startBlockTransfer]
@[simp] theorem startBlockTransfer_fifo (auto : Bool) (s : State) : (startBlockTransfer auto s).fifo = s.fifo := by simp [startBlockTransfer]
@[simp] theorem startBlockTransfer_tail (auto : Bool) (s : State) : (startBlockTransfer auto s).tail = s.tail := by simp [startBlockTransfer]
@[simp] theorem startBlockTransfer_frameCount (auto : Bool) (s : State) : (startBlockTransfer auto s).frameCount = s.frameCount := by simp [startBlockTransfer]
@[simp] theorem startBlockTransfer_frame (auto : Bool) (s : State) : (startBlockTransfer auto s).frame = s.frame := by simp [startBlockTransfer]
@[simp] theorem startBlockTransfer_irq (auto : Bool) (s : State) : (startBlockTransfer auto s).irq = s.irq := by simp [startBlockTransfer]
@[simp] theorem startBlockTransfer_dmaReq (auto : Bool) (s : State) : (startBlockTransfer auto s).dmaReq = s.dmaReq := by simp [startBlockTransfer]
@[simp] theorem startBlockTransfer_diagLog (auto : Bool) (s : State) : (startBlockTransfer auto s).diagLog = s.diagLog := by simp [startBlockTransfer]
@[simp] theorem startBlockTransfer_irqAssertCount (auto : Bool) (s : State) : (startBlockTransfer auto s).irqAssertCount = s.irqAssertCount := by simp [startBlockTransfer]
@[simp] theorem startBlockTransfer_pollOp (auto : Bool) (s : State) : (startBlockTransfer auto s).pollOp = s.pollOp := by simp [startBlockTransfer]
@[simp] theorem startBlockTransfer_pullArmed (auto : Bool) (s : State) : (startBlockTransfer auto s).pullArmed = s.pullArmed := by simp [startBlockTransfer]
@[simp] theorem startBlockTransfer_n (auto : Bool) (s : State) : (startBlockTransfer auto s).n = s.n := by simp [startBlockTransfer]
@[simp] theorem startBlockTransfer_buf (auto : Bool) (s : State) : (startBlockTransfer auto s).buf = s.buf := by simp [startBlockTransfer]
@[simp] theorem startBlockTransfer_waitPolls (auto : Bool) (s : State) : (startBlockTransfer auto s).waitPolls = s.waitPolls := by simp [startBlockTransfer]
@[simp] theorem startBlockTransfer_params (auto : Bool) (s : State) : (startBlockTransfer auto s).params = s.params := by simp [startBlockTransfer]
@[simp] theorem startBlockTransfer_script (auto : Bool) (s : State) : (startBlockTransfer auto s).script = s.script := by simp [startBlockTransfer]
@[simp] theorem startBlockTransfer_draws (auto : Bool) (s : State) : (startBlockTransfer auto s).draws = s.draws := by simp [startBlockTransfer]
@[simp] theorem startBlockTransfer_answer (auto : Bool) (s : State) : (startBlockTransfer auto s).answer = s.answer := by simp [startBlockTransfer]
@[simp] theorem startBlockTransfer_autoinit (auto : Bool) (s : State) : (startBlockTransfer auto s).autoinit = auto := by simp [startBlockTransfer]
@[simp] theorem startBlockTransfer_dmaSampleCount (auto : Bool) (s : State) : (startBlockTransfer auto s).dmaSampleCount = s.dmaBlockSize := by simp [startBlockTransfer]
@[simp] theorem startBlockTransfer_head (auto : Bool) (s : State) : (startBlockTransfer auto s).head = if s.dmaEnabled then s.head else s.tail := by simp [startBlockTransfer]
@[simp] theorem startBlockTransfer_dmaEnabled (auto : Bool) (s : State) : (startBlockTransfer auto s).dmaEnabled = true := by simp [startBlockTransfer]
@[simp] theorem startBlockTransfer_pacePending (auto : Bool) (s : State) : (startBlockTransfer auto s).pacePending = if s.dmaEnabled then s.pacePending else some (s.dmaInterval.toNat : Int) := by simp [startBlockTransfer]
@[simp] theorem startBlockTransfer_currentCommand (auto : Bool) (s : State) : (startBlockTransfer auto s).currentCommand = 0 := by simp [startBlockTransfer]

/-! ### The commands -/

/-- Everything a command leaves alone, whichever it is. -/
theorem runCommand_leaves (c : Command) (opcode : Byte) (s : State) :
    let t := runCommand c opcode s
    { t with
      outbox := s.outbox
      davPc := s.davPc
      davDsp := s.davDsp
      currentCommand := s.currentCommand
      currentCommandIndex := s.currentCommandIndex
      testRegister := s.testRegister
      dmaInterval := s.dmaInterval
      dmaBlockSize := s.dmaBlockSize
      dmaSampleCount := s.dmaSampleCount
      dmaSampleCountRx := s.dmaSampleCountRx
      timeConstant := s.timeConstant
      sampleRate := s.sampleRate
      sampleStep := s.sampleStep
      sampleFactor := s.sampleFactor
      autoinit := s.autoinit
      dmaEnabled := s.dmaEnabled
      head := s.head
      irq := s.irq
      pacePending := s.pacePending
      irqAssertCount := s.irqAssertCount } = s := by
  cases c <;>
    simp only [runCommand, cmdDmaPause, cmdDmaResume, cmdDmaAuto, cmdDmaHsAuto, cmdDmaHsSingle, cmdSetTimeConstant,
      cmdSetBlockSize, cmdDmaSingle, cmdIdentify, cmdGetVersion, cmdWriteTest, cmdReadTest, cmdTriggerIrq,
      cmdSpeakerOn, cmdSpeakerOff, cmdUnknown, cmdIdleZero, withParam] <;>
    (try split_ifs) <;> simp

@[simp] theorem runCommand_inbox (c : Command) (opcode : Byte) (s : State) : (runCommand c opcode s).inbox = s.inbox := by
  have h := congrArg State.inbox (runCommand_leaves c opcode s)
  exact h
@[simp] theorem runCommand_dspBusy (c : Command) (opcode : Byte) (s : State) : (runCommand c opcode s).dspBusy = s.dspBusy := by
  have h := congrArg State.dspBusy (runCommand_leaves c opcode s)
  exact h
@[simp] theorem runCommand_dmaIntervalTrim (c : Command) (opcode : Byte) (s : State) : (runCommand c opcode s).dmaIntervalTrim = s.dmaIntervalTrim := by
  have h := congrArg State.dmaIntervalTrim (runCommand_leaves c opcode s)
  exact h
@[simp] theorem runCommand_sampleOffset (c : Command) (opcode : Byte) (s : State) : (runCommand c opcode s).sampleOffset = s.sampleOffset := by
  have h := congrArg State.sampleOffset (runCommand_leaves c opcode s)
  exact h
@[simp] theorem runCommand_resetState (c : Command) (opcode : Byte) (s : State) : (runCommand c opcode s).resetState = s.resetState := by
  have h := congrArg State.resetState (runCommand_leaves c opcode s)
  exact h
@[simp] theorem runCommand_fifo (c : Command) (opcode : Byte) (s : State) : (runCommand c opcode s).fifo = s.fifo := by
  have h := congrArg State.fifo (runCommand_leaves c opcode s)
  exact h
@[simp] theorem runCommand_tail (c : Command) (opcode : Byte) (s : State) : (runCommand c opcode s).tail = s.tail := by
  have h := congrArg State.tail (runCommand_leaves c opcode s)
  exact h
@[simp] theorem runCommand_frameCount (c : Command) (opcode : Byte) (s : State) : (runCommand c opcode s).frameCount = s.frameCount := by
  have h := congrArg State.frameCount (runCommand_leaves c opcode s)
  exact h
@[simp] theorem runCommand_frame (c : Command) (opcode : Byte) (s : State) : (runCommand c opcode s).frame = s.frame := by
  have h := congrArg State.frame (runCommand_leaves c opcode s)
  exact h
@[simp] theorem runCommand_dmaReq (c : Command) (opcode : Byte) (s : State) : (runCommand c opcode s).dmaReq = s.dmaReq := by
  have h := congrArg State.dmaReq (runCommand_leaves c opcode s)
  exact h
@[simp] theorem runCommand_diagLog (c : Command) (opcode : Byte) (s : State) : (runCommand c opcode s).diagLog = s.diagLog := by
  have h := congrArg State.diagLog (runCommand_leaves c opcode s)
  exact h
@[simp] theorem runCommand_pollOp (c : Command) (opcode : Byte) (s : State) : (runCommand c opcode s).pollOp = s.pollOp := by
  have h := congrArg State.pollOp (runCommand_leaves c opcode s)
  exact h
@[simp] theorem runCommand_pullArmed (c : Command) (opcode : Byte) (s : State) : (runCommand c opcode s).pullArmed = s.pullArmed := by
  have h := congrArg State.pullArmed (runCommand_leaves c opcode s)
  exact h
@[simp] theorem runCommand_n (c : Command) (opcode : Byte) (s : State) : (runCommand c opcode s).n = s.n := by
  have h := congrArg State.n (runCommand_leaves c opcode s)
  exact h
@[simp] theorem runCommand_buf (c : Command) (opcode : Byte) (s : State) : (runCommand c opcode s).buf = s.buf := by
  have h := congrArg State.buf (runCommand_leaves c opcode s)
  exact h
@[simp] theorem runCommand_waitPolls (c : Command) (opcode : Byte) (s : State) : (runCommand c opcode s).waitPolls = s.waitPolls := by
  have h := congrArg State.waitPolls (runCommand_leaves c opcode s)
  exact h
@[simp] theorem runCommand_params (c : Command) (opcode : Byte) (s : State) : (runCommand c opcode s).params = s.params := by
  have h := congrArg State.params (runCommand_leaves c opcode s)
  exact h
@[simp] theorem runCommand_script (c : Command) (opcode : Byte) (s : State) : (runCommand c opcode s).script = s.script := by
  have h := congrArg State.script (runCommand_leaves c opcode s)
  exact h
@[simp] theorem runCommand_draws (c : Command) (opcode : Byte) (s : State) : (runCommand c opcode s).draws = s.draws := by
  have h := congrArg State.draws (runCommand_leaves c opcode s)
  exact h
@[simp] theorem runCommand_answer (c : Command) (opcode : Byte) (s : State) : (runCommand c opcode s).answer = s.answer := by
  have h := congrArg State.answer (runCommand_leaves c opcode s)
  exact h

end Sys2Proof.Machine
end

