-- ==== Sys2Proof/Laws/Operands.lean ====
section
/-! SUPPORT. Operand forms and exact arithmetic: parameter assembly, the ranges of the rate formulas, and what
the resampling loop, the stereo copy and the secondary fill produce. -/

namespace Sys2Proof.Machine

/-! ### Parameter bytes -/

@[simp] theorem lowParam_toNat (v : Byte) : (lowParam v).toNat = v.toNat := by
  have := v.isLt
  simp only [lowParam, BitVec.toNat_setWidth]
  omega

@[simp] theorem highParam_toNat (v : Byte) (r : BitVec 16) :
    (highParam v r).toNat = r.toNat % 256 + 256 * v.toNat := by
  have h : (highParam v r).toNat = v.toNat <<< 8 ||| (r.extractLsb' 0 8).toNat := BitVec.toNat_append ..
  rw [h, Nat.shiftLeft_eq, Nat.mul_comm, ← Nat.two_pow_add_eq_or_of_lt (BitVec.isLt _)]
  simp
  omega

/-! ### The rate formulas (R182, R183) -/

theorem rateOf_le (v : Byte) : rateOf v ≤ 1000000 := Nat.div_le_self _ _

theorem le_rateOf (v : Byte) : 3906 ≤ rateOf v := by
  have := v.isLt
  rw [rateOf, Nat.le_div_iff_mul_le (by simp only [Config.tcBase]; omega)]
  simp only [Config.tcBase, Config.usPerSecond]
  omega

/-- `dma_interval` is `256 - v` for every time constant. -/
theorem intervalOf_rateOf (v : Byte) : intervalOf (rateOf v) = 256 - v.toNat := by
  have hv := v.isLt
  have hr := le_rateOf v
  have h1 := Nat.div_mul_le_self 1000000 (256 - v.toNat)
  have h2 := Nat.lt_div_mul_add (a := 1000000) (b := 256 - v.toNat) (by omega)
  have e : 1000000 / (256 - v.toNat) = rateOf v := rfl
  rw [e] at h1 h2
  rw [intervalOf, Config.usPerSecond]
  apply Nat.div_eq_of_lt_le
  · rwa [Nat.mul_comm]
  · rw [Nat.succ_mul, Nat.mul_comm]
    omega

theorem stepOf_le (sampleRate outputRate : Nat) : stepOf sampleRate outputRate ≤ sampleRate * 65536 :=
  Nat.div_le_self _ _

/-- Below the rates of R9 the step is at least 244. -/
theorem le_stepOf (sampleRate outputRate : Nat) (h1 : 3906 ≤ sampleRate) (h2 : 1 ≤ outputRate)
    (h3 : outputRate < 2 ^ 20) : 244 ≤ stepOf sampleRate outputRate := by
  rw [stepOf, Nat.le_div_iff_mul_le (by omega)]
  simp only [Config.fracBits]
  omega

/-- Below the rates of R9 the factor is at most 273. -/
theorem factorOf_le (sampleRate outputRate : Nat) (h1 : 3906 ≤ sampleRate) (h3 : outputRate < 2 ^ 20) :
    factorOf sampleRate outputRate ≤ 273 := by
  have h : outputRate / sampleRate < 269 := by
    rw [Nat.div_lt_iff_lt_mul (by omega)]
    omega
  simp only [factorOf, Config.factorMargin]
  omega

/-! ### Frames -/

@[simp] theorem stereo_length (l : List Sample) : (stereo l).length = 2 * l.length := by
  induction l with
  | nil => rfl
  | cons x rest ih => simp [stereo, ih]; omega

/-- Sample `j` of the mono stream stands on both channels. -/
theorem stereo_getElem? (l : List Sample) (j : Nat) :
    (stereo l)[2 * j]? = l[j]? ∧ (stereo l)[2 * j + 1]? = l[j]? := by
  induction l generalizing j with
  | nil => simp [stereo]
  | cons x rest ih =>
    cases j with
    | zero => simp [stereo]
    | succ j => simpa [stereo, Nat.mul_add] using ih j

@[simp] theorem secondaryFill_length (k : Nat) (sec : List Sample) : (secondaryFill k sec).length = k := by
  induction k generalizing sec with
  | zero => rfl
  | succ k ih => cases sec <;> simp [secondaryFill, ih]

/-- Value `j` of the secondary stream: zero beyond the end of what was given. -/
theorem secondaryFill_getElem? (k : Nat) (sec : List Sample) (j : Nat) (h : j < k) :
    (secondaryFill k sec)[j]? = some (sec.getD j 0) := by
  induction k generalizing sec j with
  | zero => omega
  | succ k ih =>
    cases sec <;> cases j
    · rfl
    · simpa [secondaryFill] using ih [] _ (Nat.lt_of_succ_lt_succ h)
    · rfl
    · simpa [secondaryFill] using ih _ _ (Nat.lt_of_succ_lt_succ h)

/-- Value `k` of a mixed frame is the wrapped sum (R216). -/
theorem mix_getElem? (a b : List Sample) (k : Nat) (x y : Sample) (hx : a[k]? = some x) (hy : b[k]? = some y) :
    (mix a b)[k]? = some (x + y) := by
  simp [mix, List.getElem?_zipWith, hx, hy]

@[simp] theorem mix_length (a b : List Sample) : (mix a b).length = min a.length b.length := by
  simp [mix]

theorem orSilence_of_ne_nil (l : List Sample) (h : l ≠ []) : orSilence l = l := by
  cases l with
  | nil => exact absurd rfl h
  | cons x rest => rfl

theorem orSilence_length_pos (l : List Sample) : 1 ≤ (orSilence l).length := by
  cases l <;> simp [orSilence]

/-- Entry `k` of the destination of a pop. -/
theorem overlay_getElem (dst : Vector Byte 4) (bs : List Byte) (k : Fin 4) :
    (overlay dst bs)[k] = bs.getD k.val dst[k] := by
  fin_cases k <;> rfl

/-- A pop that copies nothing leaves its destination. -/
@[simp] theorem overlay_nil (dst : Vector Byte 4) : overlay dst [] = dst := by
  ext i hi
  interval_cases i <;> simp [overlay]

/-! ### The resampling loop (R213) -/

/-- All the loop does: how many samples it gives, where it leaves the position, which byte each sample is, and
why it ends. -/
theorem resample_spec (buf : Vector Byte 4) (n : Fin 5) (start : BitVec 48) (step : BitVec 64) (left : Nat)
    (offset : BitVec 64) (samples : List Sample) (final : BitVec 64)
    (h : resample buf n start step left offset = (samples, final)) :
    samples.length ≤ left ∧ final = offset + BitVec.ofNat 64 samples.length * step ∧
    (∀ j, j < samples.length → ∃ k : Fin 4, k.val < n.val ∧
      k.val = (wholePart (offset + BitVec.ofNat 64 j * step) - start).toNat ∧ samples[j]? = some (pcm buf[k])) ∧
    (samples.length = left ∨
      n.val ≤ (wholePart (offset + BitVec.ofNat 64 samples.length * step) - start).toNat) := by
  induction left generalizing offset samples final with
  | zero =>
    cases h
    simp
  | succ left ih =>
    simp only [resample] at h
    split_ifs at h with hidx
    · rcases hr : resample buf n start step left (offset + step) with ⟨rest, last⟩
      simp only [hr, Prod.mk.injEq] at h
      obtain ⟨rfl, rfl⟩ := h
      have hstep (j : Nat) : offset + BitVec.ofNat 64 (j + 1) * step = offset + step + BitVec.ofNat 64 j * step := by
        rw [BitVec.ofNat_add, BitVec.add_mul, BitVec.one_mul, BitVec.add_assoc, BitVec.add_comm step]
      obtain ⟨h1, h2, h3, h4⟩ := ih _ _ _ hr
      refine ⟨by simpa using h1, by rw [List.length_cons, hstep, h2], fun j hj => ?_, ?_⟩
      · cases j with
        | zero =>
          refine ⟨⟨(wholePart offset - start).toNat, by omega⟩, hidx, by simp, by simp⟩
        | succ j =>
          obtain ⟨k, hk1, hk2, hk3⟩ := h3 j (by simpa using hj)
          exact ⟨k, hk1, by rw [hstep, hk2], by simpa using hk3⟩
      · rw [List.length_cons, hstep]
        exact h4.imp (by omega) id
    · cases h
      exact ⟨by simp, by simp, by simp, .inr (by simpa using hidx)⟩

end Sys2Proof.Machine
end

