-- ==== Sys2Proof/Laws/Mixer.lean ====
section
/-! SUPPORT. The phases of a frame: the position of a sample in plain arithmetic, what the primary samples of a
frame are, and what the pull leaves. -/

namespace Sys2Proof.Machine

/-- `sample_offset >> 16` in plain arithmetic (R32). -/
theorem wholePart_toNat (offset : BitVec 64) : (wholePart offset).toNat = offset.toNat / 65536 := by
  have := offset.isLt
  simp only [wholePart, BitVec.extractLsb'_toNat, Config.fracBits, Nat.shiftRight_eq_div_pow]
  omega

/-- The index the loop computes for sample `j` is `sourceIndex` (R213 line 6). -/
theorem sourceIndex_eq (s : State) (j : Nat) :
    (wholePart (s.sampleOffset + BitVec.ofNat 64 j * s.sampleStep.setWidth 64) - wholePart s.sampleOffset).toNat =
      sourceIndex s j := by
  have hstep : (s.sampleStep.setWidth 64).toNat = s.sampleStep.toNat := by
    have := s.sampleStep.isLt
    simp only [BitVec.toNat_setWidth]
    omega
  have hmul : (BitVec.ofNat 64 j * s.sampleStep.setWidth 64).toNat = j * s.sampleStep.toNat % 2 ^ 64 := by
    rw [BitVec.toNat_mul, hstep, BitVec.toNat_ofNat, Nat.mod_mul_mod]
  have ho := s.sampleOffset.isLt
  rw [BitVec.toNat_sub, wholePart_toNat, wholePart_toNat, BitVec.toNat_add, hmul, Nat.add_mod_mod, sourceIndex]
  omega

/-- The position after `count` samples (R213 line 12). -/
theorem position_eq (s : State) (count : Nat) :
    s.sampleOffset + BitVec.ofNat 64 count * s.sampleStep.setWidth 64 =
      BitVec.ofNat 64 (s.sampleOffset.toNat + count * s.sampleStep.toNat) := by
  rw [BitVec.ofNat_add, BitVec.ofNat_toNat, BitVec.setWidth_eq, ← BitVec.toNat_inj]
  have hstep : (s.sampleStep.setWidth 64).toNat = s.sampleStep.toNat := by
    have := s.sampleStep.isLt
    simp only [BitVec.toNat_setWidth]
    omega
  simp only [BitVec.toNat_add, BitVec.toNat_mul, hstep, BitVec.toNat_ofNat, Nat.mod_mul_mod, Nat.add_mod_mod]

/-- What the loop of a frame gives: its length, where the position ends, which byte each sample is, and why it
ends (R213). -/
theorem primarySamples_spec (s : State) (hn : 0 < s.n.val) (samples : List Sample) (final : BitVec 64)
    (h : primarySamples s = (samples, final)) :
    samples.length ≤ s.n.val * s.sampleFactor.toNat ∧
    final = BitVec.ofNat 64 (s.sampleOffset.toNat + samples.length * s.sampleStep.toNat) ∧
    (∀ j, j < samples.length → ∃ k : Fin 4, k.val < s.n.val ∧ k.val = sourceIndex s j ∧
      samples[j]? = some (pcm s.buf[k])) ∧
    (samples.length = s.n.val * s.sampleFactor.toNat ∨ s.n.val ≤ sourceIndex s samples.length) := by
  rw [primarySamples, if_pos hn] at h
  obtain ⟨h1, h2, h3, h4⟩ := resample_spec _ _ _ _ _ _ _ _ h
  refine ⟨h1, by rw [h2, position_eq], fun j hj => ?_, by rwa [sourceIndex_eq] at h4⟩
  obtain ⟨k, hk⟩ := h3 j hj
  exact ⟨k, by rwa [sourceIndex_eq] at hk⟩

/-- The first sample of a frame is the first byte pulled. -/
@[simp] theorem sourceIndex_zero (s : State) : sourceIndex s 0 = 0 := by
  have := s.sampleOffset.isLt
  simp only [sourceIndex]
  omega

/-- With bytes pulled and a factor set, the loop gives at least one sample. -/
theorem primarySamples_pos (s : State) (hn : 0 < s.n.val) (hf : 0 < s.sampleFactor.toNat) :
    1 ≤ (primarySamples s).1.length := by
  rcases hp : primarySamples s with ⟨samples, final⟩
  obtain ⟨-, -, -, h⟩ := primarySamples_spec s hn samples final hp
  rcases h with h | h
  · exact h ▸ Nat.mul_pos hn hf
  · rcases Nat.eq_zero_or_pos samples.length with h0 | h0
    · rw [h0, sourceIndex_zero] at h
      omega
    · exact h0

/-- Without bytes, or without a factor, the loop gives nothing and leaves the position (R215). -/
theorem primarySamples_none (s : State) (h : s.n.val = 0 ∨ s.sampleFactor.toNat = 0) :
    primarySamples s = ([], s.sampleOffset) := by
  rw [primarySamples]
  split_ifs with hn
  · rw [h.resolve_left (by omega), Nat.mul_zero, resample]
  · rfl

/-- A delivered frame has two values for each sample (R36). -/
theorem mixed_length (samples : List Sample) (sec : List Sample) :
    (mix (stereo samples) (secondaryFill (2 * samples.length) sec)).length = 2 * samples.length := by
  simp

/-- The pull of `F2` (R212 line 7). -/
@[simp] theorem pull_n (s : State) : (pull s).n.val = min (fifoLevel s) 4 := rfl

@[simp] theorem pull_buf (s : State) : (pull s).buf = overlay s.buf (fifoBytes s (popCount s 4)) := rfl

@[simp] theorem pull_head (s : State) : (pull s).head = s.head + BitVec.ofNat 10 (popCount s 4) := rfl

/-- The hold of `F2` in terms of its three reasons (R212 lines 5, 6). -/
theorem pullReady_iff (s : State) :
    pullReady s = true ↔ s.pullArmed = false ∨ 1 ≤ fifoLevel s ∨ waitOver s = true := by
  simp [pullReady, or_assoc]

/-- Without a limit the wait is never over (R219). -/
theorem waitOver_unbounded (s : State) (h : s.params.mixWaitLimit = none) : waitOver s = false := by
  simp [waitOver, h]

/-- With a finite limit the wait is over when the failed polls reach it (R219). -/
theorem waitOver_bounded (s : State) (limit : Nat) (h : s.params.mixWaitLimit = some limit) :
    waitOver s = decide (limit ≤ s.waitPolls) := by
  simp [waitOver, h]

end Sys2Proof.Machine
end

