-- ==== Sys2Proof/Laws/Step.lean ====
section
/-! SUPPORT. What a step can do, said once: the stimulus it takes, and the state each kind of stimulus leaves. -/

namespace Sys2Proof.Machine

/-- The step takes the head of a loaded script. -/
theorem step_of_script (s : State) (st : Stimulus) (rest : List Stimulus) (h : s.script = st :: rest) :
    step s = runStimulus st { s with script := rest } := by
  simp [step, atomicStep, takeStimulus, h]

/-- With no script the step takes what the free schedule draws. -/
theorem step_of_draw (s : State) (h : s.script = []) :
    step s = runStimulus (Config.schedule s.draws) { s with draws := s.draws + 1 } := by
  simp [step, atomicStep, takeStimulus, h]

/-- Taking a stimulus changes nothing but the script and the count of draws. -/
theorem takeStimulus_frame (s : State) :
    { (takeStimulus s).2 with script := s.script, draws := s.draws } = s := by
  unfold takeStimulus
  split <;> rfl

/-- The operations the bus can select, and why an access selects none. -/
theorem decodePort_cases (p : PortMap) (a : BusAccess) :
    decodePort p a = .ok .portReadRd ∨ decodePort p a = .ok .portWstatusRd ∨ decodePort p a = .ok .portRstatusRd ∨
      decodePort p a = .ok (.portResetWr a.data) ∨ decodePort p a = .ok (.portWriteWr a.data) ∨
      ∃ r, decodePort p a = .error r := by
  rw [decodePort]
  cases a.dir <;> simp only <;> split_ifs <;> simp

/-! ### The state each stimulus leaves -/

theorem runStimulus_powerOn (s : State) : runStimulus .powerOn s = .next (powerOn s) := rfl

theorem runStimulus_protocol (ph : PstepPhase) (s : State) :
    runStimulus (.protocol ph) s = .next (protocolPhase ph s) := rfl

theorem runStimulus_mixer (ph : FramePhase) (s : State) : runStimulus (.mixer ph) s = .next (framePhase ph s) := rfl

theorem runStimulus_paceFires (s : State) :
    runStimulus .paceFires s = .next (if s.pacePending.isSome then paceEvent s else notEnabled s) := rfl

theorem runStimulus_dmaCompletes (b : Byte) (s : State) :
    runStimulus (.dmaCompletes b) s = .next (if s.dmaReq then dmaDone b s else notEnabled s) := rfl

/-- An access the port table lists runs its operation. -/
theorem runStimulus_bus (a : BusAccess) (s : State) (i : Instr) (h : decodePort s.params.ports a = .ok i) :
    runStimulus (.bus a) s = exec i s := by
  simp [runStimulus, decodeStimulus, h]

/-- Any other access leaves the block as it is (R245). -/
theorem runStimulus_unlisted (a : BusAccess) (s : State) (r : AccessReject)
    (h : decodePort s.params.ports a = .error r) : runStimulus (.bus a) s = .next (unlistedAccess a.dir s) := by
  simp [runStimulus, decodeStimulus, h]

/-- The state after a write to the Reset port (R230). -/
def afterResetWrite (v : Byte) (s : State) : State :=
  if v = 1 then resetAssert s else if v = 0 && s.resetState then resetRelease s else s

/-- Everything a stimulus can do. -/
theorem runStimulus_cases (st : Stimulus) (s t : State) (h : runStimulus st s = .next t) :
    (st = .powerOn ∧ t = powerOn s) ∨
    (∃ ph, st = .protocol ph ∧ t = protocolPhase ph s) ∨
    (∃ ph, st = .mixer ph ∧ t = framePhase ph s) ∨
    (st = .paceFires ∧ t = if s.pacePending.isSome then paceEvent s else notEnabled s) ∨
    (∃ b, st = .dmaCompletes b ∧ t = if s.dmaReq then dmaDone b s else notEnabled s) ∨
    (∃ a, st = .bus a ∧
      ((decodePort s.params.ports a = .ok .portReadRd ∧ t = answerWith (.byte s.outbox) { s with davPc := false }) ∨
       (decodePort s.params.ports a = .ok .portWstatusRd ∧ t = answerWith (.byte (writeStatus s)) s) ∨
       (decodePort s.params.ports a = .ok .portRstatusRd ∧ t = answerWith (.byte (readStatus s)) (deassertIrq s)) ∨
       (decodePort s.params.ports a = .ok (.portResetWr a.data) ∧ t = afterResetWrite a.data s) ∨
       (decodePort s.params.ports a = .ok (.portWriteWr a.data) ∧
         t = { (if s.davDsp then raiseDiag .protoOverwrite s else s) with inbox := a.data, davDsp := true }) ∨
       ((∃ r, decodePort s.params.ports a = .error r) ∧ t = unlistedAccess a.dir s))) := by
  cases st with
  | powerOn => cases h; exact .inl ⟨rfl, rfl⟩
  | protocol ph => cases h; exact .inr (.inl ⟨_, rfl, rfl⟩)
  | mixer ph => cases h; exact .inr (.inr (.inl ⟨_, rfl, rfl⟩))
  | paceFires => cases h; exact .inr (.inr (.inr (.inl ⟨rfl, rfl⟩)))
  | dmaCompletes b => cases h; exact .inr (.inr (.inr (.inr (.inl ⟨_, rfl, rfl⟩))))
  | bus a =>
    refine .inr (.inr (.inr (.inr (.inr ⟨a, rfl, ?_⟩))))
    rcases decodePort_cases s.params.ports a with hd | hd | hd | hd | hd | ⟨r, hd⟩
    · rw [runStimulus_bus a s _ hd] at h; cases h; exact .inl ⟨hd, rfl⟩
    · rw [runStimulus_bus a s _ hd] at h; cases h; exact .inr (.inl ⟨hd, rfl⟩)
    · rw [runStimulus_bus a s _ hd] at h; cases h; exact .inr (.inr (.inl ⟨hd, rfl⟩))
    · rw [runStimulus_bus a s _ hd] at h; cases h; exact .inr (.inr (.inr (.inl ⟨hd, rfl⟩)))
    · rw [runStimulus_bus a s _ hd] at h; cases h; exact .inr (.inr (.inr (.inr (.inl ⟨hd, rfl⟩))))
    · rw [runStimulus_unlisted a s r hd] at h; cases h; exact .inr (.inr (.inr (.inr (.inr ⟨⟨r, hd⟩, rfl⟩))))

end Sys2Proof.Machine
end

