-- ==== Sys2Proof/Tests/Slice0.lean ====
section
/-! SUPPORT. Tests on small states, from the examples and vectors of `spec/`; the smoke test of the checks; the
decoding of written-out words; and for each statement with hypotheses a state that meets them. -/

open Sys2Proof Sys2Proof.Machine

namespace Sys2Proof.Tests

/-- The parameters of the spec's vectors: 44100 Hz, default opcodes and offsets. -/
def params : Params where
  outputRate := 44100
  versionMajor := 4
  versionMinor := 5
  opcodes := defaultOpcodes
  ports := defaultPorts
  mixWaitLimit := none

/-- The state after power-on with those parameters. -/
def base : State := { State.reset with params := params }

/-- The state an outcome goes on with. -/
def nextOf : Host.Outcome State Fault Refusal → Option State
  | .next s => some s
  | .fault _ => none
  | .refused _ => none

/-- A field of the state after an operation. -/
def after {α : Type} (i : Instr) (s : State) (f : State → α) : Option α := (nextOf (exec i s)).map f

/-! ### The checks refuse ill-formed terms -/

/-- R106: 0x00 is no unknown opcode. -/
theorem test_wf_refuses_zero_as_unknown : (Instr.cmdUnknown 0).wellFormed defaultOpcodes = false := by decide

/-- R106: a recognised opcode is no unknown opcode. -/
theorem test_wf_refuses_recognised_as_unknown : (Instr.cmdUnknown 0x14).wellFormed defaultOpcodes = false := by decide

theorem test_wf_accepts_unknown : (Instr.cmdUnknown 0x30).wellFormed defaultOpcodes = true := by decide

/-- R281: left and right. -/
theorem test_wf_refuses_odd_secondary : (Instr.frame (.whole [0])).wellFormed defaultOpcodes = false := by decide

theorem test_wf_refuses_odd_secondary_phase :
    (Instr.frame (.phase (.f3 [0, 0, 0]))).wellFormed defaultOpcodes = false := by decide

/-- R134: `dst` holds four entries. -/
theorem test_wf_refuses_long_pop : (Instr.fifoPopInto 5).wellFormed defaultOpcodes = false := by decide

/-- R104: pairwise distinct. -/
theorem test_wf_refuses_duplicate_opcode : ¬ { defaultOpcodes with dmaAuto := 0x14 }.WellFormed := by decide

/-- R104: none is 0x00. -/
theorem test_wf_refuses_zero_opcode : ¬ { defaultOpcodes with speakerOn := 0 }.WellFormed := by decide

/-- R101: the read ports are told apart. -/
theorem test_wf_refuses_clashing_read_ports : ¬ { defaultPorts with readStatus := 0xA }.WellFormed := by decide

theorem test_wf_refuses_clashing_write_ports : ¬ { defaultPorts with reset := 0xC }.WellFormed := by decide

/-- R9: `1 <= OUTPUT_RATE`. -/
theorem test_wf_refuses_zero_rate : ¬ { params with outputRate := 0 }.WellFormed := by decide

/-- R9: `OUTPUT_RATE < 2^20`. -/
theorem test_wf_refuses_large_rate : ¬ { params with outputRate := 2 ^ 20 }.WellFormed := by decide

theorem test_wf_accepts_params : params.WellFormed := by decide

/-! ### Decoding, from the opcode column of R104 and the tables of R101 and R122 -/

theorem test_decode_cmdDmaSingle : decodeTableWord 8 0x14 = some .cmdDmaSingle := by decide

theorem test_decode_cmdDmaAuto : decodeTableWord 8 0x1C = some .cmdDmaAuto := by decide

theorem test_decode_cmdSetTimeConstant : decodeTableWord 8 0x40 = some .cmdSetTimeConstant := by decide

theorem test_decode_cmdSetBlockSize : decodeTableWord 8 0x48 = some .cmdSetBlockSize := by decide

theorem test_decode_cmdDmaHsAuto : decodeTableWord 8 0x90 = some .cmdDmaHsAuto := by decide

theorem test_decode_cmdDmaHsSingle : decodeTableWord 8 0x91 = some .cmdDmaHsSingle := by decide

theorem test_decode_cmdDmaPause : decodeTableWord 8 0xD0 = some .cmdDmaPause := by decide

theorem test_decode_cmdSpeakerOn : decodeTableWord 8 0xD1 = some .cmdSpeakerOn := by decide

theorem test_decode_cmdSpeakerOff : decodeTableWord 8 0xD3 = some .cmdSpeakerOff := by decide

theorem test_decode_cmdDmaResume : decodeTableWord 8 0xD4 = some .cmdDmaResume := by decide

theorem test_decode_cmdIdentify : decodeTableWord 8 0xE0 = some .cmdIdentify := by decide

theorem test_decode_cmdGetVersion : decodeTableWord 8 0xE1 = some .cmdGetVersion := by decide

theorem test_decode_cmdWriteTest : decodeTableWord 8 0xE4 = some .cmdWriteTest := by decide

theorem test_decode_cmdReadTest : decodeTableWord 8 0xE8 = some .cmdReadTest := by decide

theorem test_decode_cmdTriggerIrq : decodeTableWord 8 0xF2 = some .cmdTriggerIrq := by decide

theorem test_decode_cmdIdleZero : decodeTableWord 8 0x00 = some .cmdIdleZero := by decide

/-- R106: 0x30 is no recognised opcode. -/
theorem test_decode_cmdUnknown : decodeTableWord 8 0x30 = some (.cmdUnknown 0x30) := by decide

/-- R109: the parameter 0xD4 after 0x40 is data; the first byte is the low byte of the word. -/
theorem test_decode_second_byte_is_data : decodeTableWord 16 0xD440 = some .cmdSetTimeConstant := by decide

theorem test_decode_nothing : decodeTableWord 0 0 = none := by decide

theorem test_decode_portResetWr : decodePort defaultPorts ⟨.write, 0x6, 1, 1⟩ = .ok (.portResetWr 1) := by decide

theorem test_decode_portReadRd : decodePort defaultPorts ⟨.read, 0xA, 1, 1⟩ = .ok .portReadRd := by decide

theorem test_decode_portWriteWr : decodePort defaultPorts ⟨.write, 0xC, 1, 1⟩ = .ok (.portWriteWr 1) := by decide

theorem test_decode_portWstatusRd : decodePort defaultPorts ⟨.read, 0xC, 1, 1⟩ = .ok .portWstatusRd := by decide

theorem test_decode_portRstatusRd : decodePort defaultPorts ⟨.read, 0xE, 1, 1⟩ = .ok .portRstatusRd := by decide

/-- R245. -/
theorem test_decode_refuses_wide_access : decodePort defaultPorts ⟨.write, 0xC, 2, 1⟩ = .error .notOneByte := by decide

theorem test_decode_refuses_read_of_reset : decodePort defaultPorts ⟨.read, 0x6, 1, 0⟩ = .error .readOfResetPort := by decide

theorem test_decode_refuses_write_to_read : decodePort defaultPorts ⟨.write, 0xA, 1, 0⟩ = .error .writeToReadPort := by decide

theorem test_decode_refuses_write_to_rstatus :
    decodePort defaultPorts ⟨.write, 0xE, 1, 0⟩ = .error .writeToReadStatusPort := by decide

/-- U4: a platform may place a port at any offset. -/
theorem test_decode_far_offset :
    decodePort { defaultPorts with write := 0x22C } ⟨.write, 0x22C, 1, 1⟩ = .ok (.portWriteWr 1) := by decide

theorem test_decode_refuses_other_offset : decodePort defaultPorts ⟨.read, 0x0, 1, 0⟩ = .error .noPortHere := by decide

theorem test_decode_por : decodeStimulus defaultPorts .powerOn = .ok .por := by decide

theorem test_decode_pstep :
    decodeStimulus defaultPorts (.protocol .p2) = .ok (.pstep (.phase .p2)) := by decide

theorem test_decode_frame : decodeStimulus defaultPorts (.mixer .f1) = .ok (.frame (.phase .f1)) := by decide

theorem test_decode_paceEvent : decodeStimulus defaultPorts .paceFires = .ok .paceEvent := by decide

theorem test_decode_dmaDone : decodeStimulus defaultPorts (.dmaCompletes 7) = .ok (.dmaDone 7) := by decide

/-- R122: a procedure has no encoding. -/
theorem test_encode_fifoLevel : encode defaultOpcodes defaultPorts .fifoLevel = none := by decide

theorem test_encode_fifoPush : encode defaultOpcodes defaultPorts (.fifoPush 1) = none := by decide

theorem test_encode_fifoPopInto : encode defaultOpcodes defaultPorts (.fifoPopInto 4) = none := by decide

theorem test_encode_fifoClear : encode defaultOpcodes defaultPorts .fifoClear = none := by decide

theorem test_encode_fifoHalf : encode defaultOpcodes defaultPorts .fifoHalf = none := by decide

theorem test_encode_paceEnable : encode defaultOpcodes defaultPorts .paceEnable = none := by decide

theorem test_encode_paceDisable : encode defaultOpcodes defaultPorts .paceDisable = none := by decide

theorem test_encode_output : encode defaultOpcodes defaultPorts (.output 1) = none := by decide

theorem test_encode_consumeParam : encode defaultOpcodes defaultPorts .consumeParam = none := by decide

/-- R102, format C2. -/
theorem test_encode_dmaSingle :
    encodeCommand defaultOpcodes defaultPorts .cmdDmaSingle [0xFF, 0x00] = some [0x14, 0xFF, 0x00] := by decide

/-- R102, format C1R1, and the rest of the stream. -/
theorem test_take_identify :
    takeCommand defaultOpcodes [0xE0, 0x00, 0x14] = some (.cmdIdentify, [0x00], [0x14]) := by decide

/-! ### The FIFO (R131 to R136) -/

/-- A state with the given indices. -/
def indices (head tail : Index) : State := { base with head := head, tail := tail }

/-- Example of R131. -/
theorem test_fifoLevel_wraps : after .fifoLevel (indices 1020 3) (·.answer) = some (.number 7) := by decide

/-- Example of R133. -/
theorem test_fifoPush :
    after (.fifoPush 0x80) (indices 0 5) (fun s => (fifoRead s 5, s.tail, fifoLevel s, s.diagLog)) =
      some (0x80, 6, 6, []) := by decide

/-- R133 corner (b): a push when full. -/
theorem test_fifoPush_full :
    after (.fifoPush 1) (indices 0 1023) (fun s => (s.tail, s.head, s.diagLog)) = some (0, 0, [.overrun]) := by decide

/-- Example of R134. -/
theorem test_fifoPopInto_wraps :
    after (.fifoPopInto 4)
        { indices 1022 2 with fifo := [(0, 0x30), (1, 0x40), (1022, 0x10), (1023, 0x20)] }
        (fun s => (s.buf, s.head, fifoLevel s, s.answer)) =
      some (#v[0x10, 0x20, 0x30, 0x40], 2, 0, .bytes [0x10, 0x20, 0x30, 0x40]) := by decide

/-- R134: the entries from `count` on are left unchanged. -/
theorem test_fifoPopInto_short :
    after (.fifoPopInto 3) { indices 0 1 with fifo := [(0, 9)], buf := #v[1, 2, 3, 4] } (fun s => (s.buf, s.head)) =
      some (#v[9, 2, 3, 4], 1) := by decide

/-- Example of R135. -/
theorem test_fifoClear :
    after .fifoClear (indices 7 300) (fun s => (s.head, s.tail)) = some (300, 300) := by decide

/-- Example of R136. -/
theorem test_fifoHalf_at : after .fifoHalf (indices 100 612) (·.answer) = some (.truth true) := by decide

/-- R136: level 511 gives false. -/
theorem test_fifoHalf_below : after .fifoHalf (indices 100 611) (·.answer) = some (.truth false) := by decide

/-! ### The pacing loop (R151 to R156) -/

/-- Example of R151. -/
theorem test_paceEnable :
    after .paceEnable { indices 3 9 with dmaInterval := 44 } (fun s => (s.head, s.dmaEnabled, s.pacePending)) =
      some (9, true, some 44) := by decide

/-- Example of R152. -/
theorem test_paceDisable :
    after .paceDisable { base with dmaEnabled := true, pacePending := some 49 } (fun s => (s.pacePending, s.dmaEnabled)) =
      some (none, false) := by decide

/-- Example of R153: level 600. -/
theorem test_paceEvent_slow :
    after .paceEvent { indices 0 600 with dmaEnabled := true, pacePending := some 44 }
        (fun s => (s.dmaIntervalTrim.toInt, s.dmaReq, s.pacePending)) = some (5, true, none) := by decide

/-- R153: level 511 gives -5. -/
theorem test_paceEvent_fast :
    after .paceEvent { indices 0 511 with dmaEnabled := true, pacePending := some 44 } (·.dmaIntervalTrim) =
      some 0xFFFB := by decide

/-- The state of the example of R155, one byte before the target. -/
def nearEnd : State :=
  { base with
    dmaReq := true
    dmaEnabled := true
    dmaSampleCount := 255
    dmaSampleCountRx := 254
    dmaInterval := 44
    dmaIntervalTrim := 0xFFFB }

/-- Example of R155. -/
theorem test_dmaDone_rearms :
    after (.dmaDone 0x90) nearEnd (fun s => (fifoRead s 0, s.dmaSampleCountRx, s.pacePending, s.irq, s.dmaReq)) =
      some (0x90, 255, some 39, false, false) := by decide

/-- R158, R161: the 256th byte ends a block of target 255. -/
theorem test_dmaDone_stops :
    after (.dmaDone 0x90) { nearEnd with dmaSampleCountRx := 255 }
        (fun s => (s.dmaSampleCountRx, s.pacePending, s.dmaEnabled, s.irq)) = some (256, none, false, true) := by decide

/-! ### The commands (R177 to R194) -/

/-- A state in which a parameter byte waits. -/
def param (v : Byte) (index : BitVec 8) : State :=
  { base with davDsp := true, inbox := v, currentCommandIndex := index, currentCommand := 0x77 }

/-- Example of R177. -/
theorem test_cmdDmaPause :
    after .cmdDmaPause { base with dmaEnabled := true, pacePending := some 44, currentCommand := 0xD0 }
        (fun s => (s.dmaEnabled, s.pacePending, s.currentCommand)) = some (false, none, 0) := by decide

/-- Example of R178. -/
theorem test_cmdDmaResume :
    after .cmdDmaResume { indices 3 9 with dmaInterval := 44 } (fun s => (s.dmaEnabled, s.pacePending, fifoLevel s)) =
      some (true, some 44, 0) := by decide

/-- Example of R179. -/
theorem test_cmdDmaAuto :
    after .cmdDmaAuto { base with dmaBlockSize := 1024 } (fun s => (s.autoinit, s.dmaSampleCount, s.dmaEnabled)) =
      some (true, 1024, true) := by decide

/-- Example of R180. -/
theorem test_cmdDmaHsAuto :
    after .cmdDmaHsAuto { base with dmaBlockSize := 0x7FF } (fun s => (s.autoinit, s.dmaSampleCount, s.dmaEnabled)) =
      some (true, 0x7FF, true) := by decide

/-- Example of R181; the receive counter is kept. -/
theorem test_cmdDmaHsSingle :
    after .cmdDmaHsSingle { base with dmaBlockSize := 99, autoinit := true, dmaSampleCountRx := 7 }
        (fun s => (s.autoinit, s.dmaSampleCount, s.dmaEnabled, s.dmaSampleCountRx)) = some (false, 99, true, 7) := by decide

/-- Worked example of R182. -/
theorem test_cmdSetTimeConstant :
    after .cmdSetTimeConstant (param 0xD4 0)
        (fun s => (s.timeConstant, s.sampleRate, s.dmaInterval, s.sampleStep, s.sampleFactor, s.currentCommand)) =
      some (0xD4, 22727, 44, 33774, 6, 0) := by decide

/-- R182 line 1. -/
theorem test_cmdSetTimeConstant_waits :
    after .cmdSetTimeConstant { base with currentCommand := 0x40 } (fun s => (s.currentCommand, s.timeConstant)) =
      some (0x40, 0) := by decide

/-- R184 line 4: bits 15:8 cleared. -/
theorem test_cmdSetBlockSize_low :
    after .cmdSetBlockSize { param 0x00 0 with dmaBlockSize := 0x7FF }
        (fun s => (s.dmaBlockSize, s.currentCommandIndex, s.currentCommand)) = some (0, 1, 0x77) := by decide

/-- Worked example of R184. -/
theorem test_cmdSetBlockSize_high :
    after .cmdSetBlockSize (param 0x04 1) (fun s => (s.dmaBlockSize, s.currentCommand)) = some (1024, 0) := by decide

/-- R185 line 4. -/
theorem test_cmdDmaSingle_low :
    after .cmdDmaSingle { param 0xFF 0 with dmaSampleCount := 0x1234 } (fun s => (s.dmaSampleCount, s.dmaEnabled)) =
      some (0xFF, false) := by decide

/-- Worked example of R185. -/
theorem test_cmdDmaSingle_high :
    after .cmdDmaSingle { param 0x00 1 with dmaSampleCount := 0xFF, dmaSampleCountRx := 9, autoinit := true }
        (fun s => (s.dmaSampleCount, s.dmaSampleCountRx, s.autoinit, s.dmaEnabled)) = some (255, 0, false, true) := by decide

/-- Worked example of R186. -/
theorem test_cmdIdentify :
    after .cmdIdentify (param 0x00 0) (fun s => (s.outbox, s.davPc, s.davDsp)) = some (0xFF, true, false) := by decide

/-- R187: the major byte does not wait. -/
theorem test_cmdGetVersion_major :
    after .cmdGetVersion { base with davPc := true } (fun s => (s.outbox, s.currentCommandIndex, s.davPc)) =
      some (4, 1, true) := by decide

/-- R187 lines 4 to 6. -/
theorem test_cmdGetVersion_minor :
    after .cmdGetVersion { base with currentCommandIndex := 1, currentCommand := 0xE1 }
        (fun s => (s.outbox, s.currentCommand)) = some (5, 0) := by decide

/-- Example of R188. -/
theorem test_cmdWriteTest : after .cmdWriteTest (param 0x5A 0) (·.testRegister) = some 0x5A := by decide

/-- Example of R189. -/
theorem test_cmdReadTest :
    after .cmdReadTest { base with testRegister := 0x5A } (fun s => (s.outbox, s.davPc)) = some (0x5A, true) := by decide

/-- Example of R190. -/
theorem test_cmdTriggerIrq : after .cmdTriggerIrq base (·.irq) = some true := by decide

/-- Example of R191: nothing else changes. -/
theorem test_cmdSpeakerOn : exec .cmdSpeakerOn { base with currentCommand := 0xD1 } = .next base := rfl

/-- Example of R192. -/
theorem test_cmdSpeakerOff : exec .cmdSpeakerOff { base with currentCommand := 0xD3 } = .next base := rfl

/-- Example of R193. -/
theorem test_cmdUnknown :
    exec (.cmdUnknown 0x30) { base with currentCommand := 0x30 } = .next base := rfl

/-- R194. -/
theorem test_cmdIdleZero : exec .cmdIdleZero base = .next base := rfl

/-! ### The protocol step and its helpers (R171 to R176) -/

/-- Example of R190: `CMD 0xF2`. -/
theorem test_pstep_triggers_irq :
    after (.pstep .whole) { base with davDsp := true, inbox := 0xF2 }
        (fun s => (s.irq, s.davDsp, s.currentCommand, s.dspBusy)) = some (true, false, 0, false) := by decide

/-- R172 line 1. -/
theorem test_pstep_in_reset :
    after (.pstep .whole) { base with davDsp := true, inbox := 0xF2, resetState := true }
        (fun s => (s.irq, s.davDsp, s.dspBusy)) = some (false, true, false) := by decide

/-- R175. -/
theorem test_output :
    after (.output 0x12) base (fun s => (s.outbox, s.davPc)) = some (0x12, true) := by decide

/-- R176. -/
theorem test_consumeParam :
    after .consumeParam (param 0x12 1) (fun s => (s.answer, s.davDsp, s.currentCommandIndex)) =
      some (.byte 0x12, false, 2) := by decide

/-! ### The mixer (R212 to R217) -/

/-- The state of the example of R213. -/
def playing : State :=
  { base with
    pollOp := .f3Next
    n := 4
    buf := #v[0x80, 0xFF, 0x00, 0x90]
    sampleRate := 22727
    timeConstant := 0xD4
    dmaInterval := 44
    sampleStep := 33774
    sampleFactor := 6 }

/-- Example of R213. -/
theorem test_frame_resamples :
    after (.frame (.phase (.f3 []))) playing (fun s => (s.frameCount, s.sampleOffset, s.frame)) =
      some (8, 270192, [0, 0, 0, 0, 32512, 32512, 32512, 32512, 0x8000, 0x8000, 0x8000, 0x8000, 4096, 4096, 4096, 4096]) := by decide

/-- R215, R216: pacing off, one silent sample plus the secondary source. -/
theorem test_frame_mixes_with_wrap :
    after (.frame (.whole [1000, 0xFC18])) base (fun s => (s.frameCount, s.frame, s.pollOp)) =
      some (1, [1000, 0xFC18], .idle) := by decide

/-! ### The ports and power-on (R231 to R244, R290) -/

/-- Example of R231. -/
theorem test_portResetWr_assert :
    after (.portResetWr 1) { base with dmaEnabled := true, autoinit := true, pacePending := some 49 }
        (fun s => (s.dmaEnabled, s.autoinit, s.pacePending, s.resetState)) = some (false, false, none, true) := by decide

/-- Worked example of R232. -/
theorem test_portResetWr_release :
    after (.portResetWr 0) { base with resetState := true, dmaSampleCountRx := 3 }
        (fun s => (s.outbox, s.davPc, s.dmaBlockSize, s.dmaSampleCount, s.dmaSampleCountRx)) =
      some (0xAA, true, 0x7FF, 0, 0) := by decide

/-- Example of R241. -/
theorem test_portReadRd :
    after .portReadRd { base with outbox := 0xAA, davPc := true } (fun s => (s.answer, s.davPc, s.outbox)) =
      some (.byte 0xAA, false, 0xAA) := by decide

/-- Example of R242. -/
theorem test_portWriteWr_overwrites :
    after (.portWriteWr 0xD4) { base with davDsp := true, inbox := 0x40 } (fun s => (s.inbox, s.davDsp, s.diagLog)) =
      some (0xD4, true, [.protoOverwrite]) := by decide

/-- Example of R243. -/
theorem test_portWstatusRd :
    after .portWstatusRd { base with davDsp := true } (·.answer) = some (.byte 0x80) := by decide

/-- Example of R244. -/
theorem test_portRstatusRd :
    after .portRstatusRd { base with irq := true } (fun s => (s.answer, s.irq)) = some (.byte 0x00, false) := by decide

/-- R290. -/
theorem test_por :
    exec .por { playing with davPc := true, irq := true, head := 3 } = .next base := rfl

/-! ### The step -/

/-- A placed word runs as the first operation after power-on. -/
theorem test_step_runs_a_placed_word :
    (nextOf (step (State.reset.withFetchWord 8 0xF2))).map (fun s => (s.irq, s.currentCommand, s.pollOp)) =
      some (true, 0, .p3Next) := by decide

/-- R86: a Host write, then the Poll agent. -/
theorem test_step_takes_the_script :
    (nextOf (step { base with script := [.bus ⟨.write, 0xC, 1, 0x40⟩, .protocol .p1] })).map
        (fun s => (s.inbox, s.davDsp, s.script)) = some (0x40, true, [.protocol .p1]) := by decide

/-! ### Each statement with hypotheses has a state that meets them -/

theorem witness_DecodeOfEncodeIsTheOperation :
    defaultOpcodes.WellFormed ∧ defaultPorts.WellFormed ∧
      (Instr.cmdUnknown 0xFF).wellFormed defaultOpcodes = true ∧
      encode defaultOpcodes defaultPorts (.cmdUnknown 0xFF) = some (.opcode 0xFF) := by decide

theorem witness_EveryOpcodeByteNamesOneCommand :
    defaultOpcodes.WellFormed ∧ (0x30 : Byte) ≠ 0 ∧ 0x30 ∉ defaultOpcodes.values := by decide

theorem witness_CommandStreamSplitsByOpcodeAlone_two :
    defaultOpcodes.WellFormed ∧ Instr.cmdDmaSingle.wellFormed defaultOpcodes = true ∧
      encode defaultOpcodes defaultPorts .cmdDmaSingle = some (.opcode 0x14) ∧
      Instr.cmdDmaSingle ∈ [Instr.cmdSetBlockSize, .cmdDmaSingle] ∧ ([0xFF, 0x00] : List Byte).length = 2 := by decide

theorem witness_CommandStreamSplitsByOpcodeAlone_short :
    defaultOpcodes.WellFormed ∧ Instr.cmdIdentify.wellFormed defaultOpcodes = true ∧
      encode defaultOpcodes defaultPorts .cmdIdentify = some (.opcode 0xE0) ∧
      Instr.cmdIdentify ∉ [Instr.cmdSetBlockSize, .cmdDmaSingle] ∧
      Instr.cmdIdentify ∈ [Instr.cmdSetTimeConstant, .cmdWriteTest, .cmdIdentify] ∧ ([] : List Byte).length < 1 := by decide

theorem witness_CommandStreamSplitsByOpcodeAlone_none :
    defaultOpcodes.WellFormed ∧ (Instr.cmdUnknown 0xFF).wellFormed defaultOpcodes = true ∧
      encode defaultOpcodes defaultPorts (.cmdUnknown 0xFF) = some (.opcode 0xFF) ∧
      Instr.cmdUnknown 0xFF ∉ [Instr.cmdSetBlockSize, .cmdDmaSingle] ∧
      Instr.cmdUnknown 0xFF ∉ [Instr.cmdSetTimeConstant, .cmdWriteTest, .cmdIdentify] ∧ ([] : List Byte).length = 0 ∧
      ([0] : List Byte).length ≠ 0 := by decide

/-- A state with one bus access loaded. -/
def access (a : BusAccess) : State := { base with script := [.bus a] }

theorem witness_UnlistedAccessChangesNoState_width :
    (access ⟨.read, 0xA, 2, 0⟩).script = .bus ⟨.read, 0xA, 2, 0⟩ :: [] ∧ (2 : Nat) ≠ 1 := by decide

theorem witness_UnlistedAccessChangesNoState_read :
    (access ⟨.read, 0x6, 1, 0⟩).script = .bus ⟨.read, 0x6, 1, 0⟩ :: [] ∧
      (0x6 : Nat) ∉ [base.params.ports.read, base.params.ports.writeStatus, base.params.ports.readStatus] := by decide

theorem witness_UnlistedAccessChangesNoState_write :
    (access ⟨.write, 0xE, 1, 0⟩).script = .bus ⟨.write, 0xE, 1, 0⟩ :: [] ∧
      (0xE : Nat) ∉ [base.params.ports.reset, base.params.ports.write] := by decide

theorem witness_FifoPushStoresAtTheTail :
    Memory.wf (indices 0 1023).fifo ∧ ((1023 : Index).toNat + 1024 - (0 : Index).toNat) % 1024 = 1023 := by decide

theorem witness_FifoPopCopiesTheOldestBytes_all :
    (4 : Nat) ≤ 4 ∧ 4 = min (((indices 1022 2).tail.toNat + 1024 - (indices 1022 2).head.toNat) % 1024) 4 := by decide

theorem witness_FifoPopCopiesTheOldestBytes_short :
    (4 : Nat) ≤ 4 ∧ 1 = min (((indices 0 1).tail.toNat + 1024 - (indices 0 1).head.toNat) % 1024) 4 := by decide

theorem witness_FifoPopCopiesTheOldestBytes_empty :
    (0 : Nat) ≤ 4 ∧ 0 = min (((indices 0 1).tail.toNat + 1024 - (indices 0 1).head.toNat) % 1024) 0 := by decide

/-- A pop, a push and a clear of a queue of two bytes that wraps past address 1023. -/
theorem witness_FifoRefinesAQueue :
    fifoContents { indices 1023 1 with fifo := [(0, 8), (1023, 7)] } = [7, 8] ∧
      after (.fifoPopInto 1) { indices 1023 1 with fifo := [(0, 8), (1023, 7)] } (fun s => (s.answer, fifoContents s)) =
        some (.bytes [7], [8]) ∧
      after (.fifoPush 9) { indices 1023 1 with fifo := [(0, 8), (1023, 7)] } fifoContents = some [7, 8, 9] ∧
      after .fifoClear { indices 1023 1 with fifo := [(0, 8), (1023, 7)] } fifoContents = some [] := by decide

theorem witness_TheThousandTwentyFourthPushOverruns_last : base.head = base.tail ∧ (List.replicate 1024 (0 : Byte)).length = 1024 := by
  rw [List.length_replicate]
  exact ⟨rfl, rfl⟩

theorem witness_TheThousandTwentyFourthPushOverruns_full : base.head = base.tail ∧ (List.replicate 1023 (0 : Byte)).length ≤ 1024 := by
  rw [List.length_replicate]
  exact ⟨rfl, by decide⟩

theorem witness_PaceEnableStartsOnlyADisabledLoop :
    base.dmaEnabled = false ∧ { base with dmaEnabled := true }.dmaEnabled = true := by decide

/-- A state with pacing on, a pacing event pending, and the given number of bytes waiting. -/
def armed (level : Index) : State := { indices 0 level with dmaEnabled := true, pacePending := some 44 }

theorem witness_PaceEventSetsTheTrimAndRequestsAByte_half :
    (armed 512).pacePending ≠ none ∧ (armed 512).dmaEnabled = true ∧
      512 ≤ ((armed 512).tail.toNat + 1024 - (armed 512).head.toNat) % 1024 := by decide

theorem witness_PaceEventSetsTheTrimAndRequestsAByte_below :
    (armed 511).pacePending ≠ none ∧ (armed 511).dmaEnabled = true ∧
      ¬ 512 ≤ ((armed 511).tail.toNat + 1024 - (armed 511).head.toNat) % 1024 := by decide

theorem witness_PaceEventSetsTheTrimAndRequestsAByte_stale :
    { armed 0 with dmaEnabled := false }.pacePending ≠ none ∧ { armed 0 with dmaEnabled := false }.dmaEnabled = false := by decide

/-- A transfer outstanding with the counter at the given value and the target 255. -/
def counting (rx : BitVec 32) (auto : Bool) : State := { nearEnd with dmaSampleCountRx := rx, autoinit := auto }

theorem witness_DmaDonePushesCountsAndEndsBlocks_below :
    (counting 254 false).dmaReq = true ∧ (counting 254 false).dmaEnabled = true ∧
      ((counting 254 false).dmaSampleCountRx.toNat + 1) % 2 ^ 32 ≤ (counting 254 false).dmaSampleCount.toNat := ⟨rfl, rfl, by decide⟩

theorem witness_DmaDonePushesCountsAndEndsBlocks_loop :
    (counting 255 true).dmaReq = true ∧ (counting 255 true).dmaEnabled = true ∧
      (counting 255 true).autoinit = true ∧
      ¬ ((counting 255 true).dmaSampleCountRx.toNat + 1) % 2 ^ 32 ≤ (counting 255 true).dmaSampleCount.toNat := ⟨rfl, rfl, rfl, by decide⟩

theorem witness_DmaDonePushesCountsAndEndsBlocks_stop :
    (counting 255 false).dmaReq = true ∧ (counting 255 false).dmaEnabled = true ∧
      (counting 255 false).autoinit = false ∧
      ¬ ((counting 255 false).dmaSampleCountRx.toNat + 1) % 2 ^ 32 ≤ (counting 255 false).dmaSampleCount.toNat := ⟨rfl, rfl, rfl, by decide⟩

theorem witness_DmaDoneAfterDisableIsDiscarded :
    { base with dmaReq := true }.dmaReq = true ∧ { base with dmaReq := true }.dmaEnabled = false := by decide

/-- The boundary of the first clause with target 0: no byte yet. -/
theorem witness_ABlockIsOneByteLongerThanItsTarget_within :
    (armed 0).dmaEnabled = true ∧ (armed 0).pacePending ≠ none ∧ (armed 0).dmaSampleCountRx = 0 ∧
      ([] : List Byte).length ≤ (armed 0).dmaSampleCount.toNat := by decide

theorem witness_ABlockIsOneByteLongerThanItsTarget_stop :
    (armed 0).dmaEnabled = true ∧ (armed 0).pacePending ≠ none ∧ (armed 0).dmaSampleCountRx = 0 ∧
      ([7] : List Byte).length = (armed 0).dmaSampleCount.toNat + 1 ∧ (armed 0).autoinit = false := by decide

theorem witness_ABlockIsOneByteLongerThanItsTarget_loop :
    { armed 0 with autoinit := true }.dmaEnabled = true ∧ { armed 0 with autoinit := true }.pacePending ≠ none ∧
      { armed 0 with autoinit := true }.dmaSampleCountRx = 0 ∧
      ([7] : List Byte).length = { armed 0 with autoinit := true }.dmaSampleCount.toNat + 1 ∧
      { armed 0 with autoinit := true }.autoinit = true := by decide

theorem witness_ResumeAfterAStoppedBlockBreaksTheCounterBound :
    { base with dmaSampleCountRx := 1 }.dmaEnabled = false ∧ { base with dmaSampleCountRx := 1 }.dmaReq = false ∧
      { base with dmaSampleCountRx := 1 }.autoinit = false ∧
      { base with dmaSampleCountRx := 1 }.dmaSampleCountRx.toNat = base.dmaSampleCount.toNat + 1 := by decide

theorem witness_ResumeEnablesPacing : base.dmaEnabled = false ∧ (armed 0).dmaEnabled = true := by decide

theorem witness_BlockTransfersTakeTheBlockSizeAsTarget :
    (Instr.cmdDmaAuto = .cmdDmaAuto ∧ true = true) ∧ (Instr.cmdDmaHsAuto = .cmdDmaHsAuto ∧ true = true) ∧
      (Instr.cmdDmaHsSingle = .cmdDmaHsSingle ∧ false = false) := by decide

theorem witness_SetTimeConstantDerivesTheRates_low :
    (param 0x00 0).davDsp = true ∧ 1 ≤ (param 0x00 0).params.outputRate ∧ (param 0x00 0).params.outputRate < 2 ^ 20 := by decide

theorem witness_SetTimeConstantDerivesTheRates_high :
    (param 0xFF 0).davDsp = true ∧ 1 ≤ (param 0xFF 0).params.outputRate ∧ (param 0xFF 0).params.outputRate < 2 ^ 20 := by decide

theorem witness_SetBlockSizeAssemblesLowThenHigh :
    (param 0xFF 0).davDsp = true ∧ (param 0xFF 0).currentCommandIndex = 0 ∧
      (param 0xFF 1).davDsp = true ∧ (param 0xFF 1).currentCommandIndex ≠ 0 := by decide

theorem witness_DmaSingleAssemblesTheTargetAndStarts :
    (param 0xFF 0).davDsp = true ∧ (param 0xFF 0).currentCommandIndex = 0 ∧
      (param 0x00 1).davDsp = true ∧ (param 0x00 1).currentCommandIndex ≠ 0 := by decide

theorem witness_IdentifyAnswersTheComplement : (param 0x00 0).davDsp = true := by decide

theorem witness_GetVersionWaitsForTheHostBetweenItsBytes_major : base.currentCommandIndex = 0 := by decide

theorem witness_GetVersionWaitsForTheHostBetweenItsBytes_minor :
    { base with currentCommandIndex := 1 }.currentCommandIndex ≠ 0 ∧ { base with currentCommandIndex := 1 }.davPc = false := by decide

theorem witness_GetVersionWaitsForTheHostBetweenItsBytes_wait :
    { base with currentCommandIndex := 1, davPc := true }.currentCommandIndex ≠ 0 ∧
      { base with currentCommandIndex := 1, davPc := true }.davPc = true := by decide

theorem witness_TheTestRegisterIsWrittenAndRead : (param 0x5A 0).davDsp = true := by decide

/-- The waiting clauses of `SetTimeConstant…`, `SetBlockSize…`, `DmaSingle…`, `Identify…` and `TheTestRegister…`. -/
theorem witness_CommandsWaitForTheirParameter : base.davDsp = false := by decide

theorem witness_RatesStayInTheirRanges_low :
    (param 0x00 0).davDsp = true ∧ (1 : Nat) ≤ { params with outputRate := 1 }.outputRate ∧
      { params with outputRate := 1 }.outputRate < 2 ^ 20 := by decide

theorem witness_RatesStayInTheirRanges_high :
    (param 0xFF 0).davDsp = true ∧ (1 : Nat) ≤ { params with outputRate := 2 ^ 20 - 1 }.outputRate ∧
      { params with outputRate := 2 ^ 20 - 1 }.outputRate < 2 ^ 20 := by decide

/-- A state in which the byte waits to be latched as an opcode. -/
def waiting (v : Byte) : State := { base with davDsp := true, inbox := v }

theorem witness_OpcodeZeroIsConsumedWithoutEffect :
    (waiting 0).pollOp = .idle ∧ (waiting 0).dspBusy = false ∧ (waiting 0).resetState = false ∧
      (waiting 0).currentCommand = 0 ∧ (waiting 0).davDsp = true ∧ (waiting 0).inbox = 0 := by decide

theorem witness_ProtocolStepEntryAndExit_reset :
    { base with resetState := true }.pollOp = .idle ∧ { base with resetState := true }.resetState = true := by decide

theorem witness_ProtocolStepEntryAndExit_latch :
    (waiting 0x14).pollOp = .idle ∧ (waiting 0x14).resetState = false ∧ (waiting 0x14).davDsp = true ∧
      (waiting 0x14).currentCommand = 0 := by decide

theorem witness_ProtocolStepEntryAndExit_busy :
    (param 1 0).pollOp = .idle ∧ (param 1 0).resetState = false ∧ (param 1 0).currentCommand ≠ 0 := by decide

theorem witness_ProtocolStepEntryAndExit_exit : { base with pollOp := .p3Next }.pollOp = .p3Next := by decide

/-- A state in which `P2` is next with the given opcode latched. -/
def dispatching (opcode : Byte) : State := { base with pollOp := .p2Next, dspBusy := true, currentCommand := opcode }

theorem witness_DispatchSelectsByTheOpcode_row :
    (dispatching 0xE0).pollOp = .p2Next ∧ (dispatching 0xE0).params.opcodes.WellFormed ∧
      ((dispatching 0xE0).currentCommand, Instr.cmdIdentify) ∈
        [((0 : Byte), Instr.cmdIdleZero), (0xD0, .cmdDmaPause), (0xD4, .cmdDmaResume), (0x1C, .cmdDmaAuto),
          (0x90, .cmdDmaHsAuto), (0x91, .cmdDmaHsSingle), (0x40, .cmdSetTimeConstant), (0x48, .cmdSetBlockSize),
          (0x14, .cmdDmaSingle), (0xE0, .cmdIdentify), (0xE1, .cmdGetVersion), (0xE4, .cmdWriteTest),
          (0xE8, .cmdReadTest), (0xF2, .cmdTriggerIrq), (0xD1, .cmdSpeakerOn), (0xD3, .cmdSpeakerOff)] := by decide

theorem witness_DispatchSelectsByTheOpcode_unknown :
    (dispatching 0xFF).pollOp = .p2Next ∧ (dispatching 0xFF).params.opcodes.WellFormed ∧
      (dispatching 0xFF).currentCommand ∉ 0 :: (dispatching 0xFF).params.opcodes.values := by decide

theorem witness_ProtocolStepIsItsThreePhases :
    base.pollOp = .idle ∧ base.resetState = false ∧ { base with resetState := true }.resetState = true := by decide

theorem witness_OutputAndConsumeParam : (param 0xFF 0xFF).davDsp = true := by decide

theorem witness_ThreeBytesProgramTheBlockSize :
    base.params.opcodes.WellFormed ∧ base.pollOp = .idle ∧ base.resetState = false ∧ base.currentCommand = 0 ∧
      base.davDsp = false := by decide

theorem witness_IdentifyEndToEnd :
    base.params.opcodes.WellFormed ∧ base.pollOp = .idle ∧ base.resetState = false ∧ base.currentCommand = 0 ∧
      base.davDsp = false := by decide

/-- Get Version between its two bytes, with a byte written meanwhile. -/
def holding : State :=
  { base with currentCommand := 0xE1, currentCommandIndex := 1, davPc := true, davDsp := true, inbox := 0x14 }

theorem witness_GetVersionHoldsTheMachine :
    holding.params.opcodes.WellFormed ∧ holding.pollOp = .idle ∧ holding.dspBusy = false ∧
      holding.currentCommand = holding.params.opcodes.getVersion ∧ holding.currentCommandIndex = 1 ∧ holding.davPc = true := by decide

theorem witness_AssertInsideAStepDoesNotStopItsCommand :
    (waiting 0x1C).params.opcodes.WellFormed ∧ (waiting 0x1C).pollOp = .idle ∧ (waiting 0x1C).resetState = false ∧
      (waiting 0x1C).currentCommand = 0 ∧ (waiting 0x1C).davDsp = true ∧
      (waiting 0x1C).inbox = (waiting 0x1C).params.opcodes.dmaAuto := by decide

/-- A state before `F2`, armed or not, with the given level and wait limit. -/
def pulling (isArmed : Bool) (level : Index) (limit : Option Nat) : State :=
  { indices 0 level with pollOp := .f2Next, pullArmed := isArmed, params := { params with mixWaitLimit := limit } }

theorem witness_FrameSamplesTheEnableAndPulls_entry : base.pollOp = .idle := by decide

theorem witness_FrameSamplesTheEnableAndPulls_off :
    (pulling false 1 none).pollOp = .f2Next ∧ (pulling false 1 none).pullArmed = false := by decide

theorem witness_FrameSamplesTheEnableAndPulls_one :
    (pulling true 1 none).pollOp = .f2Next ∧ (pulling true 1 none).pullArmed = true ∧
      (pulling true 1 none).head ≠ (pulling true 1 none).tail := by decide

theorem witness_FrameSamplesTheEnableAndPulls_more :
    (pulling true 5 none).pollOp = .f2Next ∧ (pulling true 5 none).pullArmed = true ∧
      (pulling true 5 none).head ≠ (pulling true 5 none).tail := by decide

theorem witness_AnEmptyFifoHoldsTheFrame_unbounded :
    (pulling true 0 none).pollOp = .f2Next ∧ (pulling true 0 none).pullArmed = true ∧
      (pulling true 0 none).head = (pulling true 0 none).tail ∧ (pulling true 0 none).params.mixWaitLimit = none := by decide

theorem witness_AnEmptyFifoHoldsTheFrame_counts :
    (pulling true 0 (some 1)).pollOp = .f2Next ∧ (pulling true 0 (some 1)).pullArmed = true ∧
      (pulling true 0 (some 1)).head = (pulling true 0 (some 1)).tail ∧
      (pulling true 0 (some 1)).params.mixWaitLimit = some 1 ∧ (pulling true 0 (some 1)).waitPolls < 1 := by decide

theorem witness_AnEmptyFifoHoldsTheFrame_over :
    (pulling true 0 (some 0)).pollOp = .f2Next ∧ (pulling true 0 (some 0)).pullArmed = true ∧
      (pulling true 0 (some 0)).head = (pulling true 0 (some 0)).tail ∧
      (pulling true 0 (some 0)).params.mixWaitLimit = some 0 ∧ 0 ≤ (pulling true 0 (some 0)).waitPolls := by decide

theorem witness_FrameResamplesAndMixes :
    playing.pollOp = .f3Next ∧ 0 < playing.n.val ∧ 0 < playing.sampleFactor.toNat := by decide

theorem witness_NothingToPlayGivesOneSilentSample_none :
    { base with pollOp := .f3Next, sampleFactor := 6 }.pollOp = .f3Next ∧
      { base with pollOp := .f3Next, sampleFactor := 6 }.n.val = 0 := by decide

theorem witness_NothingToPlayGivesOneSilentSample_unset :
    { base with pollOp := .f3Next, n := 4 }.pollOp = .f3Next ∧
      { base with pollOp := .f3Next, n := 4 }.sampleFactor.toNat = 0 := by decide

theorem witness_TheLoopLimitNeverTruncatesAFrame :
    1 ≤ playing.params.outputRate ∧ playing.params.outputRate < 2 ^ 20 ∧ RatesSet playing ∧ playing.pollOp = .f3Next ∧
      0 < playing.n.val ∧ exec (.frame (.phase (.f3 []))) playing = .next (frameMix [] playing) := by
  refine ⟨by decide, by decide, ⟨?_, ?_, ?_, ?_⟩, rfl, by decide, rfl⟩ <;> decide

theorem witness_FrameIsItsThreePhases_off : base.pollOp = .idle ∧ base.dmaEnabled = false := by decide

theorem witness_FrameIsItsThreePhases_on : (armed 1).pollOp = .idle ∧ (armed 1).head ≠ (armed 1).tail := by decide

/-- Pacing on, nothing waiting, the Poll agent idle, and the given wait limit. -/
def starved (limit : Option Nat) : State := { armed 0 with params := { params with mixWaitLimit := limit } }

theorem witness_FrameIsItsThreePhases_limit_zero :
    (starved (some 0)).pollOp = .idle ∧ (starved (some 0)).dmaEnabled = true ∧ (starved (some 0)).head = (starved (some 0)).tail ∧
      (starved (some 0)).params.mixWaitLimit = some 0 := by decide

theorem witness_FrameIsItsThreePhases_limit_three :
    (starved (some 3)).pollOp = .idle ∧ (starved (some 3)).dmaEnabled = true ∧ (starved (some 3)).head = (starved (some 3)).tail ∧
      (starved (some 3)).params.mixWaitLimit = some 3 := by decide

theorem witness_FrameIsItsThreePhases_unbounded :
    (starved none).pollOp = .idle ∧ (starved none).dmaEnabled = true ∧ (starved none).head = (starved none).tail ∧
      (starved none).params.mixWaitLimit = none := by decide

theorem witness_ResetPortAssertsAndReleases :
    { base with resetState := true }.resetState = true ∧ base.resetState = false := by decide

theorem witness_ResetPortIgnoresOtherValues :
    (2 : Byte) ≠ 0 ∧ (2 : Byte) ≠ 1 ∧ (0xFF : Byte) ≠ 0 ∧ (0xFF : Byte) ≠ 1 := by decide

/-- A state in which a block plays: bytes in the FIFO, pacing armed, a time constant set, a script loaded. -/
def running : State :=
  { playing with
    pollOp := .idle
    fifo := [(5, 0x10), (6, 0x20)]
    head := 5
    tail := 7
    dmaEnabled := true
    dmaIntervalTrim := 0xFFFB
    pacePending := some 39
    script := [.protocol .p1] }

/-- A state other than the reset state that meets the invariant. -/
theorem running_inv : Inv running where
  parameters := by decide
  storage := by decide
  window := fun k hk => by
    have h : k < 2 := hk
    rcases Nat.lt_succ_iff_lt_or_eq.1 h with h | h
    · obtain rfl : k = 0 := by omega
      exact ⟨0x10, rfl⟩
    · subst h
      exact ⟨0x20, rfl⟩
  trim := .inl (by decide)
  rates := .inr (by
    refine ⟨?_, ?_, ?_, ?_⟩ <;> decide)
  pendingEnabled := fun _ => rfl
  pendingRange := fun d hd => by
    obtain rfl : 39 = d := Option.some.inj hd
    decide
  busy := by decide
  command := .inr (.inl rfl)
  index := by decide
  frameSize := by decide
  polls := fun _ h => nomatch h

theorem witness_EveryStepKeepsTheInvariant :
    Inv running ∧ step running = .next (protocolEntry { running with script := [] }) := ⟨running_inv, rfl⟩

theorem witness_StepRunsTheDecodedOperation_script :
    decodeStimulus running.params.ports (.protocol .p1) = .ok (.pstep (.phase .p1)) ∧
      running.script = .protocol .p1 :: [] := by decide

theorem witness_StepRunsTheDecodedOperation_draw : base.script = [] := by decide

theorem witness_StepRunsTheDecodedOperation_word : base.params.opcodes = defaultOpcodes := by decide

theorem witness_OperationsNotEnabledDoNotHappen_pace : base.pacePending = none := by decide

theorem witness_OperationsNotEnabledDoNotHappen_dma : base.dmaReq = false := by decide

theorem witness_OperationsNotEnabledDoNotHappen_param : base.davDsp = false := by decide

theorem witness_OperationsNotEnabledDoNotHappen_idle :
    Instr.pstep .whole ∈ [Instr.pstep .whole, .pstep (.phase .p1), .frame (.whole []), .frame (.phase .f1)] ∧
      (dispatching 0).pollOp ≠ .idle := by decide

theorem witness_OperationsNotEnabledDoNotHappen_phases :
    base.pollOp ≠ .p2Next ∧ base.pollOp ≠ .p3Next ∧ base.pollOp ≠ .f2Next ∧ base.pollOp ≠ .f3Next := by decide

theorem witness_FifoIndicesHaveOneWriterEach :
    running.script = .protocol .p1 :: [] ∧ Stimulus.protocol .p1 ≠ .powerOn ∧
      step running = .next (protocolEntry { running with script := [] }) ∧ Stimulus.protocol .p1 ≠ .mixer .f2 ∧
      Stimulus.protocol .p1 ≠ .protocol .p2 := ⟨rfl, by decide, rfl, by decide, by decide⟩

/-- The end of a block, a Trigger IRQ and an acknowledge, each loaded as the next step. -/
def ending : State := { counting 255 false with script := [.dmaCompletes 1] }

theorem witness_InterruptLineSources_block :
    ending.script = .dmaCompletes 1 :: [] ∧ Stimulus.dmaCompletes 1 ≠ .powerOn ∧ ending.dmaReq = true ∧
      ending.dmaEnabled = true ∧ ending.dmaSampleCount.toNat < (ending.dmaSampleCountRx.toNat + 1) % 2 ^ 32 ∧
      step ending = .next (dmaDone 1 { ending with script := [] }) := ⟨rfl, by decide, rfl, rfl, by decide, rfl⟩

theorem witness_InterruptLineSources_command :
    { dispatching 0xF2 with script := [.protocol .p2] }.pollOp = .p2Next ∧
      decodeCommand defaultOpcodes (dispatching 0xF2).currentCommand = .cmdTriggerIrq := by decide

theorem witness_InterruptLineSources_acknowledge :
    decodePort (access ⟨.read, 0xE, 1, 0⟩).params.ports ⟨.read, 0xE, 1, 0⟩ = .ok .portRstatusRd := by decide

theorem witness_UnreadFieldsInfluenceNothing :
    withoutUnread base = withoutUnread { base with diagLog := [.overrun], sampleRate := 1 } ∧
      exec .cmdDmaPause base = .next (cmdDmaPause base) ∧
      exec .cmdDmaPause { base with diagLog := [.overrun], sampleRate := 1 } =
        .next (cmdDmaPause { base with diagLog := [.overrun], sampleRate := 1 }) := ⟨rfl, rfl, rfl⟩

/-- The permanent stall with an access loaded. -/
def stalled : State := { pulling true 0 none with script := [.bus ⟨.read, 0xA, 1, 0⟩] }

theorem witness_OnlyPowerOnEndsThePermanentStall :
    stalled.script = .bus ⟨.read, 0xA, 1, 0⟩ :: [] ∧ Stimulus.bus ⟨.read, 0xA, 1, 0⟩ ≠ .powerOn ∧ Stalled stalled ∧
      (nextOf (step stalled)).isSome = true := ⟨rfl, by decide, ⟨rfl, rfl, rfl, rfl, rfl⟩, by decide⟩

/-- Reset asserted, with an opcode byte written and a protocol step loaded. -/
def inReset : State := { waiting 0x1C with resetState := true, script := [.protocol .p1] }

theorem witness_ResetKeepsTheProtocolAndPacingOff :
    inReset.script = .protocol .p1 :: [] ∧ Stimulus.protocol .p1 ≠ .powerOn ∧
      (∀ a, Stimulus.protocol .p1 = .bus a → decodePort inReset.params.ports a ≠ .ok (.portResetWr 0)) ∧
      inReset.resetState = true ∧ inReset.dmaEnabled = false ∧ inReset.pollOp ≠ .p2Next ∧ inReset.pollOp ≠ .p3Next ∧
      (nextOf (step inReset)).isSome = true := ⟨rfl, by decide, (fun _ h => nomatch h), rfl, rfl, by decide, by decide, by decide⟩

end Sys2Proof.Tests
end

section
/-! The FIFO's writers (R87): which atomic step can move `head`, `tail` or the storage. The agents are taken one by
one, and the single-writer discipline is read off them. -/

namespace Sys2Proof.Machine

/-! ### The Host agent -/

@[simp] theorem afterResetWrite_fifo (v : Byte) (s : State) : (afterResetWrite v s).fifo = s.fifo := by
  unfold afterResetWrite; split_ifs <;> simp
@[simp] theorem afterResetWrite_head (v : Byte) (s : State) : (afterResetWrite v s).head = s.head := by
  unfold afterResetWrite; split_ifs <;> simp
@[simp] theorem afterResetWrite_tail (v : Byte) (s : State) : (afterResetWrite v s).tail = s.tail := by
  unfold afterResetWrite; split_ifs <;> simp

@[simp] theorem unlistedAccess_fifo (dir : Direction) (s : State) : (unlistedAccess dir s).fifo = s.fifo := by
  cases dir <;> rfl
@[simp] theorem unlistedAccess_head (dir : Direction) (s : State) : (unlistedAccess dir s).head = s.head := by
  cases dir <;> rfl
@[simp] theorem unlistedAccess_tail (dir : Direction) (s : State) : (unlistedAccess dir s).tail = s.tail := by
  cases dir <;> rfl

/-- No bus access touches the FIFO, whether the port table lists it or not. -/
theorem runStimulus_bus_keeps_fifo (a : BusAccess) (s t : State) (h : runStimulus (.bus a) s = .next t) :
    t.fifo = s.fifo ∧ t.head = s.head ∧ t.tail = s.tail := by
  obtain ⟨⟨⟩, -⟩ | ⟨_, ⟨⟩, -⟩ | ⟨_, ⟨⟩, -⟩ | ⟨⟨⟩, -⟩ | ⟨_, ⟨⟩, -⟩ | ⟨_, ⟨⟩, haccess⟩ := runStimulus_cases _ s t h
  obtain ⟨-, rfl⟩ | ⟨-, rfl⟩ | ⟨-, rfl⟩ | ⟨-, rfl⟩ | ⟨-, rfl⟩ | ⟨-, rfl⟩ := haccess
  · exact ⟨rfl, rfl, rfl⟩
  · exact ⟨rfl, rfl, rfl⟩
  · exact ⟨rfl, rfl, rfl⟩
  · simp
  · cases s.davDsp <;> simp
  · simp

/-! ### The Poll agent -/

@[simp] theorem protocolDispatch_fifo (s : State) : (protocolDispatch s).fifo = s.fifo := by simp [protocolDispatch]
@[simp] theorem protocolDispatch_tail (s : State) : (protocolDispatch s).tail = s.tail := by simp [protocolDispatch]

@[simp] theorem protocolPhase_fifo (ph : PstepPhase) (s : State) : (protocolPhase ph s).fifo = s.fifo := by
  cases ph <;> simp only [protocolPhase] <;> split <;> simp
@[simp] theorem protocolPhase_tail (ph : PstepPhase) (s : State) : (protocolPhase ph s).tail = s.tail := by
  cases ph <;> simp only [protocolPhase] <;> split <;> simp

/-- Of the three phases of a protocol step only `P2`, where the commands run, can clear the FIFO. -/
theorem protocolPhase_head (ph : PstepPhase) (hph : ph ≠ .p2) (s : State) : (protocolPhase ph s).head = s.head := by
  cases ph with
  | p1 => simp only [protocolPhase]; split <;> simp
  | p2 => exact absurd rfl hph
  | p3 => simp only [protocolPhase]; split <;> simp

@[simp] theorem framePhase_fifo (ph : FramePhase) (s : State) : (framePhase ph s).fifo = s.fifo := by
  cases ph <;> simp only [framePhase] <;> split_ifs <;> simp

@[simp] theorem framePhase_tail (ph : FramePhase) (s : State) : (framePhase ph s).tail = s.tail := by
  cases ph <;> simp only [framePhase] <;> split_ifs <;> simp

/-- Of the three phases of a frame only `F2`, the pull, consumes bytes. -/
theorem framePhase_head (ph : FramePhase) (hph : ph ≠ .f2) (s : State) : (framePhase ph s).head = s.head := by
  cases ph with
  | f1 => simp only [framePhase]; split <;> simp
  | f2 => exact absurd rfl hph
  | f3 sec => simp only [framePhase]; split <;> simp

/-! ### Every agent -/

/-- R87 for one stimulus: only a completed transfer moves `tail` or the storage, only `F2` and `P2` move `head`. -/
theorem runStimulus_fifo_writers (st : Stimulus) (s t : State) (hst : st ≠ .powerOn)
    (h : runStimulus st s = .next t) :
    ((∀ b, st ≠ .dmaCompletes b) → t.tail = s.tail ∧ t.fifo = s.fifo) ∧
    (st ≠ .mixer .f2 → st ≠ .protocol .p2 → t.head = s.head) := by
  cases st with
  | powerOn => exact absurd rfl hst
  | bus a =>
    obtain ⟨hfifo, hhead, htail⟩ := runStimulus_bus_keeps_fifo a s t h
    exact ⟨fun _ => ⟨htail, hfifo⟩, fun _ _ => hhead⟩
  | protocol ph =>
    cases h
    exact ⟨fun _ => ⟨protocolPhase_tail ph s, protocolPhase_fifo ph s⟩,
      fun _ hp2 => protocolPhase_head ph (fun hph => hp2 (congrArg _ hph)) s⟩
  | mixer ph =>
    cases h
    exact ⟨fun _ => ⟨framePhase_tail ph s, framePhase_fifo ph s⟩,
      fun hf2 _ => framePhase_head ph (fun hph => hf2 (congrArg _ hph)) s⟩
  | paceFires =>
    cases h
    split <;> simp
  | dmaCompletes b =>
    cases h
    refine ⟨fun hdma => absurd rfl (hdma b), fun _ _ => ?_⟩
    split <;> simp

/-- Settles O56: a loaded step runs its stimulus on a state with the same FIFO, so the rule for one stimulus
(`runStimulus_fifo_writers`) applies. -/
theorem fifoIndicesHaveOneWriterEach : Obligations.FifoIndicesHaveOneWriterEach := by
  intro s t st rest hscript hst hstep
  rw [step_of_script s st rest hscript] at hstep
  exact runStimulus_fifo_writers st { s with script := rest } t hst hstep

end Sys2Proof.Machine
end

section
/-! `FIFO_PUSH` (R133): the whole state it answers. -/

namespace Sys2Proof.Machine

/-- Everything a push changes: the storage, `tail` and, at level 1023, the diagnostics. -/
theorem fifoPush_eq (b : Byte) (s : State) :
    fifoPush b s = { s with
      fifo := Memory.write s.fifo s.tail.toNat b
      tail := s.tail + 1
      diagLog := if fifoLevel s = 1023 then s.diagLog ++ [.overrun] else s.diagLog } := by
  by_cases hfull : fifoLevel s = 1023
  · rw [fifoPush, if_pos ((fifoFull_iff s).2 hfull), if_pos hfull]
    rfl
  · rw [fifoPush, if_neg (mt (fifoFull_iff s).1 hfull), if_neg hfull]
    rfl

/-- Settles O7: the frame is `fifoPush_eq` with the level in plain arithmetic, the storage clauses are the read and the
canonical form after a push. -/
theorem fifoPushStoresAtTheTail : Obligations.FifoPushStoresAtTheTail := by
  intro s b hwf
  refine ⟨fifoPush b s, rfl, ?frame, ?stored, fun a ha => ?others, fifoPush_wf s hwf b⟩
  case frame => rw [fifoPush_fifo, ← fifoLevel_eq, ← fifoPush_eq]
  case stored => rw [fifoRead_fifoPush, if_pos rfl]
  case others => rw [fifoRead_fifoPush, if_neg ha]

end Sys2Proof.Machine
end

section
/-! The pacing loop (R151, R152, R155): the whole state that enabling, disabling and a completed transfer answer. -/

namespace Sys2Proof.Machine

/-! ### Enable and disable -/

/-- An enabled loop is left alone: the FIFO is not cleared and the pending event is not re-armed. -/
theorem paceEnable_of_enabled (s : State) (h : s.dmaEnabled = true) : paceEnable s = s := if_pos h

theorem paceEnable_of_disabled (s : State) (h : s.dmaEnabled = false) :
    paceEnable s =
      { s with head := s.tail, dmaEnabled := true, pacePending := some (s.dmaInterval.toNat : Int) } :=
  if_neg (Bool.eq_false_iff.1 h)

theorem paceDisable_eq (s : State) : paceDisable s = { s with pacePending := none, dmaEnabled := false } := rfl

/-! ### A completed transfer -/

theorem rearm_eq (s : State) :
    rearm s = { s with pacePending := some (s.dmaInterval.toNat + s.dmaIntervalTrim.toInt) } := rfl

theorem endBlock_of_autoinit (s : State) (h : s.autoinit = true) :
    endBlock s = assertIrq (rearm { s with dmaSampleCountRx := 0 }) := congrArg assertIrq (if_pos h)

theorem endBlock_of_single (s : State) (h : s.autoinit = false) : endBlock s = assertIrq (paceDisable s) :=
  congrArg assertIrq (if_neg (Bool.eq_false_iff.1 h))

/-- After the push the counter moves modulo 2^32, and its new value decides between re-arming and the end of the
block. -/
theorem acceptByte_eq (b : Byte) (s : State) :
    acceptByte b s =
      if (s.dmaSampleCountRx.toNat + 1) % 2 ^ 32 ≤ s.dmaSampleCount.toNat then
        rearm { fifoPush b s with dmaSampleCountRx := s.dmaSampleCountRx + 1 }
      else endBlock { fifoPush b s with dmaSampleCountRx := s.dmaSampleCountRx + 1 } := by
  have hcount : (s.dmaSampleCountRx + 1).toNat = (s.dmaSampleCountRx.toNat + 1) % 2 ^ 32 := BitVec.toNat_add ..
  simp only [acceptByte, fifoPush_dmaSampleCountRx, fifoPush_dmaSampleCount, hcount]

theorem dmaDone_of_enabled (b : Byte) (s : State) (h : s.dmaEnabled = true) :
    dmaDone b s = acceptByte b { s with dmaReq := false } := if_pos h

/-- `DMA_DONE` happens when a transfer is outstanding. -/
theorem exec_dmaDone_of_req (b : Byte) (s : State) (h : s.dmaReq = true) :
    exec (.dmaDone b) s = .next (dmaDone b s) := congrArg Host.Outcome.next (if_pos h)

/-! ### The statements -/

/-- Settles O15: the byte is accepted (`acceptByte_eq`); then the counter, and past the target `autoinit`, choose
between the three ends of the operation. -/
theorem dmaDonePushesCountsAndEndsBlocks : Obligations.DmaDonePushesCountsAndEndsBlocks := by
  intro s b hreq hen
  refine ⟨fifoPush b { s with dmaReq := false }, dmaDone b s, rfl, exec_dmaDone_of_req b s hreq, ?_⟩
  rw [dmaDone_of_enabled b s hen, acceptByte_eq]
  by_cases htarget : (s.dmaSampleCountRx.toNat + 1) % 2 ^ 32 ≤ s.dmaSampleCount.toNat
  case pos =>
    rw [if_pos htarget, if_pos htarget, rearm_eq]
    simp only [fifoPush_dmaInterval, fifoPush_dmaIntervalTrim]
  case neg =>
    rw [if_neg htarget, if_neg htarget]
    cases s.autoinit with
    | true =>
      rw [endBlock_of_autoinit _ (fifoPush_autoinit b _), rearm_eq, if_pos rfl]
      simp only [assertIrq, fifoPush_dmaInterval, fifoPush_dmaIntervalTrim]
    | false =>
      rw [endBlock_of_single _ (fifoPush_autoinit b _), paceDisable_eq, if_neg Bool.false_ne_true]
      rfl

/-- Settles O12: the two cases of R151, each an equation of `paceEnable`. -/
theorem paceEnableStartsOnlyADisabledLoop : Obligations.PaceEnableStartsOnlyADisabledLoop := by
  intro s
  exact ⟨fun hoff => congrArg Host.Outcome.next (paceEnable_of_disabled s hoff),
    fun hon => congrArg Host.Outcome.next (paceEnable_of_enabled s hon)⟩

/-- Settles O13: disabling tests nothing, so its equation `paceDisable_eq` is the statement. -/
theorem paceDisableCancelsAndDisables : Obligations.PaceDisableCancelsAndDisables :=
  fun s => congrArg Host.Outcome.next (paceDisable_eq s)

end Sys2Proof.Machine
end

section
/-! The opcode of a command selects its operation (R173): what `P2` does is what the operation named by
`current_command` does, and under a well-formed map each row of the table is decoded by its opcode. -/

namespace Sys2Proof

/-- A row of the opcode table names the operation its opcode decodes to. -/
theorem decodeCommand_of_row (m : OpcodeMap) (hm : m.WellFormed) (b : Byte) (i : Instr)
    (h : (b, i) ∈ (opcodeRows m).map fun row => (row.1, row.2.toInstr row.1)) : decodeCommand m b = i := by
  obtain ⟨⟨opcode, c⟩, hrow, ⟨⟩⟩ := List.mem_map.1 h
  exact congrArg (Command.toInstr · opcode) (classify_of_mem m hm opcode c hrow)

theorem decodeCommand_of_not_mem (m : OpcodeMap) (b : Byte) (h : b ∉ 0 :: m.values) :
    decodeCommand m b = .cmdUnknown b :=
  congrArg (Command.toInstr · b) (classify_of_not_mem m b h)

end Sys2Proof

namespace Sys2Proof.Machine

/-- The operation of a command and the rule `P2` runs for it are one function. -/
theorem exec_toInstr (c : Command) (b : Byte) (s : State) : exec (c.toInstr b) s = .next (runCommand c b s) := by
  cases c <;> rfl

/-- Where `P2` is next, it leaves what the operation decoded from `current_command` leaves, with `P3` next. -/
theorem exec_p2_of_p2Next (s : State) (h : s.pollOp = .p2Next) :
    ∃ t, exec (decodeCommand s.params.opcodes s.currentCommand) s = .next t ∧
      exec (.pstep (.phase .p2)) s = .next { t with pollOp := .p3Next } :=
  ⟨_, exec_toInstr _ _ s, congrArg Host.Outcome.next (if_pos h)⟩

/-- Settles O33: whichever row it is, the operation `i` is the one `current_command` decodes to, and `P2` runs that
one (`exec_p2_of_p2Next`). -/
theorem dispatchSelectsByTheOpcode : Obligations.DispatchSelectsByTheOpcode := by
  intro s i hnext hmap hi
  have hdecode : decodeCommand s.params.opcodes s.currentCommand = i := by
    rcases hi with hrow | ⟨hunknown, rfl⟩
    · exact decodeCommand_of_row _ hmap _ i hrow
    · exact decodeCommand_of_not_mem _ _ hunknown
  exact hdecode ▸ exec_p2_of_p2Next s hnext

end Sys2Proof.Machine
end

section
/-! The commands that take one parameter byte (R182, R186, R188) or answer one (R187, R189): each waits, or answers a
whole state. -/

namespace Sys2Proof.Machine

/-! ### Waiting for a parameter and consuming it -/

/-- With no byte pending a command waits in its state. -/
theorem withParam_of_none (s : State) (body : Byte → State → State) (h : s.davDsp = false) :
    withParam s body = s := if_neg (Bool.eq_false_iff.1 h)

/-- A pending byte is consumed, then the command works on the state without it. -/
theorem withParam_of_pending (s : State) (body : Byte → State → State) (h : s.davDsp = true) :
    withParam s body = body s.inbox (takeParam s) := if_pos h

/-! ### Set Time Constant: no derived rate is cut by the width of its register -/

theorem setTimeConstant_sampleRate_toNat (v : Byte) (s : State) :
    (setTimeConstant v s).sampleRate.toNat = rateOf v := by
  have hle := rateOf_le v
  rw [setTimeConstant_sampleRate, BitVec.toNat_ofNat, Nat.mod_eq_of_lt (by omega)]

theorem setTimeConstant_dmaInterval_toNat (v : Byte) (s : State) :
    (setTimeConstant v s).dmaInterval.toNat = intervalOf (rateOf v) := by
  have hinterval := intervalOf_rateOf v
  rw [setTimeConstant_dmaInterval, BitVec.toNat_ofNat, Nat.mod_eq_of_lt (by omega)]

theorem setTimeConstant_sampleStep_toNat (v : Byte) (s : State) :
    (setTimeConstant v s).sampleStep.toNat = stepOf (rateOf v) s.params.outputRate := by
  have hrate := rateOf_le v
  have hstep := stepOf_le (rateOf v) s.params.outputRate
  rw [setTimeConstant_sampleStep, BitVec.toNat_ofNat, Nat.mod_eq_of_lt (by omega)]

/-- The factor is the one rate that needs R9's bound on the output rate. -/
theorem setTimeConstant_sampleFactor_toNat (v : Byte) (s : State) (h : s.params.outputRate < 2 ^ 20) :
    (setTimeConstant v s).sampleFactor.toNat = factorOf (rateOf v) s.params.outputRate := by
  have hfactor := factorOf_le (rateOf v) s.params.outputRate (le_rateOf v) h
  rw [setTimeConstant_sampleFactor, BitVec.toNat_ofNat, Nat.mod_eq_of_lt (by omega)]

/-- Settles O22: the command waits or consumes its byte (`withParam`), and each register holds its quotient exactly. -/
theorem setTimeConstantDerivesTheRates : Obligations.SetTimeConstantDerivesTheRates := by
  intro s
  refine ⟨fun hnone => congrArg Host.Outcome.next (withParam_of_none s _ hnone), fun hpending _ hbound => ?_⟩
  refine ⟨_, congrArg Host.Outcome.next (withParam_of_pending s _ hpending), rfl, ?rate, ?interval, ?step, ?factor⟩
  case rate => exact setTimeConstant_sampleRate_toNat s.inbox (takeParam s)
  all_goals simp only [finishCommand_sampleRate, setTimeConstant_sampleRate_toNat]
  case interval => exact setTimeConstant_dmaInterval_toNat s.inbox (takeParam s)
  case step => exact setTimeConstant_sampleStep_toNat s.inbox (takeParam s)
  case factor => exact setTimeConstant_sampleFactor_toNat s.inbox (takeParam s) hbound

/-! ### Responses and the test register -/

/-- Settles O26: the command waits or consumes its byte, and the complement of a byte is taken from 255. -/
theorem identifyAnswersTheComplement : Obligations.IdentifyAnswersTheComplement := by
  intro s
  refine ⟨fun hnone => congrArg Host.Outcome.next (withParam_of_none s _ hnone), fun hpending => ?_⟩
  exact ⟨_, congrArg Host.Outcome.next (withParam_of_pending s _ hpending), rfl, BitVec.toNat_not⟩

theorem cmdGetVersion_of_first (s : State) (h : s.currentCommandIndex = 0) :
    cmdGetVersion s = { s with outbox := s.params.versionMajor, davPc := true, currentCommandIndex := 1 } := if_pos h

/-- After the major byte the command looks at `dav_pc` alone. -/
theorem cmdGetVersion_of_later (s : State) (h : s.currentCommandIndex ≠ 0) :
    cmdGetVersion s =
      if s.davPc then s
      else { s with outbox := s.params.versionMinor, davPc := true, currentCommand := 0 } := if_neg h

/-- Settles O27: the index tells the first byte from the second, and `dav_pc` whether the second may be answered. -/
theorem getVersionWaitsForTheHostBetweenItsBytes : Obligations.GetVersionWaitsForTheHostBetweenItsBytes := by
  intro s
  refine ⟨fun hfirst => congrArg Host.Outcome.next (cmdGetVersion_of_first s hfirst),
    fun hlater hread => congrArg Host.Outcome.next ?minor, fun hlater hunread => congrArg Host.Outcome.next ?wait⟩
  case minor => rw [cmdGetVersion_of_later s hlater, if_neg (Bool.eq_false_iff.1 hread)]
  case wait => rw [cmdGetVersion_of_later s hlater, if_pos hunread]

/-- Settles O28: the write waits or consumes its byte; the read tests nothing. -/
theorem theTestRegisterIsWrittenAndRead : Obligations.TheTestRegisterIsWrittenAndRead := by
  intro s
  exact ⟨fun hnone => congrArg Host.Outcome.next (withParam_of_none s _ hnone),
    fun hpending => congrArg Host.Outcome.next (withParam_of_pending s _ hpending), rfl⟩

end Sys2Proof.Machine
end

section
/-! The commands that end in the step that runs them: those on the pacing loop (R177 to R181), Trigger IRQ (R190), and
those without effect (R191 to R193). -/

namespace Sys2Proof.Machine

/-! ### Pacing -/

/-- Settles O19: Pause is `PACE_DISABLE` (`paceDisable_eq`) and the end of the command. -/
theorem pauseDisablesPacing : Obligations.PauseDisablesPacing :=
  fun s => congrArg (fun t => Host.Outcome.next (finishCommand t)) (paceDisable_eq s)

/-- Settles O20: Resume is `PACE_ENABLE` and the end of the command, in the two cases of R151. -/
theorem resumeEnablesPacing : Obligations.ResumeEnablesPacing := by
  intro s
  exact ⟨fun hoff => congrArg (fun t => Host.Outcome.next (finishCommand t)) (paceEnable_of_disabled s hoff),
    fun hon => congrArg (fun t => Host.Outcome.next (finishCommand t)) (paceEnable_of_enabled s hon)⟩

/-- `PACE_ENABLE` as one update: pacing is on afterwards, and only a loop that was off is started anew. -/
theorem paceEnable_eq (s : State) :
    paceEnable s = { s with
      head := if s.dmaEnabled then s.head else s.tail
      dmaEnabled := true
      pacePending := if s.dmaEnabled then s.pacePending else some (s.dmaInterval.toNat : Int) } := by
  cases hen : s.dmaEnabled with
  | false => exact paceEnable_of_disabled s hen
  | true =>
    rw [paceEnable_of_enabled s hen]
    cases s
    cases hen
    rfl

/-- The start of a block transfer in either mode; the receive counter is not among what it writes. -/
theorem startBlockTransfer_eq (auto : Bool) (s : State) :
    startBlockTransfer auto s = { s with
      autoinit := auto
      dmaSampleCount := s.dmaBlockSize
      head := if s.dmaEnabled then s.head else s.tail
      dmaEnabled := true
      pacePending := if s.dmaEnabled then s.pacePending else some (s.dmaInterval.toNat : Int)
      currentCommand := 0 } :=
  congrArg finishCommand (paceEnable_eq { s with autoinit := auto, dmaSampleCount := s.dmaBlockSize })

/-- Settles O21: the three commands start a block transfer and differ only in its mode. -/
theorem blockTransfersTakeTheBlockSizeAsTarget : Obligations.BlockTransfersTakeTheBlockSizeAsTarget := by
  intro s i auto hi
  have hstart : exec i s = .next (startBlockTransfer auto s) := by
    obtain ⟨rfl, rfl⟩ | ⟨rfl, rfl⟩ | ⟨rfl, rfl⟩ := hi
    · rfl
    · rfl
    · rfl
  rw [hstart, startBlockTransfer_eq]

/-! ### Interrupt, speaker, unknown -/

/-- Settles O29: the command is `AssertIrq` and its own end, and neither tests anything. -/
theorem triggerIrqRaisesTheLine : Obligations.TriggerIrqRaisesTheLine :=
  fun s => ⟨finishCommand (assertIrq s), rfl, rfl⟩

/-- Settles O30: the three commands are `finishCommand` alone. -/
theorem speakerAndUnknownOnlyReturnToIdle : Obligations.SpeakerAndUnknownOnlyReturnToIdle :=
  fun _ _ => ⟨rfl, rfl, rfl⟩

end Sys2Proof.Machine
end

section
/-! Entry and exit of a protocol step (R172, R174): the whole state `P1` and `P3` leave. -/

namespace Sys2Proof.Machine

/-! ### `P1` and `P3` -/

theorem protocolEntry_of_reset (s : State) (h : s.resetState = true) :
    protocolEntry s = { s with pollOp := .idle } := if_pos h

/-- The test of the latch in plain terms: a byte is pending and no command is in progress. -/
theorem protocolEntry_of_running (s : State) (h : s.resetState = false) :
    protocolEntry s =
      if s.davDsp = true ∧ s.currentCommand = 0 then
        { s with
          dspBusy := true
          currentCommand := s.inbox
          currentCommandIndex := 0
          davDsp := false
          pollOp := .p2Next }
      else { s with dspBusy := true, pollOp := .p2Next } := by
  rw [protocolEntry, if_neg (Bool.eq_false_iff.1 h)]
  simp only [Bool.and_eq_true, beq_iff_eq]
  split <;> rfl

theorem exec_p1_of_idle (s : State) (h : s.pollOp = .idle) :
    exec (.pstep (.phase .p1)) s = .next (protocolEntry s) := congrArg Host.Outcome.next (if_pos h)

theorem exec_p3_of_p3Next (s : State) (h : s.pollOp = .p3Next) :
    exec (.pstep (.phase .p3)) s = .next (protocolExit s) := congrArg Host.Outcome.next (if_pos h)

/-- Settles O32: `P1` ends in reset, latches or holds by the test of `protocolEntry_of_running`; `P3` only clears. -/
theorem protocolStepEntryAndExit : Obligations.ProtocolStepEntryAndExit := by
  intro s
  refine ⟨fun hidle hreset => ?reset, fun hidle hrun hpending hfree => ?latch, fun hidle hrun hhold => ?hold,
    fun hexit => exec_p3_of_p3Next s hexit⟩
  case reset => rw [exec_p1_of_idle s hidle, protocolEntry_of_reset s hreset, ← hidle]
  case latch => rw [exec_p1_of_idle s hidle, protocolEntry_of_running s hrun, if_pos ⟨hpending, hfree⟩]
  case hold =>
    have hno : ¬ (s.davDsp = true ∧ s.currentCommand = 0) := by
      rintro ⟨hpending, hfree⟩
      exact hhold.elim (Bool.eq_false_iff.1 · hpending) (· hfree)
    rw [exec_p1_of_idle s hidle, protocolEntry_of_running s hrun, if_neg hno]

end Sys2Proof.Machine
end

section
/-! The Reset port (R231 to R233): the whole state an Assert, a Release and a release while running leave. -/

namespace Sys2Proof.Machine

theorem exec_portResetWr (v : Byte) (s : State) : exec (.portResetWr v) s = .next (afterResetWrite v s) := rfl

/-! ### Assert and Release as one update -/

/-- Assert disables pacing (`paceDisable_eq`) between its two flags. -/
theorem resetAssert_eq (s : State) :
    resetAssert s = { s with autoinit := false, pacePending := none, dmaEnabled := false, resetState := true } :=
  congrArg (fun t : State => { t with resetState := true }) (paceDisable_eq { s with autoinit := false })

/-- Release with the ready byte and the default block size as numbers. -/
theorem resetRelease_eq (s : State) :
    resetRelease s = { s with
      resetState := false
      outbox := 0xAA
      davPc := true
      currentCommand := 0
      currentCommandIndex := 0
      dmaBlockSize := 0x7FF
      dmaSampleCount := 0
      dmaSampleCountRx := 0 } := rfl

/-! ### The value written -/

/-- Writing 1 asserts, in reset as well. -/
theorem afterResetWrite_one (s : State) : afterResetWrite 1 s = resetAssert s := if_pos rfl

/-- Writing 0 looks at `reset_state` alone. -/
theorem afterResetWrite_zero (s : State) :
    afterResetWrite 0 s = if s.resetState then resetRelease s else s := by
  have hne : (0 : Byte) ≠ 1 := by decide
  rw [afterResetWrite, if_neg hne, decide_eq_true rfl, Bool.true_and]

/-- Settles O46: the value written selects Assert, or Release where `reset_state` is set. -/
theorem resetPortAssertsAndReleases : Obligations.ResetPortAssertsAndReleases := by
  intro s
  refine ⟨?assert, fun hreset => ?release, fun hrunning => ?running⟩
  case assert => rw [exec_portResetWr, afterResetWrite_one, resetAssert_eq]
  case release => rw [exec_portResetWr, afterResetWrite_zero, if_pos hreset, resetRelease_eq]
  case running => rw [exec_portResetWr, afterResetWrite_zero, if_neg (Bool.eq_false_iff.1 hrunning)]

end Sys2Proof.Machine
end

section
/-! The Write port (R242): a byte written over a pending one is reported; either way the new byte is stored. -/

namespace Sys2Proof.Machine

theorem exec_portWriteWr (v : Byte) (s : State) :
    exec (.portWriteWr v) s =
      .next { (if s.davDsp then raiseDiag .protoOverwrite s else s) with inbox := v, davDsp := true } := rfl

/-- A pending byte is lost: the overwrite goes into the log, and nothing else differs from a write to a free port. -/
theorem exec_portWriteWr_of_pending (v : Byte) (s : State) (hpending : s.davDsp = true) :
    exec (.portWriteWr v) s =
      .next { s with inbox := v, davDsp := true, diagLog := s.diagLog ++ [.protoOverwrite] } := by
  rw [exec_portWriteWr, if_pos hpending, raiseDiag]

theorem exec_portWriteWr_of_free (v : Byte) (s : State) (hfree : ¬ s.davDsp = true) :
    exec (.portWriteWr v) s = .next { s with inbox := v, davDsp := true } := by
  rw [exec_portWriteWr, if_neg hfree]

/-- Settles O49: the two cases of `dav_dsp` at the write. -/
theorem writePortTakesTheByte : Obligations.WritePortTakesTheByte := by
  intro s v
  by_cases hdav : s.davDsp = true
  case pos => rw [exec_portWriteWr_of_pending v s hdav, if_pos hdav]
  case neg => rw [exec_portWriteWr_of_free v s hdav, if_neg hdav]

end Sys2Proof.Machine
end

section
/-! The sources of the interrupt line (R266, R267): the end of a block and Trigger IRQ raise it, a Read-status read
lowers it, and the other operations of every agent keep it. -/

namespace Sys2Proof.Machine

/-! ### The Poll agent: of its operations only Trigger IRQ drives the line -/

/-- A command that takes a parameter keeps the line if its work on the byte does. -/
theorem withParam_irq (s : State) (body : Byte → State → State) (hbody : ∀ v t, (body v t).irq = t.irq) :
    (withParam s body).irq = s.irq := by
  unfold withParam
  split
  · exact hbody s.inbox (takeParam s)
  · rfl

/-- No other command holds the interrupt line. -/
theorem runCommand_irq_of_ne (c : Command) (opcode : Byte) (s : State) (hc : c ≠ .triggerIrq) :
    (runCommand c opcode s).irq = s.irq := by
  cases c with
  | triggerIrq => exact absurd rfl hc
  | idle | dmaPause | readTest | speakerOn | speakerOff | unknown => rfl
  | dmaResume => exact paceEnable_irq s
  | dmaAuto | dmaHsAuto | dmaHsSingle => exact startBlockTransfer_irq _ s
  | setTimeConstant | identify | writeTest => exact withParam_irq s _ fun _ _ => rfl
  | setBlockSize => exact withParam_irq s _ fun v t => by split <;> rfl
  | dmaSingle => exact withParam_irq s _ fun v t => by split <;> simp
  | getVersion => simp only [runCommand, cmdGetVersion]; split_ifs <;> rfl

/-- An opcode decodes to Trigger IRQ exactly when its row of the table is that command. -/
theorem decodeCommand_eq_triggerIrq (m : OpcodeMap) (b : Byte) :
    decodeCommand m b = .cmdTriggerIrq ↔ classify m b = .triggerIrq := by
  unfold decodeCommand
  cases classify m b <;> simp [Command.toInstr]

/-- `P2` raises the line by dispatching Trigger IRQ; with any other command in progress it keeps it. -/
theorem protocolDispatch_irq (s : State) :
    (protocolDispatch s).irq =
      if decodeCommand s.params.opcodes s.currentCommand = .cmdTriggerIrq then true else s.irq := by
  simp only [decodeCommand_eq_triggerIrq, protocolDispatch]
  split
  next htrigger => rw [htrigger]; rfl
  next hother => exact runCommand_irq_of_ne _ _ s hother

/-- Of the three phases of a protocol step only an enabled `P2` can drive the line. -/
theorem protocolPhase_irq (ph : PstepPhase) (s : State) :
    (protocolPhase ph s).irq =
      if ph = .p2 ∧ s.pollOp = .p2Next ∧ decodeCommand s.params.opcodes s.currentCommand = .cmdTriggerIrq then true
      else s.irq := by
  cases ph with
  | p1 => simp only [protocolPhase]; split <;> simp
  | p3 => simp only [protocolPhase]; split <;> simp
  | p2 =>
    simp only [protocolPhase]
    split
    next hnext => simp [protocolDispatch_irq, hnext]
    next hnext => simp [hnext]

@[simp] theorem framePhase_irq (ph : FramePhase) (s : State) : (framePhase ph s).irq = s.irq := by
  cases ph <;> simp only [framePhase] <;> split_ifs <;> simp

/-! ### The DMA engine -/

/-- A byte taken in raises the line where it takes the counter above the target. -/
theorem acceptByte_irq (b : Byte) (s : State) :
    (acceptByte b s).irq =
      if s.dmaSampleCount.toNat < (s.dmaSampleCountRx.toNat + 1) % 2 ^ 32 then true else s.irq := by
  rw [acceptByte_eq]
  split
  next hbelow => rw [if_neg (Nat.not_lt.2 hbelow), rearm_irq]; exact fifoPush_irq b s
  next habove => rw [if_pos (Nat.not_le.1 habove), endBlock_irq]

/-- A byte that arrives with pacing off is discarded and ends no block. -/
theorem dmaDone_irq (b : Byte) (s : State) :
    (dmaDone b s).irq =
      if s.dmaEnabled = true ∧ s.dmaSampleCount.toNat < (s.dmaSampleCountRx.toNat + 1) % 2 ^ 32 then true
      else s.irq := by
  cases hen : s.dmaEnabled with
  | true => rw [dmaDone_of_enabled b s hen, acceptByte_irq]; simp only [true_and]
  | false => simp [dmaDone, hen]

/-! ### The Host agent -/

@[simp] theorem afterResetWrite_irq (v : Byte) (s : State) : (afterResetWrite v s).irq = s.irq := by
  unfold afterResetWrite; split_ifs <;> simp

@[simp] theorem unlistedAccess_irq (dir : Direction) (s : State) : (unlistedAccess dir s).irq = s.irq := by
  cases dir <;> rfl

/-- Of the bus accesses a Read-status read lowers the line and every other one keeps it. -/
theorem runStimulus_bus_irq (a : BusAccess) (s t : State) (h : runStimulus (.bus a) s = .next t) :
    (decodePort s.params.ports a = .ok .portRstatusRd → t.irq = false) ∧
    (decodePort s.params.ports a ≠ .ok .portRstatusRd → t.irq = s.irq) := by
  obtain ⟨⟨⟩, -⟩ | ⟨_, ⟨⟩, -⟩ | ⟨_, ⟨⟩, -⟩ | ⟨⟨⟩, -⟩ | ⟨_, ⟨⟩, -⟩ | ⟨_, ⟨⟩, haccess⟩ := runStimulus_cases _ s t h
  obtain ⟨hd, rfl⟩ | ⟨hd, rfl⟩ | ⟨hd, rfl⟩ | ⟨hd, rfl⟩ | ⟨hd, rfl⟩ | ⟨⟨_, hd⟩, rfl⟩ := haccess <;> rw [hd]
  · exact ⟨nofun, fun _ => rfl⟩
  · exact ⟨nofun, fun _ => rfl⟩
  · exact ⟨fun _ => rfl, fun hne => absurd rfl hne⟩
  · exact ⟨nofun, fun _ => afterResetWrite_irq _ s⟩
  · exact ⟨nofun, fun _ => by cases s.davDsp <;> rfl⟩
  · exact ⟨nofun, fun _ => unlistedAccess_irq _ s⟩

/-! ### Every agent -/

/-- R267: the stimulus is a Read-status read. -/
def AcknowledgesLine (s : State) (st : Stimulus) : Prop :=
  ∃ a, st = .bus a ∧ decodePort s.params.ports a = .ok .portRstatusRd

/-- R266: the stimulus completes the last byte of a block, or dispatches Trigger IRQ. -/
def RaisesLine (s : State) (st : Stimulus) : Prop :=
  (∃ b, st = .dmaCompletes b ∧ s.dmaReq = true ∧ s.dmaEnabled = true ∧
    s.dmaSampleCount.toNat < (s.dmaSampleCountRx.toNat + 1) % 2 ^ 32) ∨
  (st = .protocol .p2 ∧ s.pollOp = .p2Next ∧
    decodeCommand s.params.opcodes s.currentCommand = .cmdTriggerIrq)

/-- R266, R267 for one stimulus: the Host agent alone can lower the line, the DMA engine and `P2` alone can raise it. -/
theorem runStimulus_irq (st : Stimulus) (s t : State) (hst : st ≠ .powerOn) (h : runStimulus st s = .next t) :
    (AcknowledgesLine s st → t.irq = false) ∧ (RaisesLine s st → t.irq = true) ∧
    (¬AcknowledgesLine s st → ¬RaisesLine s st → t.irq = s.irq) := by
  cases st with
  | powerOn => exact absurd rfl hst
  | bus a =>
    have hline := runStimulus_bus_irq a s t h
    simpa [AcknowledgesLine, RaisesLine] using hline
  | protocol ph =>
    cases h
    rw [protocolPhase_irq]
    simp +contextual [AcknowledgesLine, RaisesLine]
  | mixer ph =>
    cases h
    simp [AcknowledgesLine, RaisesLine]
  | paceFires =>
    cases h
    have hkept : (if s.pacePending.isSome then paceEvent s else notEnabled s).irq = s.irq := by split <;> simp
    simp [AcknowledgesLine, RaisesLine, hkept]
  | dmaCompletes b =>
    cases h
    cases hreq : s.dmaReq with
    | true => simp +contextual [AcknowledgesLine, RaisesLine, hreq, dmaDone_irq]
    | false => simp [AcknowledgesLine, RaisesLine, hreq]

/-- Settles O57: a loaded step runs its stimulus on a state with the same line, parameters and counters, so the rule for
one stimulus (`runStimulus_irq`) applies. -/
theorem interruptLineSources : Obligations.InterruptLineSources := by
  intro s t st rest acknowledge raise hscript hst hacknowledge hraise hstep
  rw [step_of_script s st rest hscript] at hstep
  rw [hacknowledge, hraise]
  exact runStimulus_irq st { s with script := rest } t hst hstep

end Sys2Proof.Machine
end

section
/-! Decode against encode (R102, R104, R106, R109, R122): an opcode is a row of the map or unknown, a stimulus names its
operation, and the length of a command is read off its opcode. -/

namespace Sys2Proof

/-! ### Opcodes -/

/-- An operation with an opcode is a row of the map, or the unknown command that carries the byte. -/
theorem row_or_unknown_of_encode (m : OpcodeMap) (p : PortMap) (i : Instr) (b : Byte)
    (h : encode m p i = some (.opcode b)) :
    (b, i) ∈ (opcodeRows m).map (fun row => (row.1, row.2.toInstr row.1)) ∨ i = .cmdUnknown b := by
  cases i with
  | cmdUnknown => cases h; exact .inr rfl
  | pstep part => cases part <;> cases h
  | frame part => cases part <;> cases h
  | cmdDmaSingle | cmdDmaAuto | cmdSetTimeConstant | cmdSetBlockSize | cmdDmaHsAuto | cmdDmaHsSingle | cmdDmaPause
  | cmdSpeakerOn | cmdSpeakerOff | cmdDmaResume | cmdIdentify | cmdGetVersion | cmdWriteTest | cmdReadTest
  | cmdTriggerIrq | cmdIdleZero => cases h; exact .inl (by simp [opcodeRows, Command.toInstr])
  | _ => cases h

/-- The opcode of a well-formed operation decodes to it. -/
theorem decodeCommand_of_encode (m : OpcodeMap) (p : PortMap) (i : Instr) (b : Byte) (hm : m.WellFormed)
    (hi : i.wellFormed m = true) (h : encode m p i = some (.opcode b)) : decodeCommand m b = i := by
  rcases row_or_unknown_of_encode m p i b h with hrow | rfl
  · exact decodeCommand_of_row m hm b i hrow
  · exact decodeCommand_of_not_mem m b (of_decide_eq_true hi)

/-- The operation of a row is well formed and is encoded by the row's opcode. -/
theorem encode_of_row (m : OpcodeMap) (p : PortMap) (b : Byte) (c : Command) (h : (b, c) ∈ opcodeRows m) :
    (c.toInstr b).wellFormed m = true ∧ encode m p (c.toInstr b) = some (.opcode b) := by
  simp only [opcodeRows, List.mem_cons, Prod.mk.injEq, List.not_mem_nil, or_false] at h
  obtain ⟨rfl, rfl⟩ | ⟨rfl, rfl⟩ | ⟨rfl, rfl⟩ | ⟨rfl, rfl⟩ | ⟨rfl, rfl⟩ | ⟨rfl, rfl⟩ | ⟨rfl, rfl⟩ | ⟨rfl, rfl⟩ |
    ⟨rfl, rfl⟩ | ⟨rfl, rfl⟩ | ⟨rfl, rfl⟩ | ⟨rfl, rfl⟩ | ⟨rfl, rfl⟩ | ⟨rfl, rfl⟩ | ⟨rfl, rfl⟩ | ⟨rfl, rfl⟩ := h <;>
    exact ⟨rfl, rfl⟩

/-! ### Stimuli -/

theorem decodePort_busRead (p : PortMap) (hp : p.WellFormed) :
    decodePort p (busRead p.read) = .ok .portReadRd ∧ decodePort p (busRead p.writeStatus) = .ok .portWstatusRd ∧
      decodePort p (busRead p.readStatus) = .ok .portRstatusRd := by
  obtain ⟨hread, -⟩ := hp
  simp only [List.nodup_cons, List.mem_cons, List.not_mem_nil, or_false, not_or] at hread
  obtain ⟨⟨hrw, hrs⟩, hws, -⟩ := hread
  simp [decodePort, busRead, Ne.symm hrw, Ne.symm hrs, Ne.symm hws]

theorem decodePort_busWrite (p : PortMap) (hp : p.WellFormed) (v : Byte) :
    decodePort p (busWrite p.reset v) = .ok (.portResetWr v) ∧
      decodePort p (busWrite p.write v) = .ok (.portWriteWr v) := by
  obtain ⟨-, hwrite⟩ := hp
  simp only [List.nodup_cons, List.mem_cons, List.not_mem_nil, or_false] at hwrite
  simp [decodePort, busWrite, Ne.symm hwrite.1]

/-- The stimulus of an operation decodes to it: the signals name theirs, and the offsets tell the ports apart. -/
theorem decodeStimulus_of_encode (m : OpcodeMap) (p : PortMap) (i : Instr) (st : Stimulus) (hp : p.WellFormed)
    (h : encode m p i = some (.stimulus st)) : decodeStimulus p st = .ok i := by
  obtain ⟨hread, hwriteStatus, hreadStatus⟩ := decodePort_busRead p hp
  cases i with
  | portReadRd => cases h; exact hread
  | portWstatusRd => cases h; exact hwriteStatus
  | portRstatusRd => cases h; exact hreadStatus
  | portResetWr v => cases h; exact (decodePort_busWrite p hp v).1
  | portWriteWr v => cases h; exact (decodePort_busWrite p hp v).2
  | pstep part => cases part <;> cases h; rfl
  | frame part => cases part <;> cases h; rfl
  | por | paceEvent | dmaDone => cases h; rfl
  | _ => cases h

/-! ### The length of a command -/

/-- The format of a command in terms of the operation it names (R104). -/
theorem format_params_eq (c : Command) (b : Byte) :
    c.format.params =
      if c.toInstr b ∈ [Instr.cmdSetBlockSize, .cmdDmaSingle] then 2
      else if c.toInstr b ∈ [Instr.cmdSetTimeConstant, .cmdWriteTest, .cmdIdentify] then 1 else 0 := by
  cases c <;> simp [Command.toInstr, Command.format, CommandFormat.params]

/-- A command whose parameter bytes are all there is cut off with exactly them. -/
theorem takeCommand_append (m : OpcodeMap) (b : Byte) (params rest : List Byte)
    (h : params.length = (classify m b).format.params) :
    takeCommand m (b :: params ++ rest) = some (decodeCommand m b, params, rest) := by
  rw [List.cons_append, takeCommand, if_pos (by simp [← h]), ← h, List.take_left, List.drop_left]

theorem takeCommand_short (m : OpcodeMap) (b : Byte) (params : List Byte)
    (h : params.length < (classify m b).format.params) : takeCommand m (b :: params) = none := by
  rw [takeCommand, if_neg (Nat.not_le.2 h)]

/-! ### The statements -/

/-- Settles O2: the selector is an opcode or a stimulus, and each kind decodes back. -/
theorem decodeOfEncodeIsTheOperation : Obligations.DecodeOfEncodeIsTheOperation := by
  intro m p i w hm hp hi h
  cases w with
  | opcode b => exact congrArg Except.ok (decodeCommand_of_encode m p i b hm hi h)
  | stimulus st => exact decodeStimulus_of_encode m p i st hp h

/-- Settles O3: the byte is the opcode of a row (`encode_of_row`), or the unknown command carries it. -/
theorem everyOpcodeByteNamesOneCommand : Obligations.EveryOpcodeByteNamesOneCommand := by
  intro m p b _
  have hunknown : b ≠ 0 → b ∉ m.values → decodeCommand m b = .cmdUnknown b := fun hzero hvalues =>
    decodeCommand_of_not_mem m b (List.not_mem_cons_of_ne_of_not_mem hzero hvalues)
  rcases classify_cases m b with hrow | ⟨-, hnot⟩
  · obtain ⟨hwf, hencode⟩ := encode_of_row m p b _ hrow
    exact ⟨hwf, hencode, hunknown⟩
  · rw [decodeCommand_of_not_mem m b hnot] at hunknown ⊢
    exact ⟨decide_eq_true hnot, rfl, hunknown⟩

/-- Settles O4: the count the statement reads off the operation is the one the format of its opcode gives
(`format_params_eq`), and the encoder and the cutter both compare with that. -/
theorem commandStreamSplitsByOpcodeAlone : Obligations.CommandStreamSplitsByOpcodeAlone := by
  intro m p i opcode params rest count hm hi hencode hcount
  have hdecode := decodeCommand_of_encode m p i opcode hm hi hencode
  have hformat : (classify m opcode).format.params = count := by
    rw [hcount, ← hdecode]
    exact format_params_eq _ opcode
  refine ⟨congrArg (1 + ·) hformat, fun hlen => ⟨?whole, ?cut⟩, fun hlen => ?wrong, fun hlen => ?short⟩
  case whole => simp only [encodeCommand, hencode]; rw [if_pos (hlen.trans hformat.symm)]
  case cut => rw [takeCommand_append m opcode params rest (hlen.trans hformat.symm), hdecode]
  case wrong => simp only [encodeCommand, hencode]; rw [if_neg (hformat ▸ hlen)]
  case short => exact takeCommand_short m opcode params (hformat ▸ hlen)

/-- Settles O1: each byte is decoded by computation on the default map. -/
theorem defaultOpcodeBytesNameTheirCommands : Obligations.DefaultOpcodeBytesNameTheirCommands := by
  unfold Obligations.DefaultOpcodeBytesNameTheirCommands
  decide

end Sys2Proof
end

section
/-! The FIFO procedures (R131, R132, R134 to R138): what each answers, and the queue the ring stands for. -/

namespace Sys2Proof.Machine

/-! ### Level and half -/

theorem exec_fifoLevel (s : State) : exec .fifoLevel s = .next { s with answer := .number (fifoLevel s) } := rfl

/-- Settles O6: the level in plain arithmetic is `fifoLevel_eq`, and half-full compares it. -/
theorem fifoLevelAndHalfFromTheIndices : Obligations.FifoLevelAndHalfFromTheIndices := by
  intro s
  rw [← fifoLevel_eq]
  exact ⟨rfl, rfl⟩

/-- Settles O9: after a clear the indices are equal, so the level is 0 (`fifoLevel_fifoClear`). -/
theorem fifoClearDropsAllBufferedBytes : Obligations.FifoClearDropsAllBufferedBytes :=
  fun s => ⟨fifoClear s, rfl, rfl, by rw [exec_fifoLevel, fifoLevel_fifoClear]⟩

/-! ### Pop -/

theorem exec_fifoPopInto (maxLen : Nat) (s : State) :
    exec (.fifoPopInto maxLen) s = .next { s with
      head := s.head + BitVec.ofNat 10 (popCount s maxLen)
      buf := overlay s.buf (fifoBytes s (popCount s maxLen))
      answer := .bytes (fifoBytes s (popCount s maxLen)) } := rfl

/-- The address `k` places after `head`, with the wrap past 1023 written out. -/
theorem head_add_toNat (s : State) (k : Nat) :
    (s.head + BitVec.ofNat 10 k).toNat = (s.head.toNat + k) % 1024 := by
  rw [BitVec.toNat_add, BitVec.toNat_ofNat, Nat.add_mod_mod]

/-- An entry of the destination below the count is the byte copied there. -/
theorem overlay_fifoBytes_of_lt (s : State) (count : Nat) (k : Fin 4) (h : k.val < count) :
    (overlay s.buf (fifoBytes s count))[k] = fifoRead s ((s.head.toNat + k.val) % 1024) := by
  rw [overlay_getElem, List.getD_eq_getElem?_getD, fifoBytes_getElem?, if_pos h, head_add_toNat, Option.getD_some]

/-- An entry of the destination from the count on is kept. -/
theorem overlay_fifoBytes_of_le (s : State) (count : Nat) (k : Fin 4) (h : count ≤ k.val) :
    (overlay s.buf (fifoBytes s count))[k] = s.buf[k] := by
  rw [overlay_getElem, List.getD_eq_getElem?_getD, fifoBytes_getElem?, if_neg (Nat.not_lt.2 h), Option.getD_none]

/-- Settles O8: the whole state is `exec_fifoPopInto`; below the count the destination holds the bytes copied, from it
on the old entries. -/
theorem fifoPopCopiesTheOldestBytes : Obligations.FifoPopCopiesTheOldestBytes := by
  intro s maxLen count _ hcount
  rw [← fifoLevel_eq] at hcount
  obtain rfl : count = popCount s maxLen := hcount
  refine ⟨_, fifoBytes s (popCount s maxLen), exec_fifoPopInto maxLen s, ?frame, fifoBytes_length s _,
    fun k hk => ⟨overlay_fifoBytes_of_lt s _ k hk, ?copied⟩, fun k hk => overlay_fifoBytes_of_le s _ k hk⟩
  case frame => rw [BitVec.ofNat_add, BitVec.ofNat_toNat, BitVec.setWidth_eq]
  case copied => rw [overlay_fifoBytes_of_lt s _ k hk, fifoBytes_getElem?, if_pos hk, head_add_toNat]

/-! ### The queue -/

@[simp] theorem fifoContents_length (s : State) : (fifoContents s).length = fifoLevel s := fifoBytes_length s _

/-- With nothing waiting the queue is empty. -/
theorem fifoContents_of_empty (s : State) (h : fifoLevel s = 0) : fifoContents s = [] := by
  rw [fifoContents, h, fifoBytes_zero]

/-- The place a push writes is the one `fifoLevel` places after `head`. -/
theorem head_add_fifoLevel (s : State) : s.head + BitVec.ofNat 10 (fifoLevel s) = s.tail := by
  rw [fifoLevel, BitVec.ofNat_toNat, BitVec.setWidth_eq, BitVec.add_comm, BitVec.sub_add_cancel]

/-- A push appends, or empties a full queue (R137, R138). -/
theorem fifoContents_fifoPush (b : Byte) (s : State) :
    fifoContents (fifoPush b s) = if fifoLevel s = 1023 then [] else fifoContents s ++ [b] := by
  split
  next hfull => exact fifoContents_of_empty _ (by rw [fifoLevel_fifoPush, if_pos hfull])
  next hroom =>
    rw [fifoContents, fifoLevel_fifoPush, if_neg hroom, fifoBytes_succ, fifoBytes_fifoPush s b _ le_rfl,
      fifoPush_head, head_add_fifoLevel, fifoRead_fifoPush, if_pos rfl, fifoContents]

/-- The bytes a pop copies are the front of the queue. -/
theorem fifoBytes_popCount (s : State) (maxLen : Nat) :
    fifoBytes s (popCount s maxLen) = (fifoContents s).take maxLen := by
  rw [fifoContents, ← fifoBytes_take s (fifoLevel s) (popCount s maxLen) (Nat.min_le_left _ _), popCount,
    List.take_eq_take_iff, fifoBytes_length]
  omega

/-- What a pop leaves is the rest of the queue. -/
theorem fifoContents_fifoPopInto (s : State) (maxLen : Nat) :
    fifoContents (fifoPopInto maxLen s) = (fifoContents s).drop maxLen := by
  have hrest := fifoBytes_drop s (fifoPopInto maxLen s) (fifoLevel s) (popCount s maxLen) rfl rfl
  rw [fifoContents, fifoLevel_fifoPopInto, fifoContents]
  by_cases hlen : maxLen ≤ fifoLevel s
  · rwa [popCount, Nat.min_eq_right hlen, eq_comm] at hrest
  · rw [Nat.sub_eq_zero_of_le (by omega), fifoBytes_zero, List.drop_eq_nil_of_le (by rw [fifoBytes_length]; omega)]

/-- Settles O10: one equation of the queue for each of the three operations. -/
theorem fifoRefinesAQueue : Obligations.FifoRefinesAQueue := by
  intro s
  refine ⟨fun b => ⟨fifoPush b s, rfl, ?push⟩, fun maxLen => ⟨_, rfl, ?popped, fifoContents_fifoPopInto s maxLen⟩,
    ⟨fifoClear s, rfl, fifoContents_of_empty _ (fifoLevel_fifoClear s)⟩⟩
  case push => rw [fifoContents_fifoPush, fifoContents_length]
  case popped => exact congrArg Answer.bytes (fifoBytes_popCount s maxLen)

/-! ### Pushes from empty -/

/-- Pushes that start with `fifoLevel s` bytes waiting and end at most one past 1023: only the last of 1024 reports. -/
theorem runOps_fifoPush (bs : List Byte) (s : State) (hlen : fifoLevel s + bs.length ≤ 1024) :
    ∃ t, runOps (bs.map .fifoPush) s = .next t ∧ fifoLevel t = (fifoLevel s + bs.length) % 1024 ∧
      t.diagLog = if fifoLevel s + bs.length = 1024 then s.diagLog ++ [.overrun] else s.diagLog := by
  have hlevel := fifoLevel_lt s
  induction bs generalizing s with
  | nil => exact ⟨s, rfl, (Nat.mod_eq_of_lt hlevel).symm, (if_neg (Nat.ne_of_lt hlevel)).symm⟩
  | cons b rest ih =>
    rw [List.length_cons] at hlen ⊢
    have hlevel' := fifoLevel_fifoPush s b
    by_cases hfull : fifoLevel s = 1023
    · obtain rfl : rest = [] := List.length_eq_zero_iff.1 (by omega)
      refine ⟨fifoPush b s, rfl, ?_, ?_⟩
      · rw [hlevel', if_pos hfull, hfull]
        rfl
      · rw [fifoPush_eq, hfull]
        rfl
    · rw [if_neg hfull] at hlevel'
      obtain ⟨t, hrun, hend, hlog⟩ := ih (fifoPush b s) (by omega) (fifoLevel_lt _)
      have hquiet : (fifoPush b s).diagLog = s.diagLog := by
        rw [fifoPush_eq]
        exact if_neg hfull
      have hcount : fifoLevel (fifoPush b s) + rest.length = fifoLevel s + (rest.length + 1) := by omega
      rw [hcount] at hend hlog
      exact ⟨t, hrun, hend, by rw [hlog, hquiet]⟩

/-- Settles O11: `runOps_fifoPush` from level 0. -/
theorem theThousandTwentyFourthPushOverruns : Obligations.TheThousandTwentyFourthPushOverruns := by
  intro s bs hempty hlen
  have hlevel := (fifoLevel_eq_zero s).2 hempty
  have hpushes := runOps_fifoPush bs s (by omega)
  rwa [hlevel, Nat.zero_add] at hpushes

end Sys2Proof.Machine
end

section
/-! Accesses that are no port operation (R245). -/

namespace Sys2Proof

/-- An access that is wide, or at an offset without a port of its direction, is rejected. -/
theorem decodePort_of_unlisted (p : PortMap) (a : BusAccess)
    (h : a.width ≠ 1 ∨ (a.dir = .read ∧ a.offset ∉ [p.read, p.writeStatus, p.readStatus]) ∨
      (a.dir = .write ∧ a.offset ∉ [p.reset, p.write])) : ∃ r, decodePort p a = .error r := by
  unfold decodePort
  by_cases hwidth : a.width = 1
  · rw [if_neg (not_not_intro hwidth)]
    obtain hwide | ⟨hdir, hoff⟩ | ⟨hdir, hoff⟩ := h
    · exact absurd hwidth hwide
    · simp only [List.mem_cons, List.not_mem_nil, or_false, not_or] at hoff
      obtain ⟨h1, h2, h3⟩ := hoff
      simp only [hdir, if_neg h1, if_neg h2, if_neg h3]
      split <;> exact ⟨_, rfl⟩
    · simp only [List.mem_cons, List.not_mem_nil, or_false, not_or] at hoff
      obtain ⟨h1, h2⟩ := hoff
      simp only [hdir, if_neg h1, if_neg h2]
      split_ifs <;> exact ⟨_, rfl⟩
  · exact ⟨_, if_pos hwidth⟩

end Sys2Proof

namespace Sys2Proof.Machine

/-- Such an access writes the model's records alone. -/
theorem unlistedAccess_leaves (dir : Direction) (s : State) :
    { unlistedAccess dir s with draws := s.draws, answer := s.answer } = s := by
  cases dir <;> rfl

/-- Settles O5: the access is rejected, and the bus then leaves the block (`unlistedAccess_leaves`). -/
theorem unlistedAccessChangesNoState : Obligations.UnlistedAccessChangesNoState := by
  intro s a rest hscript hunlisted
  obtain ⟨r, hreject⟩ := decodePort_of_unlisted s.params.ports a hunlisted
  refine ⟨_, (step_of_script s _ rest hscript).trans (runStimulus_unlisted a { s with script := rest } r hreject), ?_⟩
  exact congrArg (fun t : State => { t with script := s.script })
    (unlistedAccess_leaves a.dir { s with script := rest })

end Sys2Proof.Machine
end

section
/-! Laps of the pacing loop (R153 to R161): one event and one completion, and the blocks that laps make. -/

namespace Sys2Proof.Machine

/-! ### The event and the completion -/

theorem exec_paceEvent_of_pending (s : State) (h : s.pacePending ≠ none) :
    exec .paceEvent s = .next (paceEvent s) :=
  congrArg Host.Outcome.next (if_pos (Option.isSome_iff_ne_none.2 h))

theorem paceEvent_of_enabled (s : State) (h : s.dmaEnabled = true) :
    paceEvent s = { s with pacePending := none, dmaIntervalTrim := trimOf (fifoHalf s), dmaReq := true } := if_pos h

/-- A stale firing only clears the timer. -/
theorem paceEvent_of_disabled (s : State) (h : s.dmaEnabled = false) : paceEvent s = { s with pacePending := none } :=
  if_neg (Bool.eq_false_iff.1 h)

/-- The trim as a signed number (R154). -/
theorem trimOf_toInt (half : Bool) : (trimOf half).toInt = if half then 5 else -5 := by
  cases half <;> decide

theorem fifoHalf_iff (s : State) : fifoHalf s = true ↔ 512 ≤ fifoLevel s := decide_eq_true_iff

/-- Settles O14: the two cases of the guard, and the trim read as a number. -/
theorem paceEventSetsTheTrimAndRequestsAByte : Obligations.PaceEventSetsTheTrimAndRequestsAByte := by
  intro s hpending
  refine ⟨fun hen => ⟨paceEvent s, exec_paceEvent_of_pending s hpending, ?frame, ?trim⟩, fun hoff => ?stale⟩
  case frame => rw [paceEvent_of_enabled s hen]
  case trim =>
    rw [paceEvent_of_enabled s hen, trimOf_toInt, ← fifoLevel_eq]
    simp only [fifoHalf_iff]
  case stale => rw [exec_paceEvent_of_pending s hpending, paceEvent_of_disabled s hoff]

theorem dmaDone_of_disabled (b : Byte) (s : State) (h : s.dmaEnabled = false) :
    dmaDone b s = { s with dmaReq := false } := if_neg (Bool.eq_false_iff.1 h)

/-- Settles O16: the transfer is outstanding, and the guard discards its byte. -/
theorem dmaDoneAfterDisableIsDiscarded : Obligations.DmaDoneAfterDisableIsDiscarded := by
  intro s b hreq hoff
  rw [exec_dmaDone_of_req b s hreq, dmaDone_of_disabled b s hoff]

/-! ### One lap -/

/-- One lap of the loop (`XFER` in R121). -/
def lap (b : Byte) (s : State) : State := dmaDone b (paceEvent s)

/-- With pacing enabled and an event pending, both operations of a lap happen. -/
theorem runOps_lap (b : Byte) (ops : List Instr) (s : State) (hen : s.dmaEnabled = true) (hp : s.pacePending ≠ none) :
    runOps (.paceEvent :: .dmaDone b :: ops) s = runOps ops (lap b s) := by
  have hreq : (paceEvent s).dmaReq = true := by rw [paceEvent_of_enabled s hen]
  simp only [runOps, exec_paceEvent_of_pending s hp, exec_dmaDone_of_req b _ hreq, lap]

theorem lap_eq (b : Byte) (s : State) (hen : s.dmaEnabled = true) :
    lap b s = acceptByte b { paceEvent s with dmaReq := false } :=
  dmaDone_of_enabled b (paceEvent s) (by rw [paceEvent_dmaEnabled, hen])

@[simp] theorem lap_dmaSampleCount (b : Byte) (s : State) : (lap b s).dmaSampleCount = s.dmaSampleCount := by
  simp [lap]
@[simp] theorem lap_autoinit (b : Byte) (s : State) : (lap b s).autoinit = s.autoinit := by
  simp [lap]

/-- The counter of a lap, while the 32 bits suffice. -/
theorem rx_succ_toNat (s : State) (h : s.dmaSampleCountRx.toNat < 2 ^ 32 - 1) :
    (s.dmaSampleCountRx + 1).toNat = s.dmaSampleCountRx.toNat + 1 :=
  (BitVec.toNat_add ..).trans (Nat.mod_eq_of_lt (Nat.add_lt_of_lt_sub h))

/-- A lap up to the target counts and goes on (R155 line 6). -/
theorem lap_within (b : Byte) (s : State) (hen : s.dmaEnabled = true)
    (h : s.dmaSampleCountRx.toNat + 1 ≤ s.dmaSampleCount.toNat) :
    (lap b s).irq = s.irq ∧ (lap b s).irqAssertCount = s.irqAssertCount ∧
      (lap b s).dmaSampleCountRx.toNat = s.dmaSampleCountRx.toNat + 1 ∧ (lap b s).dmaEnabled = true ∧
      (lap b s).pacePending ≠ none := by
  have htarget := s.dmaSampleCount.isLt
  have hcount : (s.dmaSampleCountRx.toNat + 1) % 2 ^ 32 ≤ s.dmaSampleCount.toNat := by omega
  rw [lap_eq b s hen, acceptByte_eq, paceEvent_dmaSampleCountRx, paceEvent_dmaSampleCount, if_pos hcount]
  exact ⟨by simp, by simp, rx_succ_toNat s (by omega), by simp [hen], by simp⟩

/-- A lap past the target ends the block: one interrupt, and loop or stop (R155 lines 8 to 13). -/
theorem lap_last (b : Byte) (s : State) (hen : s.dmaEnabled = true)
    (h : s.dmaSampleCount.toNat < s.dmaSampleCountRx.toNat + 1) (hrx : s.dmaSampleCountRx.toNat < 2 ^ 32 - 1) :
    (lap b s).irq = true ∧ (lap b s).irqAssertCount = s.irqAssertCount + 1 ∧
      (s.autoinit = true → (lap b s).dmaSampleCountRx = 0 ∧ (lap b s).dmaEnabled = true ∧
        (lap b s).pacePending ≠ none) ∧
      (s.autoinit = false → (lap b s).dmaSampleCountRx.toNat = s.dmaSampleCountRx.toNat + 1 ∧
        (lap b s).dmaEnabled = false ∧ (lap b s).pacePending = none) := by
  have hcount : ¬ (s.dmaSampleCountRx.toNat + 1) % 2 ^ 32 ≤ s.dmaSampleCount.toNat := by omega
  rw [lap_eq b s hen, acceptByte_eq, paceEvent_dmaSampleCountRx, paceEvent_dmaSampleCount, if_neg hcount]
  refine ⟨endBlock_irq _, by simp, fun hauto => ?loop, fun hsingle => ?stop⟩
  case loop =>
    rw [endBlock_of_autoinit _ (by simpa using hauto)]
    simp [hen]
  case stop =>
    rw [endBlock_of_single _ (by simpa using hsingle)]
    exact ⟨rx_succ_toNat s hrx, rfl, rfl⟩

/-! ### Blocks -/

/-- Laps up to the target, by induction on the bytes. -/
theorem runOps_lapOps_within (bs : List Byte) (s : State) (hen : s.dmaEnabled = true) (hp : s.pacePending ≠ none)
    (h : s.dmaSampleCountRx.toNat + bs.length ≤ s.dmaSampleCount.toNat) :
    ∃ t, runOps (lapOps bs) s = .next t ∧ t.irq = s.irq ∧ t.irqAssertCount = s.irqAssertCount ∧
      t.dmaSampleCountRx.toNat = s.dmaSampleCountRx.toNat + bs.length ∧ t.dmaEnabled = true ∧
      t.pacePending ≠ none := by
  induction bs generalizing s with
  | nil => exact ⟨s, rfl, rfl, rfl, rfl, hen, hp⟩
  | cons b rest ih =>
    rw [List.length_cons] at h ⊢
    obtain ⟨hirq, hcalls, hrx, hen', hp'⟩ := lap_within b s hen (by omega)
    obtain ⟨t, hrun, htirq, htcalls, htrx, ht⟩ := ih (lap b s) hen' hp' (by rw [hrx, lap_dmaSampleCount]; omega)
    exact ⟨t, (runOps_lap b _ s hen hp).trans hrun, htirq.trans hirq, htcalls.trans hcalls, by omega, ht⟩

/-- Laps to one past the target, by induction on the bytes: all but the last stay within it. -/
theorem runOps_lapOps_block (bs : List Byte) (s : State) (hen : s.dmaEnabled = true) (hp : s.pacePending ≠ none)
    (hrx : s.dmaSampleCountRx.toNat ≤ s.dmaSampleCount.toNat)
    (h : s.dmaSampleCountRx.toNat + bs.length = s.dmaSampleCount.toNat + 1) :
    ∃ t, runOps (lapOps bs) s = .next t ∧ t.irq = true ∧ t.irqAssertCount = s.irqAssertCount + 1 ∧
      (s.autoinit = true → t.dmaSampleCountRx = 0 ∧ t.dmaEnabled = true ∧ t.pacePending ≠ none) ∧
      (s.autoinit = false → t.dmaSampleCountRx.toNat = s.dmaSampleCount.toNat + 1 ∧ t.dmaEnabled = false ∧
        t.pacePending = none) := by
  induction bs generalizing s with
  | nil => rw [List.length_nil] at h; omega
  | cons b rest ih =>
    rw [List.length_cons] at h
    have htarget := s.dmaSampleCount.isLt
    by_cases hlast : rest = []
    · subst hlast
      rw [List.length_nil] at h
      rw [← h]
      exact ⟨lap b s, runOps_lap b [] s hen hp, lap_last b s hen (by omega) (by omega)⟩
    · have hpos := List.length_pos_iff.2 hlast
      obtain ⟨-, hcalls, hrx', hen', hp'⟩ := lap_within b s hen (by omega)
      have hblock := ih (lap b s) hen' hp' (by rw [hrx', lap_dmaSampleCount]; omega)
        (by rw [hrx', lap_dmaSampleCount]; omega)
      rw [lap_dmaSampleCount, lap_autoinit, hcalls] at hblock
      obtain ⟨t, hrun, ht⟩ := hblock
      exact ⟨t, (runOps_lap b _ s hen hp).trans hrun, ht⟩

/-- Settles O17: the two lengths of `runOps_lapOps_within` and `runOps_lapOps_block`, from the counter 0. -/
theorem aBlockIsOneByteLongerThanItsTarget : Obligations.ABlockIsOneByteLongerThanItsTarget := by
  intro s bs hen hp hzero
  have hrx : s.dmaSampleCountRx.toNat = 0 := congrArg BitVec.toNat hzero
  refine ⟨fun hlen => ?within, fun hlen => runOps_lapOps_block bs s hen hp (by omega) (by omega)⟩
  case within =>
    have hlaps := runOps_lapOps_within bs s hen hp (by omega)
    rwa [hrx, Nat.zero_add] at hlaps

/-- Settles O18: Resume enables pacing and leaves counter, target and mode, so the next lap is past the target. -/
theorem resumeAfterAStoppedBlockBreaksTheCounterBound :
    Obligations.ResumeAfterAStoppedBlockBreaksTheCounterBound := by
  intro s b hoff _ hsingle hstopped
  have htarget := s.dmaSampleCount.isLt
  have hresume : cmdDmaResume s = finishCommand { s with
      head := s.tail, dmaEnabled := true, pacePending := some (s.dmaInterval.toNat : Int) } :=
    congrArg finishCommand (paceEnable_of_disabled s hoff)
  have hrun : runOps [.cmdDmaResume, .paceEvent, .dmaDone b] s = .next (lap b (cmdDmaResume s)) :=
    runOps_lap b [] (cmdDmaResume s) (by rw [hresume]; rfl) (by rw [hresume]; exact Option.some_ne_none _)
  rw [hresume] at hrun
  obtain ⟨-, -, -, hstop⟩ := lap_last b (finishCommand { s with
    head := s.tail, dmaEnabled := true, pacePending := some (s.dmaInterval.toNat : Int) }) rfl
    (by simp only [finishCommand_dmaSampleCount, finishCommand_dmaSampleCountRx]; omega)
    (by simp only [finishCommand_dmaSampleCountRx]; omega)
  obtain ⟨hrx, -, -⟩ := hstop hsingle
  refine ⟨_, hrun, lap_dmaSampleCount b _, ?_⟩
  rw [hrx, lap_dmaSampleCount]
  exact congrArg (· + 1) hstopped

end Sys2Proof.Machine
end

section
/-! The host's ports, power-on and the step (R85, R234, R241 to R244, R265, R290): what each answers, in every state. -/

namespace Sys2Proof.Machine

/-! ### Ports and helper procedures -/

/-- Settles O47: neither comparison of the whole byte holds. -/
theorem resetPortIgnoresOtherValues : Obligations.ResetPortIgnoresOtherValues := by
  intro s v hzero hone
  rw [exec_portResetWr, afterResetWrite, if_neg hone, decide_eq_false hzero, Bool.false_and, if_neg Bool.false_ne_true]

/-- Settles O48: each read answers from the state before its side effect; the two status bytes are `statusByte`. -/
theorem portReadsReturnTheirByte : Obligations.PortReadsReturnTheirByte := by
  intro s
  have hbusy : writeStatus s = if s.davDsp = true ∨ s.dspBusy = true then 0x80 else 0 := by
    simp only [writeStatus, statusByte, Bool.or_eq_true]
  exact ⟨rfl, hbusy ▸ rfl, rfl⟩

theorem exec_consumeParam_of_pending (s : State) (h : s.davDsp = true) :
    exec .consumeParam s = .next (answerWith (.byte s.inbox) (takeParam s)) := congrArg Host.Outcome.next (if_pos h)

/-- Settles O35: `Output` tests nothing, and `ConsumeParam` has its precondition. -/
theorem outputAndConsumeParam : Obligations.OutputAndConsumeParam :=
  fun s _ => ⟨rfl, exec_consumeParam_of_pending s⟩

/-! ### Power-on -/

/-- Settles O50: the fields of `powerOn` are those of the reset state, but for the three it keeps. -/
theorem powerOnZeroesEveryField : Obligations.PowerOnZeroesEveryField :=
  fun s => ⟨powerOn s, rfl, ⟨rfl, rfl, rfl, rfl, rfl, rfl, rfl, rfl⟩, ⟨rfl, rfl, rfl, rfl, rfl⟩,
    ⟨rfl, rfl, rfl, rfl, rfl⟩, ⟨rfl, rfl, rfl, rfl, rfl⟩, ⟨rfl, rfl, rfl, rfl⟩, ⟨rfl, rfl, rfl, rfl⟩, rfl, rfl, rfl⟩

/-! ### Every operation and every step -/

theorem exec_total (i : Instr) (s : State) : ∃ t, exec i s = .next t := by
  cases i <;> exact ⟨_, rfl⟩

theorem runStimulus_total (st : Stimulus) (s : State) : ∃ t, runStimulus st s = .next t := by
  cases st with
  | bus a =>
    cases hport : decodePort s.params.ports a with
    | ok i => exact runStimulus_bus a s i hport ▸ exec_total i s
    | error r => exact ⟨_, runStimulus_unlisted a s r hport⟩
  | _ => exact ⟨_, rfl⟩

/-- Settles O55: no arm of `exec` answers anything but a next state, and a step runs one stimulus. -/
theorem nothingHalts : Obligations.NothingHalts :=
  ⟨exec_total, fun s => runStimulus_total (takeStimulus s).1 (takeStimulus s).2⟩

/-- A stimulus that decodes runs its operation. -/
theorem runStimulus_of_decode (st : Stimulus) (s : State) (i : Instr) (h : decodeStimulus s.params.ports st = .ok i) :
    runStimulus st s = exec i s := by
  cases st with
  | bus a => exact runStimulus_bus a s i h
  | _ => cases h; rfl

/-- A table word of one byte is the opcode it is placed as. -/
theorem decodeTableWord_eight (w : Nat) :
    decodeTableWord 8 w = some (decodeCommand defaultOpcodes (opcodeOfWord 8 w)) := rfl

/-- Settles O53: a loaded stimulus runs what it decodes to, a drawn one is as if loaded, and a placed word is run by the
`P2` placed with it (`exec_p2_of_p2Next`). -/
theorem stepRunsTheDecodedOperation : Obligations.StepRunsTheDecodedOperation := by
  refine ⟨fun s st rest i hscript hdecode => ?loaded, fun s hscript => ?drawn, fun s w hmap => ?placed⟩
  case loaded => rw [step_of_script s st rest hscript, runStimulus_of_decode st { s with script := rest } i hdecode]
  case drawn => rw [step_of_draw s hscript, step_of_script _ _ [] rfl, ← hscript]
  case placed =>
    obtain ⟨u, hcommand, hp2⟩ := exec_p2_of_p2Next { s.withFetchWord 8 w with script := s.script } rfl
    have hi : decodeCommand s.params.opcodes (opcodeOfWord 8 w) = decodeCommand defaultOpcodes (opcodeOfWord 8 w) :=
      congrArg (decodeCommand · _) hmap
    exact ⟨_, { s.withFetchWord 8 w with script := s.script }, u, decodeTableWord_eight w, rfl, hi ▸ hcommand,
      (step_of_script _ (.protocol .p2) s.script rfl).trans hp2⟩

/-- Settles O54: each of the operations tests its condition first. -/
theorem operationsNotEnabledDoNotHappen : Obligations.OperationsNotEnabledDoNotHappen := by
  intro s i b sec h
  obtain ⟨rfl, hno⟩ | ⟨rfl, hno⟩ | ⟨rfl, hno⟩ | ⟨hi, hno⟩ | ⟨rfl, hno⟩ | ⟨rfl, hno⟩ | ⟨rfl, hno⟩ | ⟨rfl, hno⟩ := h
  · exact congrArg Host.Outcome.next (if_neg (by simp [hno]))
  · exact congrArg Host.Outcome.next (if_neg (Bool.eq_false_iff.1 hno))
  · exact congrArg Host.Outcome.next (if_neg (Bool.eq_false_iff.1 hno))
  · simp only [List.mem_cons, List.not_mem_nil, or_false] at hi
    obtain rfl | rfl | rfl | rfl := hi <;> exact congrArg Host.Outcome.next (if_neg hno)
  all_goals exact congrArg Host.Outcome.next (if_neg hno)

end Sys2Proof.Machine
end

section
/-! Commands with a 16-bit parameter, whole protocol steps, and commands end to end (R171 to R174, R184 to R187, R196,
R302, R315). -/

namespace Sys2Proof.Machine

/-! ### The two bytes of a parameter -/

theorem cmdSetBlockSize_of_first (s : State) (h : s.davDsp = true) (hidx : s.currentCommandIndex = 0) :
    cmdSetBlockSize s = { s with davDsp := false, currentCommandIndex := 1, dmaBlockSize := lowParam s.inbox } := by
  rw [cmdSetBlockSize, withParam_of_pending s _ h, if_pos hidx, takeParam, hidx]
  rfl

theorem cmdSetBlockSize_of_later (s : State) (h : s.davDsp = true) (hidx : s.currentCommandIndex ≠ 0) :
    cmdSetBlockSize s = { s with
      davDsp := false
      currentCommandIndex := s.currentCommandIndex + 1
      dmaBlockSize := highParam s.inbox s.dmaBlockSize
      currentCommand := 0 } := by
  rw [cmdSetBlockSize, withParam_of_pending s _ h, if_neg hidx]
  rfl

/-- Settles O24: the command waits or consumes its byte, and the index tells the low byte from the high one. -/
theorem setBlockSizeAssemblesLowThenHigh : Obligations.SetBlockSizeAssemblesLowThenHigh := by
  intro s
  refine ⟨fun hnone => congrArg Host.Outcome.next (withParam_of_none s _ hnone), fun hpending => ?_⟩
  by_cases hidx : s.currentCommandIndex = 0
  case pos =>
    refine ⟨_, congrArg Host.Outcome.next (cmdSetBlockSize_of_first s hpending hidx), ?_, ?_⟩
    · rw [if_pos hidx, hidx]
      rfl
    · rw [if_pos hidx]
      exact lowParam_toNat s.inbox
  case neg =>
    refine ⟨_, congrArg Host.Outcome.next (cmdSetBlockSize_of_later s hpending hidx), ?_, ?_⟩
    · rw [if_neg hidx]
    · rw [if_neg hidx]
      exact highParam_toNat s.inbox s.dmaBlockSize

theorem cmdDmaSingle_of_first (s : State) (h : s.davDsp = true) (hidx : s.currentCommandIndex = 0) :
    cmdDmaSingle s =
      { s with davDsp := false, currentCommandIndex := 1, dmaSampleCount := lowParam s.inbox } := by
  rw [cmdDmaSingle, withParam_of_pending s _ h, if_pos hidx, takeParam, hidx]
  rfl

theorem cmdDmaSingle_of_later (s : State) (h : s.davDsp = true) (hidx : s.currentCommandIndex ≠ 0) :
    cmdDmaSingle s = { s with
      davDsp := false
      currentCommandIndex := s.currentCommandIndex + 1
      dmaSampleCount := highParam s.inbox s.dmaSampleCount
      dmaSampleCountRx := 0
      autoinit := false
      head := if s.dmaEnabled then s.head else s.tail
      dmaEnabled := true
      pacePending := if s.dmaEnabled then s.pacePending else some (s.dmaInterval.toNat : Int)
      currentCommand := 0 } := by
  rw [cmdDmaSingle, withParam_of_pending s _ h, if_neg hidx]
  exact congrArg finishCommand (paceEnable_eq _)

/-- Settles O25: the command waits, takes the low byte, or takes the high byte and starts the loop. -/
theorem dmaSingleAssemblesTheTargetAndStarts : Obligations.DmaSingleAssemblesTheTargetAndStarts := by
  intro s
  refine ⟨fun hnone => congrArg Host.Outcome.next (withParam_of_none s _ hnone), fun hpending hfirst => ?low,
    fun hpending hlater => ?high⟩
  case low =>
    exact ⟨_, congrArg Host.Outcome.next (cmdDmaSingle_of_first s hpending hfirst), rfl, lowParam_toNat s.inbox⟩
  case high =>
    exact ⟨_, congrArg Host.Outcome.next (cmdDmaSingle_of_later s hpending hlater), rfl,
      highParam_toNat s.inbox s.dmaSampleCount⟩

/-! ### A whole protocol step -/

theorem exec_pstep_whole (s : State) : exec (.pstep .whole) s = .next (protocolStep s) := rfl

theorem exec_p2 (s : State) (h : s.pollOp = .p2Next) :
    exec (.pstep (.phase .p2)) s = .next (protocolDispatch s) := congrArg Host.Outcome.next (if_pos h)

/-- Out of reset `P1` always goes on to `P2`. -/
theorem protocolEntry_pollOp_of_running (s : State) (h : s.resetState = false) :
    (protocolEntry s).pollOp = .p2Next := by
  rw [protocolEntry_of_running s h]
  split <;> rfl

/-- In reset a protocol step ends in `P1`, with nothing changed. -/
theorem protocolStep_of_reset (s : State) (hidle : s.pollOp = .idle) (h : s.resetState = true) :
    protocolStep s = s := by
  rw [protocolStep, if_pos hidle, protocolEntry_of_reset s h, ← hidle]
  exact if_neg (by rw [hidle]; decide)

theorem protocolStep_of_running (s : State) (hidle : s.pollOp = .idle) (h : s.resetState = false) :
    protocolStep s = protocolExit (protocolDispatch (protocolEntry s)) := by
  rw [protocolStep, if_pos hidle]
  exact if_pos (protocolEntry_pollOp_of_running s h)

/-- Settles O34: in reset the step ends in `P1`; otherwise each phase leaves the next one enabled. -/
theorem protocolStepIsItsThreePhases : Obligations.ProtocolStepIsItsThreePhases := by
  intro s hidle
  refine ⟨fun hreset => congrArg Host.Outcome.next (protocolStep_of_reset s hidle hreset), fun hrun => ?_⟩
  refine ⟨_, congrArg Host.Outcome.next (protocolStep_of_running s hidle hrun), ?phases, rfl, rfl⟩
  have hp2 := exec_p2 (protocolEntry s) (protocolEntry_pollOp_of_running s hrun)
  have hp3 := exec_p3_of_p3Next (protocolDispatch (protocolEntry s)) rfl
  simp only [runOps, exec_p1_of_idle s hidle, hp2, hp3]

/-- `P2` and `P3` in one equation: the command runs, and the step is over. -/
theorem protocolExit_protocolDispatch (s : State) :
    protocolExit (protocolDispatch s) =
      { runCommand (classify s.params.opcodes s.currentCommand) s.currentCommand s with
        dspBusy := false, pollOp := .idle } := rfl

/-- A step from `Idle` with a byte pending latches it and runs its command. -/
theorem protocolStep_of_latch (s : State) (hidle : s.pollOp = .idle) (hrun : s.resetState = false)
    (hfree : s.currentCommand = 0) (hpending : s.davDsp = true) :
    protocolStep s =
      { runCommand (classify s.params.opcodes s.inbox) s.inbox { s with
          dspBusy := true
          currentCommand := s.inbox
          currentCommandIndex := 0
          davDsp := false
          pollOp := .p2Next } with
        dspBusy := false, pollOp := .idle } := by
  rw [protocolStep_of_running s hidle hrun, protocolEntry_of_running s hrun, if_pos ⟨hpending, hfree⟩,
    protocolExit_protocolDispatch]

/-- A step inside a command runs it on. -/
theorem protocolStep_of_command (s : State) (hidle : s.pollOp = .idle) (hrun : s.resetState = false)
    (hbusy : s.currentCommand ≠ 0) :
    protocolStep s =
      { runCommand (classify s.params.opcodes s.currentCommand) s.currentCommand
          { s with dspBusy := true, pollOp := .p2Next } with
        dspBusy := false, pollOp := .idle } := by
  rw [protocolStep_of_running s hidle hrun, protocolEntry_of_running s hrun, if_neg fun h => hbusy h.2,
    protocolExit_protocolDispatch]

/-- Settles O31: `Idle` is the command of 0x00, so after the latch there is nothing to do. -/
theorem opcodeZeroIsConsumedWithoutEffect : Obligations.OpcodeZeroIsConsumedWithoutEffect := by
  intro s
  refine ⟨rfl, fun hidle hbusy hrun hfree hpending hzero => ?_⟩
  have hidleRow : classify s.params.opcodes s.inbox = .idle := hzero ▸ classify_zero _
  rw [exec_pstep_whole, protocolStep_of_latch s hidle hrun hfree hpending, hidleRow]
  simp [runCommand, cmdIdleZero, hidle, hbusy, hfree, hzero]

/-! ### The commands behind their opcodes -/

/-- Under a well-formed map no recognised opcode is 0x00. -/
theorem opcode_ne_zero (m : OpcodeMap) (hm : m.WellFormed) (b : Byte) (h : b ∈ m.values) : b ≠ 0 :=
  fun hzero => (List.nodup_cons.1 hm).1 (hzero ▸ h)

theorem classify_setBlockSize (m : OpcodeMap) (hm : m.WellFormed) : classify m m.setBlockSize = .setBlockSize :=
  classify_of_mem m hm _ _ (by simp [opcodeRows])

theorem classify_identify (m : OpcodeMap) (hm : m.WellFormed) : classify m m.identify = .identify :=
  classify_of_mem m hm _ _ (by simp [opcodeRows])

theorem classify_getVersion (m : OpcodeMap) (hm : m.WellFormed) : classify m m.getVersion = .getVersion :=
  classify_of_mem m hm _ _ (by simp [opcodeRows])

theorem classify_dmaAuto (m : OpcodeMap) (hm : m.WellFormed) : classify m m.dmaAuto = .dmaAuto :=
  classify_of_mem m hm _ _ (by simp [opcodeRows])

/-- Settles O38: in reset the step ends in `P1`; running, it latches nothing and Get Version waits for the host. -/
theorem getVersionHoldsTheMachine : Obligations.GetVersionHoldsTheMachine := by
  intro s hmap hidle hbusy hcommand hindex hunread
  rw [exec_pstep_whole]
  cases hreset : s.resetState with
  | true => rw [protocolStep_of_reset s hidle hreset]
  | false =>
    have hne : s.currentCommand ≠ 0 := hcommand ▸ opcode_ne_zero _ hmap _ (by simp [OpcodeMap.values])
    have hrow : classify s.params.opcodes s.currentCommand = .getVersion := by
      rw [hcommand]
      exact classify_getVersion _ hmap
    have hwait : cmdGetVersion { s with dspBusy := true, pollOp := .p2Next } =
        { s with dspBusy := true, pollOp := .p2Next } := by
      rw [cmdGetVersion_of_later _ (by simp [hindex]), if_pos hunread]
    rw [protocolStep_of_command s hidle hreset hne, hrow, runCommand, hwait]
    simp only [← hidle, ← hbusy]

/-- Settles O39: the Assert keeps the latched opcode and `P2` next, so the command starts the loop after it. -/
theorem assertInsideAStepDoesNotStopItsCommand : Obligations.AssertInsideAStepDoesNotStopItsCommand := by
  intro s hmap hidle hrun hfree hpending hinbox
  have hassert : exec (.portResetWr 1) (protocolEntry s) = .next (resetAssert (protocolEntry s)) :=
    congrArg Host.Outcome.next (afterResetWrite_one _)
  have hp2 := exec_p2 (resetAssert (protocolEntry s))
    ((resetAssert_pollOp _).trans (protocolEntry_pollOp_of_running s hrun))
  have hp3 := exec_p3_of_p3Next (protocolDispatch (resetAssert (protocolEntry s))) rfl
  have hlatched : (protocolEntry s).currentCommand = s.params.opcodes.dmaAuto := by
    rw [protocolEntry_of_running s hrun, if_pos ⟨hpending, hfree⟩]
    exact hinbox
  refine ⟨protocolExit (protocolDispatch (resetAssert (protocolEntry s))), ?run, ?ends⟩
  case run => simp only [runOps, exec_p1_of_idle s hidle, hassert, hp2, hp3]
  case ends =>
    rw [protocolExit_protocolDispatch, resetAssert_params, resetAssert_currentCommand, protocolEntry_params, hlatched,
      classify_dmaAuto _ hmap]
    simp [runCommand, cmdDmaAuto]

/-! ### Commands end to end -/

/-- A byte written to a free port, and the protocol step that follows it. -/
theorem runOps_writeAndStep (b : Byte) (ops : List Instr) (s : State) (hfree : s.davDsp = false) :
    runOps (.portWriteWr b :: .pstep .whole :: ops) s =
      runOps ops (protocolStep { s with inbox := b, davDsp := true }) := by
  rw [runOps, exec_portWriteWr_of_free b s (Bool.eq_false_iff.1 hfree)]
  rfl

/-- The opcode of a command that waits for a parameter, written to the idle machine, is latched and no more. -/
theorem runOps_writeAndStep_opcode (b : Byte) (ops : List Instr) (s : State) (hdav : s.davDsp = false)
    (hidle : s.pollOp = .idle) (hrun : s.resetState = false) (hfree : s.currentCommand = 0)
    (hwait : ∀ t, t.davDsp = false → runCommand (classify s.params.opcodes b) b t = t) :
    runOps (.portWriteWr b :: .pstep .whole :: ops) s = runOps ops { s with
      inbox := b
      davDsp := false
      dspBusy := false
      currentCommand := b
      currentCommandIndex := 0
      pollOp := .idle } := by
  rw [runOps_writeAndStep b ops s hdav,
    protocolStep_of_latch { s with inbox := b, davDsp := true } hidle hrun hfree rfl]
  dsimp only
  rw [hwait _ rfl]

/-- A parameter byte written for the command in progress is there when its rule runs. -/
theorem runOps_writeAndStep_param (v : Byte) (ops : List Instr) (s t : State) (hdav : s.davDsp = false)
    (hidle : s.pollOp = .idle) (hrun : s.resetState = false) (hbusy : s.currentCommand ≠ 0)
    (hcommand : runCommand (classify s.params.opcodes s.currentCommand) s.currentCommand
      { s with inbox := v, davDsp := true, dspBusy := true, pollOp := .p2Next } = t) :
    runOps (.portWriteWr v :: .pstep .whole :: ops) s = runOps ops { t with dspBusy := false, pollOp := .idle } := by
  rw [runOps_writeAndStep v ops s hdav, ← hcommand]
  exact congrArg (runOps ops) (protocolStep_of_command { s with inbox := v, davDsp := true } hidle hrun hbusy)

/-- Where nothing is pending, in progress or next, writing so changes nothing. -/
theorem idle_update_self (s : State) (hidle : s.pollOp = .idle) (hfree : s.currentCommand = 0)
    (hdav : s.davDsp = false) : { s with davDsp := false, currentCommand := 0, pollOp := .idle } = s := by
  rw [← hidle, ← hfree, ← hdav]

/-- Settles O36: the opcode is latched and waits, the low byte is stored, the high byte completes the command. -/
theorem threeBytesProgramTheBlockSize : Obligations.ThreeBytesProgramTheBlockSize := by
  intro s lo hi hmap hidle hrun hfree hdav
  have hcommand : ∀ t, runCommand (classify s.params.opcodes s.params.opcodes.setBlockSize)
      s.params.opcodes.setBlockSize t = cmdSetBlockSize t := by
    rw [classify_setBlockSize _ hmap]
    exact fun _ => rfl
  have hne := opcode_ne_zero _ hmap s.params.opcodes.setBlockSize (by simp [OpcodeMap.values])
  have hwait : ∀ t, t.davDsp = false → runCommand (classify s.params.opcodes s.params.opcodes.setBlockSize)
      s.params.opcodes.setBlockSize t = t := fun t ht => (hcommand t).trans (withParam_of_none t _ ht)
  have hsteps : runOps (commandOps [s.params.opcodes.setBlockSize, lo, hi]) s = _ :=
    Eq.trans (runOps_writeAndStep_opcode _ _ s hdav hidle hrun hfree hwait) <|
    Eq.trans (runOps_writeAndStep_param lo _ _ _ rfl rfl hrun hne
      ((hcommand _).trans (cmdSetBlockSize_of_first _ rfl rfl))) <|
    runOps_writeAndStep_param hi [] _ _ rfl rfl hrun hne
      ((hcommand _).trans (cmdSetBlockSize_of_later _ rfl (show (1 : BitVec 8) ≠ 0 by decide)))
  refine ⟨{ s with
    inbox := hi, currentCommandIndex := 2, dspBusy := false, dmaBlockSize := highParam hi (lowParam lo) },
    hsteps.trans ?kept, rfl, ?value⟩
  case kept =>
    exact congrArg (fun t : State => Host.Outcome.next { t with
      inbox := hi, currentCommandIndex := 2, dspBusy := false, dmaBlockSize := highParam hi (lowParam lo) })
      (idle_update_self s hidle hfree hdav)
  case value =>
    have := lo.isLt
    simp only [highParam_toNat, lowParam_toNat]
    omega

/-- Settles O37: the opcode is latched and waits, the byte is answered, and the two reads give the status and it. -/
theorem identifyEndToEnd : Obligations.IdentifyEndToEnd := by
  intro s v hmap hidle hrun hfree hdav
  have hcommand : ∀ t, runCommand (classify s.params.opcodes s.params.opcodes.identify) s.params.opcodes.identify t =
      cmdIdentify t := by
    rw [classify_identify _ hmap]
    exact fun _ => rfl
  have hne := opcode_ne_zero _ hmap s.params.opcodes.identify (by simp [OpcodeMap.values])
  have hwait : ∀ t, t.davDsp = false → runCommand (classify s.params.opcodes s.params.opcodes.identify)
      s.params.opcodes.identify t = t := fun t ht => (hcommand t).trans (withParam_of_none t _ ht)
  exact ⟨_, _, Eq.trans (runOps_writeAndStep_opcode _ _ s hdav hidle hrun hfree hwait) <|
    runOps_writeAndStep_param v [.portRstatusRd] _ _ rfl rfl hrun hne
      ((hcommand _).trans (withParam_of_pending _ _ rfl)),
    rfl, rfl, rfl, rfl, rfl⟩

end Sys2Proof.Machine
end

section
/-! The rates and the length of a frame (R183, R213, R218): the ranges after Set Time Constant, and why the loop always
ends past the pulled bytes. -/

namespace Sys2Proof.Machine

/-! ### Ranges -/

/-- The step reaches one byte per sample exactly when the input rate reaches the output rate (R183). -/
theorem one_le_stepOf_iff (sampleRate outputRate : Nat) (h : 1 ≤ outputRate) :
    65536 ≤ stepOf sampleRate outputRate ↔ outputRate ≤ sampleRate := by
  rw [stepOf, Nat.le_div_iff_mul_le (by omega)]
  simp only [Config.fracBits]
  omega

theorem stepOf_rateOf_le (v : Byte) (outputRate : Nat) : stepOf (rateOf v) outputRate ≤ 65536000000 := by
  have hstep := stepOf_le (rateOf v) outputRate
  have hrate := rateOf_le v
  omega

/-- Settles O23: each register holds its formula, and the formulas stay in their ranges. -/
theorem ratesStayInTheirRanges : Obligations.RatesStayInTheirRanges := by
  intro s hpending hlow hbound
  refine ⟨_, congrArg Host.Outcome.next (withParam_of_pending s _ hpending), ?_⟩
  have hfactor := setTimeConstant_sampleFactor_toNat s.inbox (takeParam s) hbound
  simp only [finishCommand_sampleRate, finishCommand_dmaInterval, finishCommand_sampleStep, finishCommand_sampleFactor,
    setTimeConstant_sampleRate_toNat, setTimeConstant_dmaInterval_toNat, setTimeConstant_sampleStep_toNat, hfactor]
  exact ⟨le_rateOf _, rateOf_le _, intervalOf_rateOf _, le_stepOf _ _ (le_rateOf _) hlow hbound,
    stepOf_rateOf_le _ _, Nat.le_add_left _ _, factorOf_le _ _ (le_rateOf _) hbound, one_le_stepOf_iff _ _ hlow⟩

/-- After a Set Time Constant step and factor are the formulas of R182 on the rate of `time_constant`. -/
theorem RatesSet.step_factor (s : State) (h : RatesSet s) :
    s.sampleStep.toNat = stepOf (rateOf s.timeConstant) s.params.outputRate ∧
      s.sampleFactor.toNat = factorOf (rateOf s.timeConstant) s.params.outputRate := by
  obtain ⟨hrate, -, hstep, hfactor⟩ := h
  rw [hrate] at hstep hfactor
  exact ⟨hstep, hfactor⟩

/-! ### The position against the pulled bytes -/

/-- The margin in the factor: one sample fewer than the factor already steps over a whole byte. -/
theorem byte_le_factor_mul_step (sampleRate outputRate : Nat) (hrate : 3906 ≤ sampleRate) (hlow : 1 ≤ outputRate)
    (hbound : outputRate < 2 ^ 20) :
    65536 ≤ (factorOf sampleRate outputRate - 1) * stepOf sampleRate outputRate := by
  have hstep := le_stepOf sampleRate outputRate hrate hlow hbound
  have hfactor := factorOf_le sampleRate outputRate hrate hbound
  have hquot : outputRate < sampleRate * (outputRate / sampleRate + 1) := Nat.lt_mul_div_succ _ (by omega)
  have hnum : sampleRate * 65536 < outputRate * (stepOf sampleRate outputRate + 1) :=
    Nat.lt_mul_div_succ _ (by omega)
  rw [factorOf, Config.factorMargin] at hfactor ⊢
  generalize outputRate / sampleRate = q at *
  generalize stepOf sampleRate outputRate = step at *
  have hprod : 65536 < (q + 1) * (step + 1) := by
    refine Nat.lt_of_mul_lt_mul_left (a := sampleRate) (hnum.trans_le ?_)
    rw [← Nat.mul_assoc]
    exact Nat.mul_le_mul_right _ hquot.le
  have hfour : (q + 5 - 1) * step = (q + 1) * (step + 1) + 3 * step - (q + 1) := by
    rw [show q + 5 - 1 = q + 1 + 3 from rfl, Nat.add_mul, Nat.mul_succ]
    omega
  omega

/-- The position of a sample is at least the whole bytes its steps add up to, while they do not wrap. -/
theorem div_le_sourceIndex (s : State) (j : Nat) (h : j * s.sampleStep.toNat < 2 ^ 60) :
    j * s.sampleStep.toNat / 65536 ≤ sourceIndex s j := by
  have := s.sampleOffset.isLt
  rw [sourceIndex]
  omega

/-- After a Set Time Constant, the samples of a frame stay clear of a wrap of the position. -/
theorem RatesSet.steps_lt (s : State) (h : RatesSet s) (j : Nat) (hj : j ≤ 1092) :
    j * s.sampleStep.toNat < 2 ^ 60 := by
  rw [h.step_factor.1]
  have hstep := stepOf_rateOf_le s.timeConstant s.params.outputRate
  calc j * stepOf (rateOf s.timeConstant) s.params.outputRate ≤ 1092 * 65536000000 := Nat.mul_le_mul hj hstep
    _ < 2 ^ 60 := by norm_num

/-- R218: after a Set Time Constant the loop ends before its limit, past the pulled bytes, and within 1075 samples. -/
theorem primarySamples_length_of_ratesSet (s : State) (hlow : 1 ≤ s.params.outputRate)
    (hbound : s.params.outputRate < 2 ^ 20) (hrates : RatesSet s) (hn : 0 < s.n.val) :
    (primarySamples s).1.length < s.n.val * s.sampleFactor.toNat ∧
      s.n.val ≤ sourceIndex s (primarySamples s).1.length ∧ (primarySamples s).1.length ≤ 1075 := by
  obtain ⟨hstep, hfactor⟩ := hrates.step_factor
  have hrate := le_rateOf s.timeConstant
  have hmin := hstep ▸ le_stepOf _ _ hrate hlow hbound
  have hmax := hfactor ▸ factorOf_le _ _ hrate hbound
  have hbyte : 65536 ≤ (s.sampleFactor.toNat - 1) * s.sampleStep.toNat :=
    hfactor ▸ hstep ▸ byte_le_factor_mul_step _ _ hrate hlow hbound
  have hn4 : s.n.val ≤ 4 := Nat.le_of_lt_succ s.n.isLt
  obtain ⟨hlen, -, hsamples, hend⟩ := primarySamples_spec s hn (primarySamples s).1 (primarySamples s).2 rfl
  have hinside : ∀ j, j < (primarySamples s).1.length → sourceIndex s j < s.n.val := fun j hj => by
    obtain ⟨k, hk, hidx, -⟩ := hsamples j hj
    exact hidx ▸ hk
  have hfpos : 1 ≤ s.sampleFactor.toNat := Nat.pos_of_ne_zero fun hzero => by simp [hzero] at hbyte
  have hlimit : s.n.val * s.sampleFactor.toNat ≤ 1092 := Nat.mul_le_mul hn4 hmax
  have hbefore : (primarySamples s).1.length < s.n.val * s.sampleFactor.toNat := by
    refine Nat.lt_of_le_of_ne hlen fun htruncated => ?_
    have hpos : 0 < s.n.val * s.sampleFactor.toNat := Nat.mul_pos hn hfpos
    have hlast := hinside (s.n.val * s.sampleFactor.toNat - 1) (by omega)
    have hbytes : s.n.val * 65536 ≤ (s.n.val * s.sampleFactor.toNat - 1) * s.sampleStep.toNat :=
      calc s.n.val * 65536 ≤ s.n.val * ((s.sampleFactor.toNat - 1) * s.sampleStep.toNat) :=
            Nat.mul_le_mul_left _ hbyte
        _ = (s.n.val * (s.sampleFactor.toNat - 1)) * s.sampleStep.toNat := (Nat.mul_assoc ..).symm
        _ ≤ _ := Nat.mul_le_mul_right _ (by rw [Nat.mul_sub_one]; omega)
    have hpast := div_le_sourceIndex s _ (hrates.steps_lt s (s.n.val * s.sampleFactor.toNat - 1) (by omega))
    omega
  refine ⟨hbefore, hend.resolve_left hbefore.ne, Nat.le_of_not_lt fun hlong => ?_⟩
  have hlast := hinside 1075 hlong
  have hpast := div_le_sourceIndex s _ (hrates.steps_lt s 1075 (by omega))
  omega

end Sys2Proof.Machine
end

section
/-! The phases of a frame (R211 to R219): the whole state each leaves, and the whole frame. -/

namespace Sys2Proof.Machine

/-! ### Where a phase runs -/

theorem exec_f1_of_idle (s : State) (h : s.pollOp = .idle) :
    exec (.frame (.phase .f1)) s = .next (frameEntry s) := congrArg Host.Outcome.next (if_pos h)

theorem exec_f2_of_ready (s : State) (h : s.pollOp = .f2Next) (hready : pullReady s = true) :
    exec (.frame (.phase .f2)) s = .next (framePull s) :=
  congrArg Host.Outcome.next ((if_pos h).trans (if_pos hready))

theorem exec_f2_of_held (s : State) (h : s.pollOp = .f2Next) (hheld : pullReady s = false) :
    exec (.frame (.phase .f2)) s = .next (failedPoll s) :=
  congrArg Host.Outcome.next ((if_pos h).trans (if_neg (Bool.eq_false_iff.1 hheld)))

theorem exec_f3_of_f3Next (s : State) (sec : List Sample) (h : s.pollOp = .f3Next) :
    exec (.frame (.phase (.f3 sec))) s = .next (frameMix sec s) := congrArg Host.Outcome.next (if_pos h)

/-! ### The pull -/

theorem framePull_of_disarmed (s : State) (h : s.pullArmed = false) : framePull s = { s with pollOp := .f3Next } :=
  congrArg (fun t : State => { t with pollOp := .f3Next }) (if_neg (Bool.eq_false_iff.1 h))

theorem framePull_of_armed (s : State) (h : s.pullArmed = true) : framePull s = { pull s with pollOp := .f3Next } :=
  congrArg (fun t : State => { t with pollOp := .f3Next }) (if_pos h)

/-- Nothing is pulled from an empty FIFO. -/
theorem pull_of_empty (s : State) (h : fifoLevel s = 0) : pull s = { s with n := 0 } := by
  have hcount : popCount s Config.pullMax = 0 := by rw [popCount, h, Nat.zero_min]
  have hpop : fifoPopInto Config.pullMax s = s := by simp [fifoPopInto, hcount, advanceHead]
  have hn : (pull s).n = 0 := Fin.ext (by rw [pull_n, h]; rfl)
  calc pull s = { fifoPopInto Config.pullMax s with n := (pull s).n } := rfl
    _ = { s with n := 0 } := by rw [hpop, hn]

/-- A byte that waits lifts the hold. -/
theorem pullReady_of_ne (s : State) (h : s.head ≠ s.tail) : pullReady s = true :=
  (pullReady_iff s).2 (.inr (.inl (Nat.pos_of_ne_zero (mt (fifoLevel_eq_zero s).1 h))))

/-- Armed with an empty FIFO, only the wait limit can lift the hold. -/
theorem pullReady_of_empty (s : State) (harmed : s.pullArmed = true) (hempty : s.head = s.tail) :
    pullReady s = waitOver s := by
  rw [pullReady, harmed, (fifoLevel_eq_zero s).2 hempty]
  rfl

theorem failedPoll_of_unbounded (s : State) (h : s.params.mixWaitLimit = none) :
    failedPoll s = { s with answer := .notEnabled } := by
  rw [failedPoll, h]
  rfl

theorem failedPoll_of_bounded (s : State) (limit : Nat) (h : s.params.mixWaitLimit = some limit) :
    failedPoll s = { s with waitPolls := s.waitPolls + 1 } := by
  rw [failedPoll, h]

/-- Settles O40: `F1` tests only that it is next; `F2` is ready in both cases, and pulls when armed. -/
theorem frameSamplesTheEnableAndPulls : Obligations.FrameSamplesTheEnableAndPulls := by
  intro s
  refine ⟨fun hidle => exec_f1_of_idle s hidle, fun hnext hoff => ?pass, fun hnext harmed hbytes => ?pull⟩
  case pass => rw [exec_f2_of_ready s hnext ((pullReady_iff s).2 (.inl hoff)), framePull_of_disarmed s hoff]
  case pull =>
    have hlevel : 1 ≤ fifoLevel s := Nat.pos_of_ne_zero (mt (fifoLevel_eq_zero s).1 hbytes)
    refine ⟨framePull s, _, exec_fifoPopInto 4 s, exec_f2_of_ready s hnext (pullReady_of_ne s hbytes), ?_⟩
    rw [framePull_of_armed s harmed, ← fifoLevel_eq]
    exact ⟨rfl, rfl, le_min hlevel (by decide)⟩

/-- Settles O41: the hold is the wait limit's (`pullReady_of_empty`), and nothing is pulled when it is lifted. -/
theorem anEmptyFifoHoldsTheFrame : Obligations.AnEmptyFifoHoldsTheFrame := by
  intro s hnext harmed hempty
  have hready := pullReady_of_empty s harmed hempty
  refine ⟨fun hnone => ?held, fun limit hlimit => ⟨fun hbelow => ?poll, fun hover => ?lifted⟩⟩
  case held =>
    rw [exec_f2_of_held s hnext (hready.trans (waitOver_unbounded s hnone)), failedPoll_of_unbounded s hnone]
  case poll =>
    rw [waitOver_bounded s limit hlimit, decide_eq_false (Nat.not_le.2 hbelow)] at hready
    rw [exec_f2_of_held s hnext hready, failedPoll_of_bounded s limit hlimit]
  case lifted =>
    rw [waitOver_bounded s limit hlimit, decide_eq_true hover] at hready
    rw [exec_f2_of_ready s hnext hready, framePull_of_armed s harmed,
      pull_of_empty s ((fifoLevel_eq_zero s).2 hempty)]

/-! ### The mix -/

/-- `F3` with samples produced. -/
theorem frameMix_of_samples (s : State) (sec : List Sample) (h : 1 ≤ (primarySamples s).1.length) :
    frameMix sec s = { s with
      sampleOffset := (primarySamples s).2
      frameCount := (primarySamples s).1.length
      frame := mix (stereo (primarySamples s).1) (secondaryFill (2 * (primarySamples s).1.length) sec)
      pollOp := .idle } := by
  simp only [frameMix, orSilence_of_ne_nil _ (List.length_pos_iff.1 h), deliver]

/-- `F3` without samples: the one silent sample plus the secondary values. -/
theorem frameMix_of_none (s : State) (sec : List Sample) (h : s.n.val = 0 ∨ s.sampleFactor.toNat = 0) :
    frameMix sec s = { s with frameCount := 1, frame := [sec.getD 0 0, sec.getD 1 0], pollOp := .idle } := by
  have hmix : mix (stereo [0]) (secondaryFill 2 sec) = [sec.getD 0 0, sec.getD 1 0] := by
    match sec with
    | [] => rfl
    | [x] => simp [stereo, secondaryFill, mix]
    | x :: y :: rest => simp [stereo, secondaryFill, mix]
  rw [frameMix, primarySamples_none s h, ← hmix]
  rfl

/-- Settles O43: the loop gives nothing (`frameMix_of_none`). -/
theorem nothingToPlayGivesOneSilentSample : Obligations.NothingToPlayGivesOneSilentSample := by
  intro s sec hnext hnone
  rw [exec_f3_of_f3Next s sec hnext, frameMix_of_none s sec hnone]

/-- Sample `j` on both channels, with the secondary values added. -/
theorem mixed_getElem? (samples sec : List Sample) (j : Nat) (x : Sample) (hx : samples[j]? = some x) :
    (mix (stereo samples) (secondaryFill (2 * samples.length) sec))[2 * j]? = some (x + sec.getD (2 * j) 0) ∧
      (mix (stereo samples) (secondaryFill (2 * samples.length) sec))[2 * j + 1]? =
        some (x + sec.getD (2 * j + 1) 0) := by
  obtain ⟨hj, -⟩ := List.getElem?_eq_some_iff.1 hx
  obtain ⟨hleft, hright⟩ := stereo_getElem? samples j
  exact ⟨mix_getElem? _ _ _ _ _ (hleft.trans hx) (secondaryFill_getElem? _ _ _ (by omega)),
    mix_getElem? _ _ _ _ _ (hright.trans hx) (secondaryFill_getElem? _ _ _ (by omega))⟩

/-- The wrapped sum of a byte as PCM and a secondary value, as one conversion. -/
theorem pcm_add (b : Byte) (y : Sample) :
    pcm b + y = BitVec.ofInt 16 (((b.toNat : Int) - 128) * 256 + y.toInt) := by
  rw [BitVec.ofInt_add, BitVec.ofInt_toInt, pcm]

/-- Settles O42: the loop's own rule (`primarySamples_spec`) gives positions, bytes and end; each sample then stands on
both channels with the secondary values added. -/
theorem frameResamplesAndMixes : Obligations.FrameResamplesAndMixes := by
  intro s sec hnext hn hfactor
  have hpos := primarySamples_pos s hn hfactor
  obtain ⟨hlen, hfinal, hsamples, hend⟩ := primarySamples_spec s hn (primarySamples s).1 (primarySamples s).2 rfl
  refine ⟨frameMix sec s, exec_f3_of_f3Next s sec hnext, ?_⟩
  rw [frameMix_of_samples s sec hpos]
  refine ⟨by rw [hfinal], hpos, hlen, mixed_length _ sec, fun j hj => ?sample, hend⟩
  case sample =>
    obtain ⟨idx, hbelow, hidx, hj⟩ := hsamples j hj
    have hmixed := mixed_getElem? _ sec j _ hj
    rw [pcm_add, pcm_add] at hmixed
    exact ⟨idx, hidx, hbelow, hmixed⟩

/-- Settles O44: the delivered count is the number of samples of the loop (`primarySamples_length_of_ratesSet`). -/
theorem theLoopLimitNeverTruncatesAFrame : Obligations.TheLoopLimitNeverTruncatesAFrame := by
  intro s t sec hlow hbound hrates hnext hn hstep
  have hfactor : 0 < s.sampleFactor.toNat := by
    obtain ⟨-, -, -, h⟩ := hrates
    exact h ▸ Nat.succ_pos _
  rw [exec_f3_of_f3Next s sec hnext, frameMix_of_samples s sec (primarySamples_pos s hn hfactor)] at hstep
  cases hstep
  exact primarySamples_length_of_ratesSet s hlow hbound hrates hn

/-! ### The whole frame -/

/-- The wait of a frame in which `F2` is not held takes no time. -/
theorem waitAlone_of_ready (s : State) (h : pullReady s = true) : waitAlone s = s := by
  unfold waitAlone
  split
  · rfl
  · exact if_pos h

/-- Armed with an empty FIFO and no poll counted yet, the wait alone runs to the limit. -/
theorem waitAlone_of_bounded (s : State) (limit : Nat) (hlimit : s.params.mixWaitLimit = some limit)
    (harmed : s.pullArmed = true) (hempty : s.head = s.tail) (hpolls : s.waitPolls = 0) :
    waitAlone s = { s with waitPolls := limit } := by
  rw [waitAlone, hlimit]
  dsimp only
  split
  next hready =>
    rw [pullReady_of_empty s harmed hempty, waitOver_bounded s limit hlimit, decide_eq_true_iff, hpolls] at hready
    rw [Nat.le_zero.1 hready, ← hpolls]
  next => rfl

theorem waitAlone_of_unbounded (s : State) (h : s.params.mixWaitLimit = none) : waitAlone s = s := by
  rw [waitAlone, h]

theorem exec_frame_whole_of_ready (s : State) (sec : List Sample) (hidle : s.pollOp = .idle)
    (hready : pullReady (waitAlone (frameEntry s)) = true) :
    exec (.frame (.whole sec)) s = .next (frameMix sec (framePull (waitAlone (frameEntry s)))) :=
  congrArg Host.Outcome.next ((if_pos hidle).trans (if_pos hready))

theorem exec_frame_whole_of_held (s : State) (sec : List Sample) (hidle : s.pollOp = .idle)
    (hheld : pullReady (waitAlone (frameEntry s)) = false) :
    exec (.frame (.whole sec)) s = .next (failedPoll (waitAlone (frameEntry s))) :=
  congrArg Host.Outcome.next ((if_pos hidle).trans (if_neg (Bool.eq_false_iff.1 hheld)))

/-- Polls of a held `F2` within the limit are counted one by one. -/
theorem runOps_failedPolls (k limit : Nat) (ops : List Instr) (s : State) (hnext : s.pollOp = .f2Next)
    (harmed : s.pullArmed = true) (hempty : s.head = s.tail) (hlimit : s.params.mixWaitLimit = some limit)
    (hk : s.waitPolls + k ≤ limit) :
    runOps (List.replicate k (.frame (.phase .f2)) ++ ops) s = runOps ops { s with waitPolls := s.waitPolls + k } := by
  induction k generalizing s with
  | zero => rfl
  | succ k ih =>
    have hheld : pullReady s = false := by
      rw [pullReady_of_empty s harmed hempty, waitOver_bounded s limit hlimit]
      exact decide_eq_false (by omega)
    have hpoll := (exec_f2_of_held s hnext hheld).trans
      (congrArg Host.Outcome.next (failedPoll_of_bounded s limit hlimit))
    rw [List.replicate_succ, List.cons_append, runOps, hpoll]
    refine (ih { s with waitPolls := s.waitPolls + 1 } hnext harmed hempty hlimit (by dsimp only; omega)).trans ?_
    dsimp only
    rw [Nat.add_right_comm, Nat.add_assoc]

/-- The state before an armed `F2` whose wait on an empty FIFO has run to its limit. -/
def waitedOut (limit : Nat) (s : State) : State := { frameEntry s with waitPolls := limit }

/-- The wait over, the hold is lifted and nothing is pulled. -/
theorem framePull_waitedOut (limit : Nat) (s : State) (hon : s.dmaEnabled = true) (hempty : s.head = s.tail)
    (hlimit : s.params.mixWaitLimit = some limit) :
    pullReady (waitedOut limit s) = true ∧
      framePull (waitedOut limit s) = { waitedOut limit s with n := 0, pollOp := .f3Next } := by
  constructor
  · rw [pullReady_of_empty (waitedOut limit s) hon hempty, waitOver_bounded (waitedOut limit s) limit hlimit]
    exact decide_eq_true le_rfl
  · rw [framePull_of_armed (waitedOut limit s) hon, pull_of_empty _ ((fifoLevel_eq_zero (waitedOut limit s)).2 hempty)]

/-- Settles O45: where `F2` is ready after `F1` the phases follow one another; held under a limit the whole form counts
the polls at once that `runOps_failedPolls` counts one by one; without a limit it stops there. -/
theorem frameIsItsThreePhases : Obligations.FrameIsItsThreePhases := by
  intro s sec hidle
  refine ⟨fun hflows => ?flows, fun hon hempty limit hlimit => ?bounded, fun hon hempty hnone => ?unbounded⟩
  case flows =>
    have hready : pullReady (frameEntry s) = true := hflows.elim
      (fun hoff => (pullReady_iff _).2 (.inl hoff)) (fun hbytes => pullReady_of_ne (frameEntry s) hbytes)
    have hwait := waitAlone_of_ready _ hready
    refine ⟨frameMix sec (framePull (frameEntry s)), ?whole, ?phases, rfl⟩
    case whole => rw [exec_frame_whole_of_ready s sec hidle (hwait.symm ▸ hready), hwait]
    case phases =>
      simp only [runOps, exec_f1_of_idle s hidle, exec_f2_of_ready (frameEntry s) rfl hready,
        exec_f3_of_f3Next (framePull (frameEntry s)) sec rfl]
  case bounded =>
    have hwait : waitAlone (frameEntry s) = waitedOut limit s :=
      waitAlone_of_bounded (frameEntry s) limit hlimit hon hempty rfl
    obtain ⟨hready, hpull⟩ := framePull_waitedOut limit s hon hempty hlimit
    refine ⟨frameMix sec (framePull (waitedOut limit s)), ?whole, ?phases, ?state⟩
    case whole => rw [exec_frame_whole_of_ready s sec hidle (hwait.symm ▸ hready), hwait]
    case phases =>
      have hpolls : ∀ ops, runOps (List.replicate limit (.frame (.phase .f2)) ++ ops) (frameEntry s) =
          runOps ops (waitedOut limit s) := fun ops => by
        rw [runOps_failedPolls limit limit ops (frameEntry s) rfl hon hempty hlimit (Nat.zero_add limit).le,
          frameEntry_waitPolls, Nat.zero_add, waitedOut]
      rw [List.replicate_succ', List.cons_append, List.append_assoc, runOps, exec_f1_of_idle s hidle]
      dsimp only
      rw [hpolls]
      simp only [List.cons_append, List.nil_append, runOps, exec_f2_of_ready (waitedOut limit s) rfl hready,
        exec_f3_of_f3Next (framePull (waitedOut limit s)) sec rfl]
    case state => rw [hpull, frameMix_of_none _ sec (.inl rfl), waitedOut, frameEntry, ← hon, ← hidle]
  case unbounded =>
    have hwait := waitAlone_of_unbounded (frameEntry s) hnone
    have hheld : pullReady (frameEntry s) = false := by
      rw [pullReady_of_empty (frameEntry s) hon hempty, waitOver_unbounded (frameEntry s) hnone]
    rw [exec_frame_whole_of_held s sec hidle (hwait.symm ▸ hheld), hwait, failedPoll_of_unbounded (frameEntry s) hnone,
      frameEntry, hon]

end Sys2Proof.Machine
end

section
/-! The invariant (R45): the reset state meets it, each shared operation keeps it, and so does every atomic step. -/

namespace Sys2Proof.Machine

/-! ### The bytes a pop can read -/

/-- Every byte from `head` on, as many as wait, has been written (R35). -/
def WindowWritten (s : State) : Prop :=
  ∀ k, k < fifoLevel s → ∃ v, Memory.read s.fifo (s.head + BitVec.ofNat 10 k).toNat = some v

theorem windowWritten_of_empty (s : State) (h : fifoLevel s = 0) : WindowWritten s :=
  fun k hk => absurd (h ▸ hk) (Nat.not_lt_zero k)

/-- A push writes the one place by which the window grows. -/
theorem windowWritten_fifoPush (b : Byte) (s : State) (h : WindowWritten s) : WindowWritten (fifoPush b s) := by
  by_cases hfull : fifoLevel s = 1023
  · exact windowWritten_of_empty _ (by rw [fifoLevel_fifoPush, if_pos hfull])
  · intro k hk
    rw [fifoLevel_fifoPush, if_neg hfull] at hk
    rw [fifoPush_fifo, fifoPush_head, memory_read_write]
    split
    next => exact ⟨b, rfl⟩
    next hold =>
      refine h k (Nat.lt_of_le_of_ne (Nat.le_of_lt_succ hk) fun hlast => hold ?_)
      rw [hlast, head_add_fifoLevel]

/-- A pop moves the window's start inside it. -/
theorem windowWritten_fifoPopInto (maxLen : Nat) (s : State) (h : WindowWritten s) :
    WindowWritten (fifoPopInto maxLen s) := by
  intro k hk
  rw [fifoLevel_fifoPopInto] at hk
  obtain ⟨v, hv⟩ := h (popCount s maxLen + k) (by rw [popCount]; omega)
  rw [BitVec.ofNat_add, ← BitVec.add_assoc] at hv
  exact ⟨v, hv⟩

/-! ### Power-on -/

theorem inv_powerOn (s : State) (hparams : s.params.WellFormed) : Inv (powerOn s) where
  parameters := hparams
  storage := reset_fifo_wf
  window := windowWritten_of_empty _ ((fifoLevel_eq_zero (powerOn s)).2 rfl)
  trim := .inr (.inl rfl)
  rates := .inl ⟨rfl, rfl, rfl, rfl⟩
  pendingEnabled := fun hpending => absurd rfl hpending
  pendingRange := nofun
  busy := ⟨nofun, nofun⟩
  command := .inr (.inl rfl)
  index := ⟨Nat.zero_le _, fun hne => absurd rfl hne⟩
  frameSize := ⟨rfl, Nat.zero_le _⟩
  polls := fun _ _ => Nat.zero_le _

/-- The free output rate is one of R9, whatever it is. -/
theorem initialParams_wellFormed : initialParams.WellFormed :=
  ⟨Nat.le_add_left 1 _, Nat.succ_lt_succ Config.outputRateLessOne.isLt, defaultOpcodes_wellFormed,
    defaultPorts_wellFormed⟩

/-- Settles O51: the reset state is the one power-on gives the initial parameters. -/
theorem resetMeetsTheInvariant : Obligations.ResetMeetsTheInvariant :=
  inv_powerOn State.reset initialParams_wellFormed

/-! ### The FIFO -/

theorem inv_fifoPush (b : Byte) (s : State) (h : Inv s) : Inv (fifoPush b s) := by
  have hstorage := fifoPush_wf s h.storage b
  have hwindow := windowWritten_fifoPush b s h.window
  rw [fifoPush_eq] at hstorage hwindow ⊢
  exact { h with storage := hstorage, window := hwindow }

theorem inv_fifoPopInto (maxLen : Nat) (s : State) (h : Inv s) : Inv (fifoPopInto maxLen s) :=
  { h with window := windowWritten_fifoPopInto maxLen s h.window }

theorem inv_fifoClear (s : State) (h : Inv s) : Inv (fifoClear s) :=
  { h with window := windowWritten_of_empty _ (fifoLevel_fifoClear s) }

/-! ### Pacing -/

/-- The interval is 0 before any Set Time Constant and `256 - time_constant` after one. -/
theorem Inv.dmaInterval_le (s : State) (h : Inv s) : s.dmaInterval.toNat ≤ 256 := by
  obtain ⟨-, hunset, -, -⟩ | ⟨-, hset, -, -⟩ := h.rates
  · rw [hunset]
    exact Nat.zero_le _
  · rw [hset]
    exact Nat.sub_le _ _

theorem inv_paceEnable (s : State) (h : Inv s) : Inv (paceEnable s) := by
  cases hen : s.dmaEnabled with
  | true => rwa [paceEnable_of_enabled s hen]
  | false =>
    have hinterval := Inv.dmaInterval_le s h
    rw [paceEnable_of_disabled s hen]
    refine { inv_fifoClear s h with pendingEnabled := fun _ => rfl, pendingRange := fun d hd => ?_ }
    obtain rfl : (s.dmaInterval.toNat : Int) = d := Option.some.inj hd
    omega

theorem inv_paceDisable (s : State) (h : Inv s) : Inv (paceDisable s) :=
  { h with pendingEnabled := fun hpending => absurd rfl hpending, pendingRange := nofun }

/-- The next event is armed only while pacing is enabled; the signed sum is in the range of R21. -/
theorem inv_rearm (s : State) (h : Inv s) (hen : s.dmaEnabled = true) : Inv (rearm s) := by
  have hinterval := Inv.dmaInterval_le s h
  have htrim := h.trim
  refine { h with pendingEnabled := fun _ => hen, pendingRange := fun d hd => ?_ }
  obtain rfl : (s.dmaInterval.toNat + s.dmaIntervalTrim.toInt : Int) = d := Option.some.inj hd
  omega

theorem inv_paceEvent (s : State) (h : Inv s) : Inv (paceEvent s) := by
  cases hen : s.dmaEnabled with
  | false =>
    rw [paceEvent_of_disabled s hen]
    exact { h with pendingEnabled := fun hpending => absurd rfl hpending, pendingRange := nofun }
  | true =>
    have htrim : (trimOf (fifoHalf s)).toInt = -5 ∨ (trimOf (fifoHalf s)).toInt = 0 ∨
        (trimOf (fifoHalf s)).toInt = 5 := by
      rw [trimOf_toInt]
      split
      · exact .inr (.inr rfl)
      · exact .inl rfl
    rw [paceEvent_of_enabled s hen]
    exact { h with trim := htrim, pendingEnabled := fun hpending => absurd rfl hpending, pendingRange := nofun }

theorem inv_endBlock (s : State) (h : Inv s) (hen : s.dmaEnabled = true) : Inv (endBlock s) := by
  cases hauto : s.autoinit with
  | true =>
    have hloop : Inv (rearm { s with dmaSampleCountRx := 0 }) := inv_rearm _ { h with } hen
    rw [endBlock_of_autoinit s hauto]
    exact { hloop with }
  | false =>
    rw [endBlock_of_single s hauto]
    exact { inv_paceDisable s h with }

theorem inv_acceptByte (b : Byte) (s : State) (h : Inv s) (hen : s.dmaEnabled = true) : Inv (acceptByte b s) := by
  have hpush : Inv { fifoPush b s with dmaSampleCountRx := s.dmaSampleCountRx + 1 } := { inv_fifoPush b s h with }
  have hen' : (fifoPush b s).dmaEnabled = true := (fifoPush_dmaEnabled b s).trans hen
  rw [acceptByte_eq]
  split
  · exact inv_rearm _ hpush hen'
  · exact inv_endBlock _ hpush hen'

theorem inv_dmaDone (b : Byte) (s : State) (h : Inv s) : Inv (dmaDone b s) := by
  have hreq : Inv { s with dmaReq := false } := { h with }
  cases hen : s.dmaEnabled with
  | true => exact dmaDone_of_enabled b s hen ▸ inv_acceptByte b _ hreq hen
  | false => exact dmaDone_of_disabled b s hen ▸ hreq

/-! ### The commands -/

theorem inv_finishCommand (s : State) (h : Inv s) : Inv (finishCommand s) :=
  { h with command := .inr (.inl rfl), index := ⟨h.index.1, fun hne => absurd rfl hne⟩ }

/-- The index after a parameter. -/
theorem takeParam_index_toNat (s : State) (h : s.currentCommandIndex.toNat ≤ 1) :
    (takeParam s).currentCommandIndex.toNat = s.currentCommandIndex.toNat + 1 :=
  (BitVec.toNat_add ..).trans (Nat.mod_eq_of_lt (Nat.add_lt_of_lt_sub (Nat.lt_of_le_of_lt h (by decide))))

/-- A command takes its first parameter and stays in progress. -/
theorem inv_takeParam_first (s : State) (h : Inv s) (hidx : s.currentCommandIndex = 0) : Inv (takeParam s) := by
  have hzero : s.currentCommandIndex.toNat = 0 := congrArg BitVec.toNat hidx
  have hindex := takeParam_index_toNat s (by omega)
  exact { h with index := ⟨by omega, fun _ => by omega⟩ }

/-- A command takes its last parameter and is complete. -/
theorem inv_finishCommand_takeParam (s : State) (h : Inv s) (hidx : s.currentCommandIndex.toNat ≤ 1) :
    Inv (finishCommand (takeParam s)) := by
  have hindex := takeParam_index_toNat s hidx
  exact { h with
    command := .inr (.inl rfl)
    index := ⟨hindex ▸ Nat.succ_le_succ hidx, fun hne => absurd rfl hne⟩ }

/-- Set Time Constant leaves the registers its byte determines (R182). -/
theorem ratesSet_setTimeConstant (v : Byte) (s : State) (h : s.params.outputRate < 2 ^ 20) :
    RatesSet (setTimeConstant v s) := by
  have hrate := setTimeConstant_sampleRate_toNat v s
  refine ⟨hrate, (setTimeConstant_dmaInterval_toNat v s).trans (intervalOf_rateOf v), ?_, ?_⟩
  · rw [hrate]
    exact setTimeConstant_sampleStep_toNat v s
  · rw [hrate]
    exact setTimeConstant_sampleFactor_toNat v s h

theorem inv_setTimeConstant (v : Byte) (s : State) (h : Inv s) : Inv (setTimeConstant v s) := by
  obtain ⟨-, hbound, -, -⟩ := h.parameters
  exact { h with rates := .inr (ratesSet_setTimeConstant v s hbound) }

theorem inv_startBlockTransfer (auto : Bool) (s : State) (h : Inv s) : Inv (startBlockTransfer auto s) :=
  inv_finishCommand _ (inv_paceEnable { s with autoinit := auto, dmaSampleCount := s.dmaBlockSize } { h with })

/-- The end of a command and the start of pacing write different fields. -/
theorem finishCommand_paceEnable (s : State) : finishCommand (paceEnable s) = paceEnable (finishCommand s) := by
  rw [paceEnable_eq, paceEnable_eq]
  rfl

/-- A command that takes a parameter keeps the invariant if its work on the byte does. -/
theorem inv_withParam (s : State) (body : Byte → State → State) (h : Inv s)
    (hbody : s.davDsp = true → Inv (body s.inbox (takeParam s))) : Inv (withParam s body) := by
  cases hdav : s.davDsp with
  | true => rw [withParam_of_pending s body hdav]; exact hbody hdav
  | false => rwa [withParam_of_none s body hdav]

theorem inv_cmdSetTimeConstant (s : State) (h : Inv s) (hidx : s.currentCommandIndex.toNat ≤ 1) :
    Inv (cmdSetTimeConstant s) := by
  rw [cmdSetTimeConstant]
  exact inv_withParam s _ h fun _ => inv_setTimeConstant s.inbox _ (inv_finishCommand_takeParam s h hidx)

theorem inv_cmdSetBlockSize (s : State) (h : Inv s) (hidx : s.currentCommandIndex.toNat ≤ 1) :
    Inv (cmdSetBlockSize s) := by
  rw [cmdSetBlockSize]
  refine inv_withParam s _ h fun _ => ?_
  split
  next hfirst => exact { inv_takeParam_first s h hfirst with }
  next => exact { inv_finishCommand_takeParam s h hidx with }

theorem inv_cmdDmaSingle (s : State) (h : Inv s) (hidx : s.currentCommandIndex.toNat ≤ 1) : Inv (cmdDmaSingle s) := by
  rw [cmdDmaSingle]
  refine inv_withParam s _ h fun _ => ?_
  split
  next hfirst => exact { inv_takeParam_first s h hfirst with }
  next =>
    rw [finishCommand_paceEnable]
    exact inv_paceEnable _ { inv_finishCommand_takeParam s h hidx with }

theorem inv_cmdIdentify (s : State) (h : Inv s) (hidx : s.currentCommandIndex.toNat ≤ 1) : Inv (cmdIdentify s) := by
  rw [cmdIdentify]
  exact inv_withParam s _ h fun _ => { inv_finishCommand_takeParam s h hidx with }

theorem inv_cmdWriteTest (s : State) (h : Inv s) (hidx : s.currentCommandIndex.toNat ≤ 1) : Inv (cmdWriteTest s) := by
  rw [cmdWriteTest]
  exact inv_withParam s _ h fun _ => { inv_finishCommand_takeParam s h hidx with }

theorem inv_cmdGetVersion (s : State) (h : Inv s) : Inv (cmdGetVersion s) := by
  by_cases hfirst : s.currentCommandIndex = 0
  · rw [cmdGetVersion_of_first s hfirst]
    exact { h with index := ⟨Nat.le_succ 1, fun _ => Nat.le_refl 1⟩ }
  · rw [cmdGetVersion_of_later s hfirst]
    split
    · exact h
    · exact { inv_finishCommand s h with }

/-- The rule of every command keeps the invariant, where a command that is not `Idle` has a parameter to come. -/
theorem inv_runCommand (c : Command) (opcode : Byte) (s : State) (h : Inv s)
    (hidx : c ≠ .idle → s.currentCommandIndex.toNat ≤ 1) : Inv (runCommand c opcode s) := by
  cases c with
  | idle => exact h
  | dmaPause => exact inv_finishCommand _ (inv_paceDisable s h)
  | dmaResume => exact inv_finishCommand _ (inv_paceEnable s h)
  | dmaAuto | dmaHsAuto | dmaHsSingle => exact inv_startBlockTransfer _ s h
  | readTest => exact inv_finishCommand (outputByte s.testRegister s) { h with }
  | triggerIrq => exact inv_finishCommand (assertIrq s) { h with }
  | speakerOn | speakerOff | unknown => exact inv_finishCommand s h
  | setTimeConstant => exact inv_cmdSetTimeConstant s h (hidx nofun)
  | setBlockSize => exact inv_cmdSetBlockSize s h (hidx nofun)
  | dmaSingle => exact inv_cmdDmaSingle s h (hidx nofun)
  | identify => exact inv_cmdIdentify s h (hidx nofun)
  | writeTest => exact inv_cmdWriteTest s h (hidx nofun)
  | getVersion => exact inv_cmdGetVersion s h

/-- A command is over after its rule, or it stays in progress and is `Idle` or one of several steps. -/
theorem runCommand_currentCommand (c : Command) (opcode : Byte) (s : State) :
    (runCommand c opcode s).currentCommand = 0 ∨
      ((runCommand c opcode s).currentCommand = s.currentCommand ∧ (c = .idle ∨ MultiStep c)) := by
  have hparam : ∀ body : Byte → State → State,
      (∀ v, (body v (takeParam s)).currentCommand = 0 ∨ (body v (takeParam s)).currentCommand = s.currentCommand) →
      (withParam s body).currentCommand = 0 ∨ (withParam s body).currentCommand = s.currentCommand := by
    intro body hbody
    unfold withParam
    split
    · exact hbody s.inbox
    · exact .inr rfl
  cases c with
  | idle => exact .inr ⟨rfl, .inl rfl⟩
  | dmaPause | dmaResume | dmaAuto | dmaHsAuto | dmaHsSingle | readTest | triggerIrq | speakerOn | speakerOff
  | unknown => exact .inl rfl
  | setTimeConstant | identify | writeTest =>
    exact (hparam _ fun _ => .inl rfl).imp_right fun hkept => ⟨hkept, .inr (by simp [MultiStep])⟩
  | setBlockSize | dmaSingle =>
    refine (hparam _ fun v => ?_).imp_right fun hkept => ⟨hkept, .inr (by simp [MultiStep])⟩
    split
    · exact .inr rfl
    · exact .inl rfl
  | getVersion =>
    simp only [runCommand, cmdGetVersion]
    split_ifs
    · exact .inr ⟨rfl, .inr (by simp [MultiStep])⟩
    · exact .inr ⟨rfl, .inr (by simp [MultiStep])⟩
    · exact .inl rfl

/-! ### The protocol step -/

/-- Only 0x00 selects `Idle`. -/
theorem eq_zero_of_classify_idle (m : OpcodeMap) (b : Byte) (h : classify m b = .idle) : b = 0 := by
  rcases classify_cases m b with hrow | ⟨hunknown, -⟩
  · rw [h] at hrow
    simpa [opcodeRows] using hrow
  · rw [h] at hunknown
    cases hunknown

/-- The Poll agent may move on where `dsp_busy` agrees and no command is left in the middle of its first step. -/
theorem inv_pollOp (s : State) (op : PollOp) (h : Inv s) (hbusy : s.dspBusy = true ↔ op = .p2Next ∨ op = .p3Next)
    (hcommand : s.currentCommand = 0 ∨ MultiStep (classify s.params.opcodes s.currentCommand)) :
    Inv { s with pollOp := op } :=
  { h with busy := hbusy, command := .inr hcommand }

theorem inv_protocolEntry (s : State) (h : Inv s) (hidle : s.pollOp = .idle) : Inv (protocolEntry s) := by
  cases hreset : s.resetState with
  | true =>
    rw [protocolEntry_of_reset s hreset, ← hidle]
    exact h
  | false =>
    rw [protocolEntry_of_running s hreset]
    split
    · exact { h with
        busy := ⟨fun _ => .inl rfl, fun _ => rfl⟩
        command := .inl rfl
        index := ⟨Nat.zero_le _, fun _ => Nat.zero_le _⟩ }
    · exact { h with busy := ⟨fun _ => .inl rfl, fun _ => rfl⟩, command := .inl rfl }

theorem inv_protocolDispatch (s : State) (h : Inv s) (hnext : s.pollOp = .p2Next) : Inv (protocolDispatch s) := by
  have hkept := inv_runCommand (classify s.params.opcodes s.currentCommand) s.currentCommand s h
    fun hne => h.index.2 fun hzero => hne (by rw [hzero]; exact classify_zero _)
  refine inv_pollOp _ .p3Next hkept ?busy ?command
  case busy =>
    rw [runCommand_dspBusy]
    exact ⟨fun _ => .inr rfl, fun _ => h.busy.2 (.inl hnext)⟩
  case command =>
    rw [runCommand_params]
    obtain hdone | ⟨hsame, hidle | hmulti⟩ :=
      runCommand_currentCommand (classify s.params.opcodes s.currentCommand) s.currentCommand s
    · exact .inl hdone
    · exact .inl (hsame.trans (eq_zero_of_classify_idle _ _ hidle))
    · rw [hsame]
      exact .inr hmulti

theorem inv_protocolExit (s : State) (h : Inv s) (hnext : s.pollOp = .p3Next) : Inv (protocolExit s) :=
  { h with busy := ⟨nofun, nofun⟩, command := .inr (h.command.resolve_left (by rw [hnext]; decide)) }

theorem inv_notEnabled (s : State) (h : Inv s) : Inv (notEnabled s) := { h with }

theorem inv_protocolPhase (ph : PstepPhase) (s : State) (h : Inv s) : Inv (protocolPhase ph s) := by
  cases ph with
  | p1 =>
    simp only [protocolPhase]
    split
    · exact inv_protocolEntry s h ‹_›
    · exact inv_notEnabled s h
  | p2 =>
    simp only [protocolPhase]
    split
    · exact inv_protocolDispatch s h ‹_›
    · exact inv_notEnabled s h
  | p3 =>
    simp only [protocolPhase]
    split
    · exact inv_protocolExit s h ‹_›
    · exact inv_notEnabled s h

/-! ### The frame -/

/-- Between protocol steps the Poll agent may move from one phase of a frame to another. -/
theorem inv_framePollOp (s : State) (op : PollOp) (h : Inv s) (hs2 : s.pollOp ≠ .p2Next) (hs3 : s.pollOp ≠ .p3Next)
    (hop2 : op ≠ .p2Next) (hop3 : op ≠ .p3Next) : Inv { s with pollOp := op } :=
  inv_pollOp s op h (h.busy.trans (by simp [hs2, hs3, hop2, hop3])) (h.command.resolve_left hs2)

theorem inv_frameEntry (s : State) (h : Inv s) (hidle : s.pollOp = .idle) : Inv (frameEntry s) := by
  have hmoved := inv_framePollOp s .f2Next h (by rw [hidle]; decide) (by rw [hidle]; decide) (by decide) (by decide)
  exact { hmoved with polls := fun _ _ => Nat.zero_le _ }

theorem inv_framePull (s : State) (h : Inv s) (hnext : s.pollOp = .f2Next) : Inv (framePull s) := by
  have hmove : ∀ t : State, Inv t → t.pollOp = s.pollOp → Inv { t with pollOp := .f3Next } := fun t ht hpoll =>
    inv_framePollOp t .f3Next ht (by rw [hpoll, hnext]; decide) (by rw [hpoll, hnext]; decide) (by decide) (by decide)
  cases harmed : s.pullArmed with
  | true =>
    rw [framePull_of_armed s harmed]
    exact hmove (pull s) { inv_fifoPopInto Config.pullMax s h with } rfl
  | false =>
    rw [framePull_of_disarmed s harmed]
    exact hmove s h rfl

/-- A poll fails only before the limit, so counting it stays within. -/
theorem inv_failedPoll (s : State) (h : Inv s) (hheld : pullReady s = false) : Inv (failedPoll s) := by
  cases hlimit : s.params.mixWaitLimit with
  | none =>
    rw [failedPoll_of_unbounded s hlimit]
    exact inv_notEnabled s h
  | some limit =>
    have hbefore : s.waitPolls < limit := by
      refine Nat.lt_of_not_le fun hover => Bool.eq_false_iff.1 hheld ((pullReady_iff s).2 (.inr (.inr ?_)))
      rw [waitOver_bounded s limit hlimit]
      exact decide_eq_true hover
    rw [failedPoll_of_bounded s limit hlimit]
    refine { h with polls := fun limit' hlimit' => ?_ }
    obtain rfl : limit = limit' := Option.some.inj (hlimit.symm.trans hlimit')
    exact hbefore

/-- R218 for every state of the invariant: unset rates produce nothing, set ones at most 1075 samples. -/
theorem primarySamples_length_le (s : State) (h : Inv s) : (primarySamples s).1.length ≤ 1075 := by
  by_cases hn : s.n.val = 0
  · rw [primarySamples_none s (.inl hn)]
    exact Nat.zero_le _
  · obtain ⟨hlow, hbound, -, -⟩ := h.parameters
    obtain ⟨-, -, -, hfactor⟩ | hset := h.rates
    · rw [primarySamples_none s (.inr (congrArg BitVec.toNat hfactor))]
      exact Nat.zero_le _
    · obtain ⟨-, -, hlength⟩ := primarySamples_length_of_ratesSet s hlow hbound hset (Nat.pos_of_ne_zero hn)
      exact hlength

theorem orSilence_length_le (l : List Sample) (k : Nat) (hk : 1 ≤ k) (h : l.length ≤ k) :
    (orSilence l).length ≤ k := by
  cases l with
  | nil => exact hk
  | cons => exact h

theorem inv_frameMix (sec : List Sample) (s : State) (h : Inv s) (hnext : s.pollOp = .f3Next) :
    Inv (frameMix sec s) := by
  have hmoved := inv_framePollOp s .idle h (by rw [hnext]; decide) (by rw [hnext]; decide) (by decide) (by decide)
  exact { hmoved with
    frameSize := ⟨mixed_length _ sec, orSilence_length_le _ 1075 (by decide) (primarySamples_length_le s h)⟩ }

theorem inv_framePhase (ph : FramePhase) (s : State) (h : Inv s) : Inv (framePhase ph s) := by
  cases ph with
  | f1 =>
    simp only [framePhase]
    split
    · exact inv_frameEntry s h ‹_›
    · exact inv_notEnabled s h
  | f2 =>
    simp only [framePhase]
    split
    next hnext =>
      split
      next => exact inv_framePull s h hnext
      next hheld => exact inv_failedPoll s h (Bool.eq_false_iff.2 hheld)
    next => exact inv_notEnabled s h
  | f3 sec =>
    simp only [framePhase]
    split
    · exact inv_frameMix sec s h ‹_›
    · exact inv_notEnabled s h

/-! ### The bus -/

theorem inv_afterResetWrite (v : Byte) (s : State) (h : Inv s) : Inv (afterResetWrite v s) := by
  unfold afterResetWrite
  split_ifs
  · rw [resetAssert_eq]
    exact { inv_paceDisable s h with }
  · exact { h with
      command := .inr (.inl rfl)
      index := ⟨Nat.zero_le _, fun _ => Nat.zero_le _⟩ }
  · exact h

/-- The six things a bus access can do. -/
theorem runStimulus_bus_cases (a : BusAccess) (s t : State) (h : runStimulus (.bus a) s = .next t) :
    t = answerWith (.byte s.outbox) { s with davPc := false } ∨ t = answerWith (.byte (writeStatus s)) s ∨
      t = answerWith (.byte (readStatus s)) (deassertIrq s) ∨
      (decodePort s.params.ports a = .ok (.portResetWr a.data) ∧ t = afterResetWrite a.data s) ∨
      t = { (if s.davDsp then raiseDiag .protoOverwrite s else s) with inbox := a.data, davDsp := true } ∨
      t = unlistedAccess a.dir s := by
  obtain ⟨⟨⟩, -⟩ | ⟨_, ⟨⟩, -⟩ | ⟨_, ⟨⟩, -⟩ | ⟨⟨⟩, -⟩ | ⟨_, ⟨⟩, -⟩ | ⟨_, ⟨⟩, haccess⟩ := runStimulus_cases _ s t h
  exact haccess.imp And.right (.imp And.right (.imp And.right (.imp_right (.imp And.right And.right))))

theorem inv_runStimulus_bus (a : BusAccess) (s t : State) (h : Inv s) (hrun : runStimulus (.bus a) s = .next t) :
    Inv t := by
  obtain rfl | rfl | rfl | ⟨-, rfl⟩ | rfl | rfl := runStimulus_bus_cases a s t hrun
  · exact { h with }
  · exact { h with }
  · exact { h with }
  · exact inv_afterResetWrite _ s h
  · cases s.davDsp <;> exact { h with }
  · cases a.dir <;> exact { h with }

/-! ### Every step -/

theorem inv_runStimulus (st : Stimulus) (s t : State) (h : Inv s) (hrun : runStimulus st s = .next t) : Inv t := by
  cases st with
  | powerOn => cases hrun; exact inv_powerOn s h.parameters
  | bus a => exact inv_runStimulus_bus a s t h hrun
  | protocol ph => cases hrun; exact inv_protocolPhase ph s h
  | mixer ph => cases hrun; exact inv_framePhase ph s h
  | paceFires =>
    cases hrun
    split
    · exact inv_paceEvent s h
    · exact inv_notEnabled s h
  | dmaCompletes b =>
    cases hrun
    split
    · exact inv_dmaDone b s h
    · exact inv_notEnabled s h

/-- The invariant speaks of neither the script nor the draws. -/
theorem inv_takeStimulus (s : State) (h : Inv s) : Inv (takeStimulus s).2 := by
  unfold takeStimulus
  split
  · exact { h with }
  · exact { h with }

/-- Settles O52: a step takes a stimulus and runs it, and both keep the invariant. -/
theorem everyStepKeepsTheInvariant : Obligations.EveryStepKeepsTheInvariant :=
  fun s t h hstep => inv_runStimulus (takeStimulus s).1 (takeStimulus s).2 t (inv_takeStimulus s h) hstep

end Sys2Proof.Machine
end

section
/-! The permanent stall (R308) and the time reset is asserted (R236), each kept by one stimulus of any agent. -/

namespace Sys2Proof.Machine

/-! ### The permanent stall -/

theorem stalled_notEnabled (s : State) (h : Stalled s) : Stalled (notEnabled s) := { h with }

/-- While the Poll agent stands before `F2`, no phase of a protocol step happens. -/
theorem protocolPhase_of_f2Next (ph : PstepPhase) (s : State) (h : s.pollOp = .f2Next) :
    protocolPhase ph s = notEnabled s := by
  cases ph with
  | p1 | p2 | p3 => exact if_neg (by rw [h]; decide)

/-- Of the phases of a frame only `F2` is tried, and it is held. -/
theorem framePhase_of_stalled (ph : FramePhase) (s : State) (h : Stalled s) : framePhase ph s = notEnabled s := by
  cases ph with
  | f1 | f3 => exact if_neg (by rw [h.held]; decide)
  | f2 =>
    have hheld : pullReady s = false := by
      rw [pullReady_of_empty s h.armed h.empty, waitOver_unbounded s h.unbounded]
    simp only [framePhase, h.held, hheld, if_true, Bool.false_eq_true, if_false]
    exact failedPoll_of_unbounded s h.unbounded

theorem stalled_afterResetWrite (v : Byte) (s : State) (h : Stalled s) : Stalled (afterResetWrite v s) := by
  unfold afterResetWrite
  split_ifs
  · exact { h with disabled := rfl }
  · exact { h with }
  · exact h

theorem stalled_runStimulus_bus (a : BusAccess) (s t : State) (h : Stalled s)
    (hrun : runStimulus (.bus a) s = .next t) : Stalled t := by
  obtain rfl | rfl | rfl | ⟨-, rfl⟩ | rfl | rfl := runStimulus_bus_cases a s t hrun
  · exact { h with }
  · exact { h with }
  · exact { h with }
  · exact stalled_afterResetWrite _ s h
  · cases s.davDsp <;> exact { h with }
  · cases a.dir <;> exact { h with }

/-- R308 for one stimulus: the Poll agent cannot move, and nobody else enables pacing. -/
theorem stalled_runStimulus (st : Stimulus) (s t : State) (hst : st ≠ .powerOn) (h : Stalled s)
    (hrun : runStimulus st s = .next t) : Stalled t := by
  cases st with
  | powerOn => exact absurd rfl hst
  | bus a => exact stalled_runStimulus_bus a s t h hrun
  | protocol ph =>
    rw [runStimulus_protocol, protocolPhase_of_f2Next ph s h.held] at hrun
    cases hrun
    exact stalled_notEnabled s h
  | mixer ph =>
    rw [runStimulus_mixer, framePhase_of_stalled ph s h] at hrun
    cases hrun
    exact stalled_notEnabled s h
  | paceFires =>
    cases hrun
    rw [paceEvent_of_disabled s h.disabled]
    split <;> exact { h with }
  | dmaCompletes b =>
    cases hrun
    rw [dmaDone_of_disabled b s h.disabled]
    split <;> exact { h with }

/-- Settles O59: a loaded step runs its stimulus on a state stalled alike (`stalled_runStimulus`). -/
theorem onlyPowerOnEndsThePermanentStall : Obligations.OnlyPowerOnEndsThePermanentStall := by
  intro s t st rest hscript hst h hstep
  rw [step_of_script s st rest hscript] at hstep
  exact stalled_runStimulus st { s with script := rest } t hst { h with } hstep

/-! ### Reset asserted -/

/-- From `s` to `t` reset stays asserted, pacing off, the Poll agent outside a protocol step, and the command machine
as it was (R236). -/
structure ProtocolFrozen (s t : State) : Prop where
  reset : t.resetState = true
  pacing : t.dmaEnabled = false
  outside : t.pollOp ≠ .p2Next ∧ t.pollOp ≠ .p3Next
  command : t.currentCommand = s.currentCommand
  index : t.currentCommandIndex = s.currentCommandIndex
  pending : s.davDsp = true → t.davDsp = true
  busy : t.dspBusy = s.dspBusy
  outbox : t.outbox = s.outbox
  response : s.davPc = false → t.davPc = false

/-- The state itself meets what is kept. -/
theorem protocolFrozen_refl (s : State) (hreset : s.resetState = true) (hoff : s.dmaEnabled = false)
    (houtside : s.pollOp ≠ .p2Next ∧ s.pollOp ≠ .p3Next) : ProtocolFrozen s s :=
  ⟨hreset, hoff, houtside, rfl, rfl, id, rfl, rfl, id⟩

theorem protocolFrozen_protocolPhase (ph : PstepPhase) (s : State) (h : ProtocolFrozen s s) :
    ProtocolFrozen s (protocolPhase ph s) := by
  cases ph with
  | p1 =>
    simp only [protocolPhase]
    split
    · rw [protocolEntry_of_reset s h.reset]
      exact { h with outside := ⟨nofun, nofun⟩ }
    · exact { h with }
  | p2 => rw [show protocolPhase .p2 s = notEnabled s from if_neg h.outside.1]; exact { h with }
  | p3 => rw [show protocolPhase .p3 s = notEnabled s from if_neg h.outside.2]; exact { h with }

/-- A frame touches nothing of the command machine. -/
theorem protocolFrozen_framePhase (ph : FramePhase) (s : State) (h : ProtocolFrozen s s) :
    ProtocolFrozen s (framePhase ph s) := by
  cases ph with
  | f1 =>
    simp only [framePhase]
    split
    · exact { h with outside := ⟨nofun, nofun⟩ }
    · exact { h with }
  | f2 =>
    simp only [framePhase]
    split_ifs
    · unfold framePull
      split <;> exact { h with outside := ⟨nofun, nofun⟩ }
    · unfold failedPoll
      split <;> exact { h with }
    · exact { h with }
  | f3 sec =>
    simp only [framePhase]
    split
    · exact { h with outside := ⟨nofun, nofun⟩ }
    · exact { h with }

/-- Of the Reset port's values only 0 releases. -/
theorem protocolFrozen_afterResetWrite (v : Byte) (s : State) (hv : v ≠ 0) (h : ProtocolFrozen s s) :
    ProtocolFrozen s (afterResetWrite v s) := by
  unfold afterResetWrite
  split_ifs with hone hzero
  · exact { h with reset := rfl, pacing := rfl }
  · rw [Bool.and_eq_true, decide_eq_true_eq] at hzero
    exact absurd hzero.1 hv
  · exact h

theorem protocolFrozen_runStimulus_bus (a : BusAccess) (s t : State) (h : ProtocolFrozen s s)
    (hrelease : decodePort s.params.ports a ≠ .ok (.portResetWr 0)) (hrun : runStimulus (.bus a) s = .next t) :
    ProtocolFrozen s t := by
  obtain rfl | rfl | rfl | ⟨hport, rfl⟩ | rfl | rfl := runStimulus_bus_cases a s t hrun
  · exact { h with response := fun _ => rfl }
  · exact { h with }
  · exact { h with }
  · exact protocolFrozen_afterResetWrite _ s (fun hzero => hrelease (hzero ▸ hport)) h
  · split <;> exact { h with pending := fun _ => rfl }
  · cases a.dir <;> exact { h with }

/-- R236 for one stimulus. -/
theorem protocolFrozen_runStimulus (st : Stimulus) (s t : State) (hst : st ≠ .powerOn)
    (hrelease : ∀ a, st = .bus a → decodePort s.params.ports a ≠ .ok (.portResetWr 0)) (h : ProtocolFrozen s s)
    (hrun : runStimulus st s = .next t) : ProtocolFrozen s t := by
  cases st with
  | powerOn => exact absurd rfl hst
  | bus a => exact protocolFrozen_runStimulus_bus a s t h (hrelease a rfl) hrun
  | protocol ph => cases hrun; exact protocolFrozen_protocolPhase ph s h
  | mixer ph => cases hrun; exact protocolFrozen_framePhase ph s h
  | paceFires =>
    cases hrun
    rw [paceEvent_of_disabled s h.pacing]
    split <;> exact { h with }
  | dmaCompletes b =>
    cases hrun
    rw [dmaDone_of_disabled b s h.pacing]
    split <;> exact { h with }

/-- Settles O60: a loaded step runs its stimulus on a state frozen alike (`protocolFrozen_runStimulus`). -/
theorem resetKeepsTheProtocolAndPacingOff : Obligations.ResetKeepsTheProtocolAndPacingOff := by
  intro s t st rest hscript hst hrelease hreset hoff hp2 hp3 hstep
  rw [step_of_script s st rest hscript] at hstep
  obtain ⟨hreset', hoff', ⟨hp2', hp3'⟩, hcommand, hindex, hpending, hbusy, houtbox, hresponse⟩ :=
    protocolFrozen_runStimulus st { s with script := rest } t hst hrelease
      (protocolFrozen_refl _ hreset hoff ⟨hp2, hp3⟩) hstep
  exact ⟨hreset', hoff', hp2', hp3', hcommand, hindex, hpending, hbusy, houtbox, hresponse⟩

end Sys2Proof.Machine
end

section
/-! The fields that no rule reads (R31, R36, R40, R268): every operation is a function of the state that their values do
not enter, built from pieces of that kind. -/

namespace Sys2Proof.Machine

/-! ### Functions of the rest of the state -/

/-- Up to the unread fields, the result does not depend on them. -/
def Insensitive (f : State → State) : Prop := ∀ s, withoutUnread (f (withoutUnread s)) = withoutUnread (f s)

/-- On states that agree on the rest, an insensitive function agrees on the rest. -/
theorem Insensitive.congr (f : State → State) (hf : Insensitive f) (s s' : State)
    (h : withoutUnread s = withoutUnread s') : withoutUnread (f s) = withoutUnread (f s') := by
  rw [← hf s, ← hf s', h]

theorem Insensitive.comp (f g : State → State) (hf : Insensitive f) (hg : Insensitive g) :
    Insensitive fun s => g (f s) :=
  fun s => Insensitive.congr g hg _ _ (hf s)

/-- A branch on a condition that reads none of the fields. -/
theorem Insensitive.branch {c : State → Prop} [DecidablePred c] {f g : State → State}
    (hc : ∀ s, c (withoutUnread s) ↔ c s) (hf : Insensitive f) (hg : Insensitive g) :
    Insensitive fun s => if c s then f s else g s := by
  intro s
  by_cases h : c s
  · simpa only [if_pos h, if_pos ((hc s).2 h)] using hf s
  · simpa only [if_neg h, if_neg (mt (hc s).1 h)] using hg s

theorem insensitive_id : Insensitive fun s => s := fun _ => rfl

/-! ### FIFO and pacing -/

theorem insensitive_fifoPush (b : Byte) : Insensitive (fifoPush b) :=
  .comp (fun s => if fifoFull s then raiseDiag .overrun s else s)
    (fun s => { fifoWrite s.tail b s with tail := s.tail + 1 })
    (.branch (fun _ => Iff.rfl) (fun _ => rfl) insensitive_id) fun _ => rfl

theorem insensitive_paceEnable : Insensitive paceEnable :=
  .branch (fun _ => Iff.rfl) insensitive_id fun _ => rfl

theorem insensitive_paceEvent : Insensitive paceEvent :=
  .comp cancel (fun s => if s.dmaEnabled then beginTransfer { s with dmaIntervalTrim := trimOf (fifoHalf s) } else s)
    (fun _ => rfl) (.branch (fun _ => Iff.rfl) (fun _ => rfl) insensitive_id)

theorem insensitive_endBlock : Insensitive endBlock :=
  .comp (fun s => if s.autoinit then rearm { s with dmaSampleCountRx := 0 } else paceDisable s) assertIrq
    (.branch (fun _ => Iff.rfl) (fun _ => rfl) fun _ => rfl) fun _ => rfl

theorem insensitive_acceptByte (b : Byte) : Insensitive (acceptByte b) :=
  .comp (fun s => { fifoPush b s with dmaSampleCountRx := (fifoPush b s).dmaSampleCountRx + 1 })
    (fun s => if s.dmaSampleCountRx.toNat ≤ s.dmaSampleCount.toNat then rearm s else endBlock s)
    (.comp (fifoPush b) (fun s => { s with dmaSampleCountRx := s.dmaSampleCountRx + 1 }) (insensitive_fifoPush b)
      fun _ => rfl)
    (.branch (fun _ => Iff.rfl) (fun _ => rfl) insensitive_endBlock)

theorem insensitive_dmaDone (b : Byte) : Insensitive (dmaDone b) :=
  .comp (fun s => { s with dmaReq := false }) (fun s => if s.dmaEnabled then acceptByte b s else s) (fun _ => rfl)
    (.branch (fun _ => Iff.rfl) (insensitive_acceptByte b) insensitive_id)

/-! ### The commands -/

theorem insensitive_finishCommand : Insensitive finishCommand := fun _ => rfl

theorem insensitive_cmdDmaResume : Insensitive cmdDmaResume :=
  .comp paceEnable finishCommand insensitive_paceEnable insensitive_finishCommand

theorem insensitive_startBlockTransfer (auto : Bool) : Insensitive (startBlockTransfer auto) :=
  .comp (fun s => paceEnable { s with autoinit := auto, dmaSampleCount := s.dmaBlockSize }) finishCommand
    (.comp (fun s => { s with autoinit := auto, dmaSampleCount := s.dmaBlockSize }) paceEnable (fun _ => rfl)
      insensitive_paceEnable)
    insensitive_finishCommand

theorem insensitive_cmdSetBlockSize : Insensitive cmdSetBlockSize :=
  .branch (fun _ => Iff.rfl) (.branch (fun _ => Iff.rfl) (fun _ => rfl) fun _ => rfl) insensitive_id

theorem insensitive_cmdDmaSingle : Insensitive cmdDmaSingle :=
  .branch (fun _ => Iff.rfl)
    (.branch (fun _ => Iff.rfl) (fun _ => rfl)
      (.comp (fun s => { takeParam s with
          dmaSampleCount := highParam s.inbox s.dmaSampleCount, dmaSampleCountRx := 0, autoinit := false })
        cmdDmaResume (fun _ => rfl) insensitive_cmdDmaResume))
    insensitive_id

theorem insensitive_cmdGetVersion : Insensitive cmdGetVersion :=
  .branch (fun _ => Iff.rfl) (fun _ => rfl) (.branch (fun _ => Iff.rfl) insensitive_id fun _ => rfl)

theorem insensitive_cmdSetTimeConstant : Insensitive cmdSetTimeConstant :=
  .branch (fun _ => Iff.rfl) (fun _ => rfl) insensitive_id

theorem insensitive_cmdIdentify : Insensitive cmdIdentify :=
  .branch (fun _ => Iff.rfl) (fun _ => rfl) insensitive_id

theorem insensitive_cmdWriteTest : Insensitive cmdWriteTest :=
  .branch (fun _ => Iff.rfl) (fun _ => rfl) insensitive_id

theorem insensitive_runCommand (c : Command) (opcode : Byte) : Insensitive (runCommand c opcode) := by
  cases c with
  | idle | dmaPause | readTest | triggerIrq | speakerOn | speakerOff | unknown => exact fun _ => rfl
  | dmaResume => exact insensitive_cmdDmaResume
  | dmaAuto | dmaHsAuto | dmaHsSingle => exact insensitive_startBlockTransfer _
  | setTimeConstant => exact insensitive_cmdSetTimeConstant
  | setBlockSize => exact insensitive_cmdSetBlockSize
  | dmaSingle => exact insensitive_cmdDmaSingle
  | identify => exact insensitive_cmdIdentify
  | getVersion => exact insensitive_cmdGetVersion
  | writeTest => exact insensitive_cmdWriteTest

/-! ### The protocol step -/

theorem insensitive_notEnabled : Insensitive notEnabled := fun _ => rfl

theorem insensitive_protocolEntry : Insensitive protocolEntry :=
  .branch (fun _ => Iff.rfl) (fun _ => rfl)
    (.comp (fun s => if s.davDsp && s.currentCommand == 0 then latchCommand { s with dspBusy := true }
        else { s with dspBusy := true })
      (fun s => { s with pollOp := .p2Next }) (.branch (fun _ => Iff.rfl) (fun _ => rfl) fun _ => rfl) fun _ => rfl)

/-- The command selected is a function of fields that are read, and its rule is insensitive whichever it is. -/
theorem insensitive_protocolDispatch : Insensitive protocolDispatch := fun s =>
  congrArg (fun t : State => { t with pollOp := .p3Next })
    (insensitive_runCommand (classify s.params.opcodes s.currentCommand) s.currentCommand s)

theorem insensitive_protocolPhase (ph : PstepPhase) : Insensitive (protocolPhase ph) := by
  cases ph with
  | p1 => exact .branch (fun _ => Iff.rfl) insensitive_protocolEntry insensitive_notEnabled
  | p2 => exact .branch (fun _ => Iff.rfl) insensitive_protocolDispatch insensitive_notEnabled
  | p3 => exact .branch (fun _ => Iff.rfl) (fun _ => rfl) insensitive_notEnabled

theorem insensitive_protocolStep : Insensitive protocolStep :=
  .branch (fun _ => Iff.rfl)
    (.comp protocolEntry (fun s => if s.pollOp = .p2Next then protocolExit (protocolDispatch s) else s)
      insensitive_protocolEntry
      (.branch (fun _ => Iff.rfl) (.comp protocolDispatch protocolExit insensitive_protocolDispatch fun _ => rfl)
        insensitive_id))
    insensitive_notEnabled

/-! ### The frame -/

theorem insensitive_framePull : Insensitive framePull :=
  .comp (fun s => if s.pullArmed then pull s else s) (fun s => { s with pollOp := .f3Next })
    (.branch (fun _ => Iff.rfl) (fun _ => rfl) insensitive_id) fun _ => rfl

theorem insensitive_failedPoll : Insensitive failedPoll := by
  intro s
  cases hlimit : s.params.mixWaitLimit with
  | none => rw [failedPoll_of_unbounded s hlimit, failedPoll_of_unbounded (withoutUnread s) hlimit]; rfl
  | some limit => rw [failedPoll_of_bounded s limit hlimit, failedPoll_of_bounded (withoutUnread s) limit hlimit]; rfl

theorem insensitive_frameMix (sec : List Sample) : Insensitive (frameMix sec) := fun _ => rfl

theorem insensitive_framePhase (ph : FramePhase) : Insensitive (framePhase ph) := by
  cases ph with
  | f1 => exact .branch (fun _ => Iff.rfl) (fun _ => rfl) insensitive_notEnabled
  | f2 =>
    exact .branch (fun _ => Iff.rfl)
      (.branch (fun _ => Iff.rfl) insensitive_framePull insensitive_failedPoll) insensitive_notEnabled
  | f3 sec => exact .branch (fun _ => Iff.rfl) (insensitive_frameMix sec) insensitive_notEnabled

theorem insensitive_waitAlone : Insensitive waitAlone := by
  intro s
  cases hlimit : s.params.mixWaitLimit with
  | none => rw [waitAlone_of_unbounded s hlimit, waitAlone_of_unbounded (withoutUnread s) hlimit]; rfl
  | some limit =>
    have hwait : ∀ t : State, t.params.mixWaitLimit = some limit →
        waitAlone t = if pullReady t then t else { t with waitPolls := limit } := fun t ht => by rw [waitAlone, ht]
    rw [hwait s hlimit, hwait (withoutUnread s) hlimit]
    exact Insensitive.branch (c := fun t => pullReady t = true) (f := fun t => t)
      (g := fun t => { t with waitPolls := limit }) (fun _ => Iff.rfl) insensitive_id (fun _ => rfl) s

theorem insensitive_wholeFrame (sec : List Sample) : Insensitive (wholeFrame sec) :=
  .branch (fun _ => Iff.rfl)
    (.comp (fun s => waitAlone (frameEntry s))
      (fun s => if pullReady s then frameMix sec (framePull s) else failedPoll s)
      (.comp frameEntry waitAlone (fun _ => rfl) insensitive_waitAlone)
      (.branch (fun _ => Iff.rfl)
        (.comp framePull (frameMix sec) insensitive_framePull (insensitive_frameMix sec)) insensitive_failedPoll))
    insensitive_notEnabled

/-! ### The ports -/

theorem insensitive_afterResetWrite (v : Byte) : Insensitive (afterResetWrite v) :=
  .branch (fun _ => Iff.rfl) (fun _ => rfl) (.branch (fun _ => Iff.rfl) (fun _ => rfl) insensitive_id)

/-! ### Every operation -/

/-- Every operation answers an insensitive function of the state. -/
theorem exec_insensitive (i : Instr) : ∃ f, (∀ s, exec i s = .next (f s)) ∧ Insensitive f := by
  cases i with
  | cmdDmaSingle => exact ⟨_, fun _ => rfl, insensitive_cmdDmaSingle⟩
  | cmdDmaAuto | cmdDmaHsAuto | cmdDmaHsSingle => exact ⟨_, fun _ => rfl, insensitive_startBlockTransfer _⟩
  | cmdSetTimeConstant => exact ⟨_, fun _ => rfl, insensitive_cmdSetTimeConstant⟩
  | cmdSetBlockSize => exact ⟨_, fun _ => rfl, insensitive_cmdSetBlockSize⟩
  | cmdDmaResume => exact ⟨_, fun _ => rfl, insensitive_cmdDmaResume⟩
  | cmdIdentify => exact ⟨_, fun _ => rfl, insensitive_cmdIdentify⟩
  | cmdGetVersion => exact ⟨_, fun _ => rfl, insensitive_cmdGetVersion⟩
  | cmdWriteTest => exact ⟨_, fun _ => rfl, insensitive_cmdWriteTest⟩
  | cmdDmaPause | cmdSpeakerOn | cmdSpeakerOff | cmdReadTest | cmdTriggerIrq | cmdIdleZero | cmdUnknown
  | portReadRd | portWstatusRd | portRstatusRd | por | fifoLevel | fifoPopInto | fifoClear | fifoHalf | paceDisable
  | output => exact ⟨_, fun _ => rfl, fun _ => rfl⟩
  | portResetWr v => exact ⟨_, exec_portResetWr v, insensitive_afterResetWrite v⟩
  | portWriteWr v =>
    exact ⟨_, exec_portWriteWr v,
      .comp (fun s => if s.davDsp then raiseDiag .protoOverwrite s else s)
        (fun s => { s with inbox := v, davDsp := true })
        (.branch (fun _ => Iff.rfl) (fun _ => rfl) insensitive_id) fun _ => rfl⟩
  | pstep part =>
    cases part with
    | whole => exact ⟨_, fun _ => rfl, insensitive_protocolStep⟩
    | phase ph => exact ⟨_, fun _ => rfl, insensitive_protocolPhase ph⟩
  | frame part =>
    cases part with
    | whole sec => exact ⟨_, fun _ => rfl, insensitive_wholeFrame sec⟩
    | phase ph => exact ⟨_, fun _ => rfl, insensitive_framePhase ph⟩
  | paceEvent =>
    exact ⟨_, fun _ => rfl, .branch (fun _ => Iff.rfl) insensitive_paceEvent insensitive_notEnabled⟩
  | dmaDone b => exact ⟨_, fun _ => rfl, .branch (fun _ => Iff.rfl) (insensitive_dmaDone b) insensitive_notEnabled⟩
  | fifoPush b => exact ⟨_, fun _ => rfl, insensitive_fifoPush b⟩
  | paceEnable => exact ⟨_, fun _ => rfl, insensitive_paceEnable⟩
  | consumeParam => exact ⟨_, fun _ => rfl, .branch (fun _ => Iff.rfl) (fun _ => rfl) insensitive_notEnabled⟩

/-- Settles O58: the operation is an insensitive function (`exec_insensitive`), so it agrees where the states do. -/
theorem unreadFieldsInfluenceNothing : Obligations.UnreadFieldsInfluenceNothing := by
  intro i s s' t t' hagree ht ht'
  obtain ⟨f, hf, hins⟩ := exec_insensitive i
  obtain rfl : f s = t := Host.Outcome.next.inj ((hf s).symm.trans ht)
  obtain rfl : f s' = t' := Host.Outcome.next.inj ((hf s').symm.trans ht')
  exact Insensitive.congr f hins s s' hagree

end Sys2Proof.Machine
end
